-- ==== Sys2Proof/Word.lean ====
section
/-! DEFINITION. The words and byte strings of the block: bytes, halfwords, 32-bit words, and lists of a fixed length
(00_scope.md rules R9 and R10). -/

namespace Sys2Proof

/-- A byte (rule R10: 8 bits). -/
abbrev Byte := BitVec 8

/-- A 16-bit field: lengths, offsets, network identifiers, labels. -/
abbrev Half := BitVec 16

/-- A 32-bit register or command word. -/
abbrev Word := BitVec 32

/-- A list that always has `n` elements: the register windows, keys, nonces and the flow table.
It is plain data with its length proved once. -/
structure FixedList (α : Type) (n : Nat) where
  toList : List α
  length_eq : toList.length = n
deriving DecidableEq, Repr

/-- Element `i`, or the type's default value past the end (no caller reads past the end). -/
def FixedList.get {α : Type} {n : Nat} [Inhabited α] (v : FixedList α n) (i : Nat) : α :=
  v.toList.getD i default

/-- The list with element `i` replaced; an index past the end replaces nothing. -/
def FixedList.set {α : Type} {n : Nat} (v : FixedList α n) (i : Nat) (x : α) : FixedList α n :=
  ⟨v.toList.set i x, by rw [List.length_set, v.length_eq]⟩

/-- `n` copies of one element. -/
def FixedList.replicate {α : Type} (n : Nat) (x : α) : FixedList α n :=
  ⟨List.replicate n x, List.length_replicate⟩

/-- The first `n` elements of a list, filled up with the default value when the list is shorter. -/
def FixedList.ofList {α : Type} [Inhabited α] (n : Nat) (l : List α) : FixedList α n :=
  ⟨(l ++ List.replicate n default).take n, by simp⟩

/-- A string of exactly `n` bytes. -/
abbrev Bytes (n : Nat) := FixedList Byte n

/-- A cipher block (rule R9: block size 16 bytes). -/
abbrev Block := Bytes 16

/-- A key (rule R9: key size 16 bytes). -/
abbrev Key := Bytes 16

/-- A nonce (rule R9: 13 bytes). -/
abbrev Nonce := Bytes 13

end Sys2Proof
end

