-- ==== Sys2Proof/Config.lean ====
section
/-! DEFINITION. What an implementation fixes (00_scope.md rule R8, with the values the spec gives the block) and the
free values: constants without a body, of which nothing can be proved (00_scope.md rule R15). -/

namespace Sys2Proof.Config

/-- BUF_LEN (rule R8): the size in bytes of BUF and of OUT. -/
abbrev bufLen : Nat := 512

/-- N_GLOBAL (rule R8): the capacity of the global key list. -/
abbrev nGlobal : Nat := 16

/-- N_FLOW (rule R8): the number of flow slots. -/
abbrev nFlow : Nat := 8

/-- N_FLOW_KEYS (rule R8): the capacity of each flow's key list. -/
abbrev nFlowKeys : Nat := 8

/-- The longest input whose bit length fits the 16-bit length field of the padding (41_mmo_hash.md rule R502). -/
abbrev mmoFieldMax : Nat := 8191

/-- The reset value of CTRL.DEFLEVEL (rule R8): 5, EncMIC32. -/
def defLevelReset : BitVec 3 := 5

/-- The reset value of CTRL.IPOL (rule R8): 0, verify the MIC. -/
def ipolReset : Bool := false

/-- The constant of the ID register (10_state.md rule R101). -/
def idWord : Word := 0x5A534543

/-- FREE VALUE (70_reset_and_hazards.md rule R1101; 93_implementation_defined.md I2). What the byte of BUF or OUT at
block offset `offset` holds after the reset numbered `epoch`, until it is written: one unconstrained draw per byte and
reset. -/
opaque resetByte (epoch offset : Nat) : Byte

/-- FREE VALUE (70_reset_and_hazards.md rule R1112; 93_implementation_defined.md I1). The word that the `n`-th read
served while BUSY = 1 draws, for the registers and window bytes whose value is then a draw. -/
opaque busyDraw (n : Nat) : Word

/-- FREE VALUE (20_memory.md rule R200; 92_eei_decisions.md D45). The number of the 4 KiB page of the platform's memory
map at which the window lies. -/
opaque zsecPage : Nat

/-- ZSEC_BASE (D45): the platform address of the window, aligned to 4 KiB. -/
def zsecBase : Nat := 4096 * zsecPage

end Sys2Proof.Config
end

