-- ==== Sys2Proof/Syntax.lean ====
section
/-! DEFINITION. The commands of ZSEC-CMD version 1, one constructor per row of spec/opcode_table.json (30_encoding.md
rule R310), and what the outside world can present to the block: host accesses (20_memory.md rules R200 and R212),
the moment a running command completes (70_reset_and_hazards.md rule R1110) and the reset input (rule R1100). -/

namespace Sys2Proof

/-- A MIC length of 0, 4, 8 or 16 bytes (30_encoding.md rule R302: no MICSEL value is illegal). -/
inductive MicLen where
  | m0
  | m4
  | m8
  | m16
deriving DecidableEq, Repr

/-- The 13 commands (30_encoding.md rule R310). -/
inductive Instr where
  /-- NOP (45_frame_decrypt.md rule R920). -/
  | nop
  /-- AES_ENC (40_aes128.md rule R420). -/
  | aesEnc
  /-- MMO_HASH (41_mmo_hash.md rule R510). -/
  | mmoHash
  /-- KEYED_HASH imm (41_mmo_hash.md rule R520): every byte is a legal immediate. -/
  | keyedHash (imm8 : Byte)
  /-- CCM_DEC M (42_ccm_star.md rule R620). -/
  | ccmDec (mic : MicLen)
  /-- CCM_ENC M (42_ccm_star.md rule R630). -/
  | ccmEnc (mic : MicLen)
  /-- PARSE_HDR (43_header_nonce.md rule R730). -/
  | parseHdr
  /-- BUILD_NONCE (43_header_nonce.md rule R731). -/
  | buildNonce
  /-- DECRYPT_FRAME (45_frame_decrypt.md rule R900). -/
  | decryptFrame
  /-- REG_KEY (44_key_ring.md rule R835). -/
  | regKey
  /-- ADD_GKEY, reversed or not (44_key_ring.md rule R840). -/
  | addGkey (rev : Bool)
  /-- LOOKUP_LABEL (44_key_ring.md rule R845). -/
  | lookupLabel
  /-- SESSION_RESET (44_key_ring.md rule R830). -/
  | sessionReset
deriving DecidableEq, Repr

/-- The width of a host access (20_memory.md rule R212): 8, 16 or 32 bits; there is no wider access. -/
inductive Width where
  | byte
  | half
  | word
deriving DecidableEq, Repr

/-- One thing that happens at the block's boundary. The block serves them one at a time, in the order of
`State.inputs` (20_memory.md rules R220 and R1021). An offset is a byte offset in the 4 KiB window (rule R200). -/
inductive HostEvent where
  /-- A host read. -/
  | read (width : Width) (offset : BitVec 12)
  /-- A host write; an access narrower than 32 bits moves the low bits of `data`. -/
  | write (width : Width) (offset : BitVec 12) (data : Word)
  /-- The running command completes now (70_reset_and_hazards.md rule R1110: the delay is a choice of the schedule). -/
  | complete
  /-- The platform asserts the reset input (rule R1100). -/
  | assertReset
  /-- The platform releases the reset input (rule R1100). -/
  | releaseReset
deriving DecidableEq, Repr

end Sys2Proof
end

