-- ==== Sys2Proof/WellFormed.lean ====
section
/-! DEFINITION. Well-formedness of commands and of host accesses. A command's operands are typed by what its encoding
admits (30_encoding.md rules R301 and R302), so every command is well formed. A host access is well formed when its
width and alignment are what its region allows (20_memory.md rule R212). -/

namespace Sys2Proof

/-- Every operand value that a constructor admits has an encoding (30_encoding.md rules R301, R302 and R310): no
immediate byte, MIC length or REV value is illegal, and the other commands have no operand field. -/
def Instr.wellFormed : Instr → Bool
  | .nop => true
  | .aesEnc => true
  | .mmoHash => true
  | .keyedHash _ => true
  | .ccmDec _ => true
  | .ccmEnc _ => true
  | .parseHdr => true
  | .buildNonce => true
  | .decryptFrame => true
  | .regKey => true
  | .addGkey _ => true
  | .lookupLabel => true
  | .sessionReset => true

/-- Does the offset lie in the register area, 0x000 to 0x0FF (20_memory.md rule R202)? -/
def inRegisterArea (offset : BitVec 12) : Bool := offset.extractLsb' 8 4 == 0

/-- Rule R212 for one access: a register takes 32-bit accesses at multiples of 4 only; a window takes 8-bit accesses at
any offset, 16-bit ones at even offsets and 32-bit ones at multiples of 4. -/
def accessWellFormed : Width → BitVec 12 → Bool
  | .byte, offset => !inRegisterArea offset
  | .half, offset => !inRegisterArea offset && offset.extractLsb' 0 1 == 0
  | .word, offset => offset.extractLsb' 0 2 == 0

/-- Rule R212 for an event; an event that is no access has nothing to check. -/
def HostEvent.wellFormed : HostEvent → Bool
  | .read width offset => accessWellFormed width offset
  | .write width offset _ => accessWellFormed width offset
  | .complete => true
  | .assertReset => true
  | .releaseReset => true

end Sys2Proof
end

