-- ==== Sys2Proof/Decode.lean ====
section
/-! DEFINITION. The decoder of the 32-bit command word and its encoder (30_encoding.md rules R300, R301, R302, R310 and
R311). -/

namespace Sys2Proof

/-- Why a command word is illegal (30_encoding.md rule R311, cases (a), (b) and (c)). -/
inductive DecodeError where
  /-- (a) OP is in 0x0D..0xFF. -/
  | unassignedOpcode
  /-- (b) bits 31:19 are not 0. -/
  | reservedBits
  /-- (c) bits 15:8 are not 0 and the opcode has no immediate. -/
  | imm8NotUsed
  /-- (c) bits 17:16 are not 0 and the opcode has no MIC length. -/
  | micselNotUsed
  /-- (c) bit 18 is not 0 and the opcode has no byte-order flag. -/
  | revNotUsed
deriving DecidableEq, Repr

/-- CMD[7:0] (rule R300). -/
def fieldOp (w : Word) : BitVec 8 := w.extractLsb' 0 8

/-- CMD[15:8] (rule R300). -/
def fieldImm8 (w : Word) : Byte := w.extractLsb' 8 8

/-- CMD[17:16] (rule R300). -/
def fieldMicsel (w : Word) : BitVec 2 := w.extractLsb' 16 2

/-- CMD[18] (rule R300). -/
def fieldRev (w : Word) : BitVec 1 := w.extractLsb' 18 1

/-- CMD[31:19] (rule R300: reserved, must be 0). -/
def fieldReserved (w : Word) : BitVec 13 := w.extractLsb' 19 13

/-- The MIC length a MICSEL value selects (rule R302). -/
def micLenOfBits (b : BitVec 2) : MicLen :=
  match b.toNat with
  | 0 => .m0
  | 1 => .m4
  | 2 => .m8
  | _ => .m16

/-- The MICSEL value of a MIC length (rule R302). -/
def micLenBits : MicLen → BitVec 2
  | .m0 => 0
  | .m4 => 1
  | .m8 => 2
  | .m16 => 3

/-- Refuses a word whose IMM8 field is set where the opcode has none (rule R311 (c)). -/
def needNoImm8 (w : Word) (r : Except DecodeError Instr) : Except DecodeError Instr :=
  if fieldImm8 w = 0 then r else .error .imm8NotUsed

/-- Refuses a word whose MICSEL field is set where the opcode has none (rule R311 (c)). -/
def needNoMicsel (w : Word) (r : Except DecodeError Instr) : Except DecodeError Instr :=
  if fieldMicsel w = 0 then r else .error .micselNotUsed

/-- Refuses a word whose REV bit is set where the opcode has none (rule R311 (c)). -/
def needNoRev (w : Word) (r : Except DecodeError Instr) : Except DecodeError Instr :=
  if fieldRev w = 0 then r else .error .revNotUsed

/-- A command without any operand field: the word is 0x000000OP exactly (rule R310). -/
def plainCommand (w : Word) (i : Instr) : Except DecodeError Instr :=
  needNoImm8 w (needNoMicsel w (needNoRev w (.ok i)))

/-- The opcode map of rule R310, with the unused fields of each row checked (rule R311 (a) and (c)). -/
def decodeOpcode (w : Word) : Except DecodeError Instr :=
  match (fieldOp w).toNat with
  | 0x00 => plainCommand w .nop
  | 0x01 => plainCommand w .aesEnc
  | 0x02 => plainCommand w .mmoHash
  | 0x03 => needNoMicsel w (needNoRev w (.ok (.keyedHash (fieldImm8 w))))
  | 0x04 => needNoImm8 w (needNoRev w (.ok (.ccmDec (micLenOfBits (fieldMicsel w)))))
  | 0x05 => needNoImm8 w (needNoRev w (.ok (.ccmEnc (micLenOfBits (fieldMicsel w)))))
  | 0x06 => plainCommand w .parseHdr
  | 0x07 => plainCommand w .buildNonce
  | 0x08 => plainCommand w .decryptFrame
  | 0x09 => plainCommand w .regKey
  | 0x0A => needNoImm8 w (needNoMicsel w (.ok (.addGkey (fieldRev w == 1))))
  | 0x0B => plainCommand w .lookupLabel
  | 0x0C => plainCommand w .sessionReset
  | _ => .error .unassignedOpcode

/-- The decoder: total on every 32-bit word, with the reason of a refusal (rules R310 and R311). -/
def decode (w : Word) : Except DecodeError Instr :=
  if fieldReserved w = 0 then decodeOpcode w else .error .reservedBits

/-- A command word put together from its fields (rule R300): reserved bits 31:19 are 0. -/
def commandWord (op : BitVec 8) (imm8 : Byte) (micsel : BitVec 2) (rev : BitVec 1) : Word :=
  (0#13 ++ rev ++ micsel ++ imm8 ++ op : BitVec 32)

/-- The encoder: the command word of an instruction (rule R310), every field the opcode does not use 0. -/
def encode : Instr → Word
  | .nop => commandWord 0x00 0 0 0
  | .aesEnc => commandWord 0x01 0 0 0
  | .mmoHash => commandWord 0x02 0 0 0
  | .keyedHash imm8 => commandWord 0x03 imm8 0 0
  | .ccmDec mic => commandWord 0x04 0 (micLenBits mic) 0
  | .ccmEnc mic => commandWord 0x05 0 (micLenBits mic) 0
  | .parseHdr => commandWord 0x06 0 0 0
  | .buildNonce => commandWord 0x07 0 0 0
  | .decryptFrame => commandWord 0x08 0 0 0
  | .regKey => commandWord 0x09 0 0 0
  | .addGkey rev => commandWord 0x0A 0 0 (BitVec.ofBool rev)
  | .lookupLabel => commandWord 0x0B 0 0 0
  | .sessionReset => commandWord 0x0C 0 0 0

/-- The instruction the decoder reads from an opcode-table word of `nbits` bits, every bit above them 0. A command is one
32-bit word moved as a whole by the write to CMD (rules R300 and R104), so no byte order enters. -/
def decodeTableWord (nbits w : Nat) : Option Instr :=
  match decode (BitVec.ofNat 32 (w % 2 ^ nbits)) with
  | .ok i => some i
  | .error _ => none

end Sys2Proof
end

