-- ==== Sys2Proof/Machine/State.lean ====
section
/-! DEFINITION. The state of the ZSEC security core (10_state.md), its reset value (70_reset_and_hazards.md rule R1101),
and the reasons a step can stop. -/

namespace Sys2Proof.Machine

/-- The outcome a command leaves behind (60_exceptions.md rule R1000). The codes 9 to 255 are never produced. -/
inductive ErrCode where
  | ok
  | headerTooShort
  | unknownSource
  | frameTooLarge
  | truncatedCiphertext
  | authFailure
  | illegalCommand
  | ringFull
  | notFound
deriving DecidableEq, Repr

/-- The key kinds a frame can name (30_encoding.md rule R322). -/
inductive KeyId where
  | link
  | network
  | transport
  | load
deriving DecidableEq, Repr

/-- A stored key with its label number and its origin tag (10_state.md rules R130 and R133). -/
structure KeyRecord where
  key : Key
  label : Half
  tag : Word
deriving DecidableEq, Repr

/-- A flow's cache: for each key_id, empty or one raw key (10_state.md rule R132). -/
structure FlowCache where
  link : Option Key
  network : Option Key
  transport : Option Key
  load : Option Key
deriving DecidableEq, Repr

/-- A valid flow slot (10_state.md rule R131): its NETID, its keys in order of addition (their number is the slot's
count), and its cache. -/
structure Flow where
  netid : Half
  keys : List KeyRecord
  cache : FlowCache
deriving DecidableEq, Repr

/-- The N_FLOW flow slots (10_state.md rule R131). `none` is a slot with valid = 0, whose other fields nothing can reach
(93_implementation_defined.md I19). -/
abbrev FlowTable := FixedList (Option Flow) Config.nFlow

/-- The sequencer's phase (10_state.md rule R140) with the latch it holds while BUSY (rule R141). -/
inductive Sequencer where
  | idle
  | busy (pending : Word)
deriving DecidableEq, Repr

/-- What the bus returns to the master for one access (20_memory.md rules R210 and R213). -/
structure BusResponse where
  error : Bool
  data : Word
deriving DecidableEq, Repr

/-- The bytes of BUF and OUT that have been written since reset, as (block offset, byte) pairs, the offsets strictly
rising (10_state.md rule R123, 20_memory.md rule R202). -/
abbrev Memory := List Host.Cell

/-- The whole state of the block (10_state.md), and four fields of the model's own at the end. A register field that is
reserved (reads as zero, ignores writes) has no storage. -/
@[ext]
structure State where
  /-- The sequencer phase and its pending command word (rules R140 and R141); STATUS.BUSY shows the phase. -/
  seq : Sequencer
  /-- STATUS.DONE (rule R103). -/
  done : Bool
  /-- STATUS.WERR (rule R103). -/
  werr : Bool
  /-- STATUS.ERRCODE (rule R103); STATUS.ERR is computed from it. -/
  errCode : ErrCode
  /-- CTRL.IE (rule R102). -/
  ie : Bool
  /-- CTRL.DEFLEVEL (rule R102). -/
  defLevel : BitVec 3
  /-- CTRL.IPOL (rule R102). -/
  ipol : Bool
  /-- CMD (rule R104): the last accepted command word. -/
  cmd : Word
  /-- ALEN (rule R105). -/
  alen : Half
  /-- MLEN (rule R106). -/
  mlen : Half
  /-- CAPLEN (rule R107). -/
  caplen : Half
  /-- REPLEN (rule R108). -/
  replen : Half
  /-- HOFF (rule R109). -/
  hoff : Half
  /-- NETID (rule R110). -/
  netid : Half
  /-- HINT_LO (rule R111). -/
  hintLo : Word
  /-- HINT_HI (rule R111). -/
  hintHi : Word
  /-- HINTV (rule R112). -/
  hintv : Bool
  /-- LABEL (rule R113). -/
  label : Half
  /-- TAG (rule R114). -/
  tag : Word
  /-- HDR_CTRL (rule R115). -/
  hdrCtrl : Word
  /-- HDR_INFO (rule R116). -/
  hdrInfo : Word
  /-- HDR_FC (rule R117). -/
  hdrFc : Word
  /-- HDR_EXT_LO (rule R118). -/
  hdrExtLo : Word
  /-- HDR_EXT_HI (rule R118). -/
  hdrExtHi : Word
  /-- HDR_POS (rule R119). -/
  hdrPos : Word
  /-- RESULT (rule R122). -/
  result : Word
  /-- The KEY window (rule R123). -/
  key : Key
  /-- The NONCE window (rule R123). -/
  nonce : Nonce
  /-- The BLK window (rule R123). -/
  blk : Block
  /-- The RES window (rule R123). -/
  res : Block
  /-- The BUF and OUT windows (rule R123). -/
  mem : Memory
  /-- The global key list in order of addition (rule R130); GCOUNT is its length. -/
  globalKeys : List KeyRecord
  /-- The flow table (rules R131 and R132). -/
  flows : FlowTable
  /-- The level of the reset input (70_reset_and_hazards.md rule R1100). -/
  inReset : Bool
  /-- The model's own: what is still to happen at the block's boundary, the next event first (rules R14 and R220). -/
  inputs : List HostEvent
  /-- The model's own: the bus response of the access the last step served, if it served one. -/
  resp : Option BusResponse
  /-- The model's own: how many reads have been served while BUSY; it numbers the draws `Config.busyDraw`. -/
  draws : Nat
  /-- The model's own: how often the reset input has changed; it numbers the draws `Config.resetByte`. -/
  epoch : Nat
deriving DecidableEq, Repr

/-- Reasons for a step to stop with a fault: there are none. The block takes no traps and no error stops it
(60_exceptions.md rules R1001 and R1025); a bus error is a response to the master, after which the block goes on
(rule R1030). Nobody raises a fault, so none can be unsafe. -/
inductive Fault where
deriving DecidableEq, Repr

/-- Reasons for a step to be refused. -/
inductive Refusal where
  /-- Raised by `exec` alone, for a command that has no meaning in the model; safe. No arm of `exec` raises it. -/
  | notModelled (mnemonic : String)
deriving DecidableEq, Repr

/-- A cache with every entry empty (rule R132). -/
def FlowCache.empty : FlowCache := { link := none, network := none, transport := none, load := none }

/-- The block right after reset (70_reset_and_hazards.md rule R1101), with nothing pending at its boundary. BUF and OUT
are unspecified: nothing is listed in `mem`. -/
def State.reset : State :=
  { seq := .idle
    done := false
    werr := false
    errCode := .ok
    ie := false
    defLevel := Config.defLevelReset
    ipol := Config.ipolReset
    cmd := 0
    alen := 0
    mlen := 0
    caplen := 0
    replen := 0
    hoff := 0
    netid := 0
    hintLo := 0
    hintHi := 0
    hintv := false
    label := 0
    tag := 0
    hdrCtrl := 0
    hdrInfo := 0
    hdrFc := 0
    hdrExtLo := 0
    hdrExtHi := 0
    hdrPos := 0
    result := 0
    key := .replicate 16 0
    nonce := .replicate 13 0
    blk := .replicate 16 0
    res := .replicate 16 0
    mem := []
    globalKeys := []
    flows := .replicate Config.nFlow none
    inReset := false
    inputs := []
    resp := none
    draws := 0
    epoch := 0 }

end Sys2Proof.Machine
end

