-- ==== Sys2Proof/Machine/Flags.lean ====
section
/-! DEFINITION. Status and result fields: how the fields of STATUS, CTRL, KCOUNT, PARAM0, PARAM1 and RESULT stand in
their words, the numbers of the error codes, and the interrupt line (10_state.md rules R102, R103, R120 to R122, R142;
60_exceptions.md rules R1000 and R1010). -/

namespace Sys2Proof.Machine

/-- The number of an error code (60_exceptions.md rule R1000). -/
def ErrCode.code : ErrCode → Byte
  | .ok => 0
  | .headerTooShort => 1
  | .unknownSource => 2
  | .frameTooLarge => 3
  | .truncatedCiphertext => 4
  | .authFailure => 5
  | .illegalCommand => 6
  | .ringFull => 7
  | .notFound => 8

/-- STATUS.BUSY: 1 from the accepted CMD write until the command completes (rules R103 and R140). -/
def State.busy (s : State) : Bool :=
  match s.seq with
  | .idle => false
  | .busy _ => true

/-- STATUS.ERR: equals (ERRCODE != 0) (rule R103). -/
def State.err (s : State) : Bool := s.errCode.code != 0

/-- The interrupt output: CTRL.IE AND STATUS.DONE (rules R142 and R1010). -/
def State.irq (s : State) : Bool := s.ie && s.done

/-- The value of STATUS (rule R103), from bit 31 down. -/
def State.statusWord (s : State) : Word :=
  (0#16 ++ s.errCode.code ++ 0#4 ++ BitVec.ofBool s.werr ++ BitVec.ofBool s.err ++ BitVec.ofBool s.done
    ++ BitVec.ofBool s.busy : BitVec 32)

/-- The value of CTRL (rule R102), from bit 31 down. -/
def State.ctrlWord (s : State) : Word :=
  (0#27 ++ BitVec.ofBool s.ipol ++ s.defLevel ++ BitVec.ofBool s.ie : BitVec 32)

/-- The number of allocated flow slots (rule R121). -/
def FlowTable.allocated (t : FlowTable) : Nat := t.toList.countP Option.isSome

/-- The value of KCOUNT (rule R121): GCOUNT in bits 7:0, the number of allocated flow slots in bits 15:8. -/
def State.kcountWord (s : State) : Word :=
  (0#16 ++ BitVec.ofNat 8 (FlowTable.allocated s.flows) ++ BitVec.ofNat 8 s.globalKeys.length : BitVec 32)

/-- The value of PARAM0 (rule R120). -/
def param0Word : Word := (0#16 ++ BitVec.ofNat 16 Config.bufLen : BitVec 32)

/-- The value of PARAM1 (rule R120). -/
def param1Word : Word :=
  (0#8 ++ BitVec.ofNat 8 Config.nFlowKeys ++ BitVec.ofNat 8 Config.nFlow ++ BitVec.ofNat 8 Config.nGlobal : BitVec 32)

/-- RESULT.KIND (rule R122); KIND = 0 is the reset value only. -/
inductive ResultKind where
  | integrityOnly
  | decrypted
  | failed
deriving DecidableEq, Repr

/-- The number of a result kind (rule R122). -/
def ResultKind.code : ResultKind → BitVec 2
  | .integrityOnly => 1
  | .decrypted => 2
  | .failed => 3

/-- RESULT.KSRC (rule R122): where the key that succeeded came from. -/
inductive KeySource where
  | noKey
  | flowCache
  | flowList
  | globalList
deriving DecidableEq, Repr

/-- The number of a key source (rule R122). -/
def KeySource.code : KeySource → BitVec 2
  | .noKey => 0
  | .flowCache => 1
  | .flowList => 2
  | .globalList => 3

/-- The value of RESULT (rule R122): TRIALS, KIDX, 4 zero bits, KSRC, KIND, from bit 31 down. -/
def resultWord (kind : ResultKind) (source : KeySource) (index trials : Nat) : Word :=
  (BitVec.ofNat 16 trials ++ BitVec.ofNat 8 index ++ 0#4 ++ source.code ++ kind.code : BitVec 32)

end Sys2Proof.Machine
end

