-- ==== Sys2Proof/Machine/Ops.lean ====
section
/-! DEFINITION. The named operations over the state: the bytes of BUF and OUT, the address map and the host's view of
registers and windows (20_memory.md), the result commits, and the two ways a command ends, `complete` and `raise`
(60_exceptions.md rule R1001). -/

namespace Sys2Proof.Machine

/-! ### Bytes and integers (00_scope.md rule R11) -/

/-- `LE_n(v)`: the n-byte little-endian encoding of v (rule R11). -/
def leBytes : Nat → Nat → List Byte
  | 0, _ => []
  | n + 1, v => BitVec.ofNat 8 v :: leBytes n (v / 256)

/-- `BE_n(v)`: the n-byte big-endian encoding of v (rule R11). -/
def beBytes (n v : Nat) : List Byte := (leBytes n v).reverse

/-- `fromLE(b)`: the inverse of `LE_n` (rule R11). -/
def fromLE : List Byte → Nat
  | [] => 0
  | b :: bs => b.toNat + 256 * fromLE bs

/-! ### The memory of BUF and OUT -/

/-- The byte listed at an address; `none` where none is listed, that is where nothing has been written since reset. -/
def Memory.lookup : Memory → Nat → Option Byte
  | [], _ => none
  | (b, v) :: m, a => if a = b then some v else Memory.lookup m a

/-- The memory with one byte written, the addresses kept strictly rising. -/
def Memory.insert : Memory → Nat → Byte → Memory
  | [], a, v => [(a, v)]
  | (b, w) :: m, a, v =>
    if a < b then (a, v) :: (b, w) :: m
    else if a = b then (a, v) :: m
    else (b, w) :: Memory.insert m a v

/-- The memory with a byte string written from an address on. -/
def Memory.insertAll : Memory → Nat → List Byte → Memory
  | m, _, [] => m
  | m, a, v :: vs => Memory.insertAll (Memory.insert m a v) (a + 1) vs

/-- Block offset of BUF[0] (20_memory.md rule R202). -/
abbrev bufBase : Nat := 0x400

/-- Block offset of OUT[0] (20_memory.md rule R202). -/
abbrev outBase : Nat := 0x800

/-- The offsets whose bytes are held in `State.mem`: BUF and OUT (20_memory.md rule R202). -/
def inMemory (a : Nat) : Bool :=
  (decide (bufBase ≤ a) && decide (a < bufBase + Config.bufLen))
    || (decide (outBase ≤ a) && decide (a < outBase + Config.bufLen))

/-- Every address of the memory is greater than `a`, and they rise strictly. -/
def Memory.risingFrom : Nat → Memory → Bool
  | _, [] => true
  | a, (b, _) :: m => decide (a < b) && Memory.risingFrom b m

/-- The canonical form: addresses strictly rising. What an unlisted address reads as, in the memory itself, is no
value (`Memory.lookup` gives none), so no entry can equal it. -/
def Memory.rising : Memory → Bool
  | [] => true
  | (b, _) :: m => Memory.risingFrom b m

/-- The canonical form, and only addresses of BUF and OUT are listed. -/
def Memory.wf (m : Memory) : Bool := Memory.rising m && m.all fun c => inMemory c.1

/-- The byte of BUF or OUT at a block offset: the one written last, and before any write the reset draw
(70_reset_and_hazards.md rule R1101). -/
def State.memByte (s : State) (a : Nat) : Byte :=
  (Memory.lookup s.mem a).getD (Config.resetByte s.epoch a)

/-- `BUF[i]`. -/
def State.bufByte (s : State) (i : Nat) : Byte := s.memByte (bufBase + i)

/-- `OUT[i]`. -/
def State.outByte (s : State) (i : Nat) : Byte := s.memByte (outBase + i)

/-- `BUF[i:i+n)` (00_scope.md rule R10). -/
def State.bufSlice (s : State) (i n : Nat) : List Byte :=
  (List.range n).map fun k => s.bufByte (i + k)

/-! ### Committing results (10_state.md rule R143) -/

/-- `OUT[0:n) <- bytes`; the other bytes of OUT keep their contents (rule R143). -/
def State.setOut (s : State) (bytes : List Byte) : State :=
  { s with mem := Memory.insertAll s.mem outBase bytes }

/-- `RES[0:16) <- b`. -/
def State.setRes (s : State) (b : Block) : State := { s with res := b }

/-- `NONCE[0:13) <- n`. -/
def State.setNonce (s : State) (n : Nonce) : State := { s with nonce := n }

/-- `RESULT <- w`. -/
def State.setResult (s : State) (w : Word) : State := { s with result := w }

/-- The global key list replaced. -/
def State.setGlobalKeys (s : State) (g : List KeyRecord) : State := { s with globalKeys := g }

/-- The flow table replaced. -/
def State.setFlows (s : State) (t : FlowTable) : State := { s with flows := t }

/-! ### The end of a command -/

/-- The completion event with an outcome code, as one transition (60_exceptions.md rule R1001, 70_reset_and_hazards.md
rule R1110): ERRCODE <- code, BUSY <- 0, DONE <- 1, phase <- IDLE, and the pending word is dropped. There is no trap:
nothing is saved and control goes nowhere (rule R1025). -/
def State.finish (s : State) (e : ErrCode) : State :=
  { s with seq := .idle, done := true, errCode := e }

/-- `complete()`: the command ends with code OK (00_scope.md rule R12). -/
def State.complete (s : State) : State := s.finish .ok

/-- `raise Err(code)`: the command ends with an error code; what it committed before stays (rule R1001). A return from
an error is the host's next CMD write (rule R1025), `State.acceptCommand`. -/
def State.raise (s : State) (e : ErrCode) : State := s.finish e

/-- An illegal command word completes with IllegalCommand and changes no other state (30_encoding.md rule R311). -/
def State.rejectWord (s : State) : State := s.raise .illegalCommand

/-- An accepted write to CMD (70_reset_and_hazards.md rule R1110, Start). WERR is not changed. -/
def State.acceptCommand (s : State) (w : Word) : State :=
  { s with cmd := w, seq := .busy w, done := false, errCode := .ok }

/-! ### The address map (20_memory.md rule R202) -/

/-- What a block offset names; an index is the byte's index in its window. -/
inductive Region where
  | register
  | key (i : Nat)
  | nonce (i : Nat)
  | blk (i : Nat)
  | res (i : Nat)
  | buf (i : Nat)
  | out (i : Nat)
  | reserved
deriving DecidableEq, Repr

/-- The region of a block offset (20_memory.md rule R202, 10_state.md rule R123). -/
def regionOf (a : Nat) : Region :=
  if a < 0x100 then .register
  else if a < 0x110 then .key (a - 0x100)
  else if a < 0x11D then .nonce (a - 0x110)
  else if a < 0x120 then .reserved
  else if a < 0x130 then .blk (a - 0x120)
  else if a < 0x140 then .res (a - 0x130)
  else if a < bufBase then .reserved
  else if a < bufBase + Config.bufLen then .buf (a - bufBase)
  else if a < outBase then .reserved
  else if a < outBase + Config.bufLen then .out (a - outBase)
  else .reserved

/-- The byte stored at a window offset; a reserved offset reads as zero (20_memory.md rule R203). -/
def State.windowByte (s : State) (a : Nat) : Byte :=
  match regionOf a with
  | .register => 0
  | .key i => s.key.get i
  | .nonce i => s.nonce.get i
  | .blk i => s.blk.get i
  | .res i => s.res.get i
  | .buf i => s.bufByte i
  | .out i => s.outByte i
  | .reserved => 0

/-- The value of the register at an offset (10_state.md rule R100); an offset not listed reads as zero. -/
def State.registerWord (s : State) (a : Nat) : Word :=
  match a with
  | 0x000 => Config.idWord
  | 0x004 => s.ctrlWord
  | 0x008 => s.statusWord
  | 0x00C => s.cmd
  | 0x010 => s.alen.setWidth 32
  | 0x014 => s.mlen.setWidth 32
  | 0x018 => s.caplen.setWidth 32
  | 0x01C => s.replen.setWidth 32
  | 0x020 => s.hoff.setWidth 32
  | 0x024 => s.netid.setWidth 32
  | 0x028 => s.hintLo
  | 0x02C => s.hintHi
  | 0x030 => (BitVec.ofBool s.hintv).setWidth 32
  | 0x034 => s.label.setWidth 32
  | 0x038 => s.tag
  | 0x040 => s.hdrCtrl
  | 0x044 => s.hdrInfo
  | 0x048 => s.hdrFc
  | 0x04C => s.hdrExtLo
  | 0x050 => s.hdrExtHi
  | 0x054 => s.hdrPos
  | 0x058 => s.result
  | 0x05C => param0Word
  | 0x060 => param1Word
  | 0x064 => s.kcountWord
  | _ => 0

/-- The registers a command may write: their reads while BUSY are a draw (70_reset_and_hazards.md rule R1112). -/
def isResultRegister (a : Nat) : Bool :=
  match a with
  | 0x040 | 0x044 | 0x048 | 0x04C | 0x050 | 0x054 | 0x058 | 0x064 => true
  | _ => false

/-- The window bytes a command may write: RES, OUT and NONCE (70_reset_and_hazards.md rule R1112). -/
def isResultByte (a : Nat) : Bool :=
  match regionOf a with
  | .nonce _ => true
  | .res _ => true
  | .out _ => true
  | .register => false
  | .key _ => false
  | .blk _ => false
  | .buf _ => false
  | .reserved => false

/-- A host write of a register while BUSY = 0 (10_state.md rule R100): reserved fields and offsets and read-only
registers ignore it. STATUS is written by `State.clearStatus`, before the busy check. -/
def State.writeRegister (s : State) (a : Nat) (v : Word) : State :=
  match a with
  | 0x004 =>
    { s with
      ie := v.getLsbD 0
      defLevel := v.extractLsb' 1 3
      ipol := v.getLsbD 4 }
  | 0x00C => s.acceptCommand v
  | 0x010 => { s with alen := v.setWidth 16 }
  | 0x014 => { s with mlen := v.setWidth 16 }
  | 0x018 => { s with caplen := v.setWidth 16 }
  | 0x01C => { s with replen := v.setWidth 16 }
  | 0x020 => { s with hoff := v.setWidth 16 }
  | 0x024 => { s with netid := v.setWidth 16 }
  | 0x028 => { s with hintLo := v }
  | 0x02C => { s with hintHi := v }
  | 0x030 => { s with hintv := v.getLsbD 0 }
  | 0x034 => { s with label := v.setWidth 16 }
  | 0x038 => { s with tag := v }
  | _ => s

/-- A host write of STATUS: a 1 in bit 1 clears DONE, a 1 in bit 3 clears WERR (10_state.md rule R103). -/
def State.clearStatus (s : State) (v : Word) : State :=
  { s with done := s.done && !v.getLsbD 1, werr := s.werr && !v.getLsbD 3 }

/-- A host write of one window byte while BUSY = 0; RES, OUT and reserved bytes ignore it (10_state.md rule R123). -/
def State.writeWindowByte (s : State) (a : Nat) (v : Byte) : State :=
  match regionOf a with
  | .key i => { s with key := s.key.set i v }
  | .nonce i => { s with nonce := s.nonce.set i v }
  | .blk i => { s with blk := s.blk.set i v }
  | .buf i => { s with mem := Memory.insert s.mem (bufBase + i) v }
  | .register => s
  | .res _ => s
  | .out _ => s
  | .reserved => s

/-- A host write of consecutive window bytes while BUSY = 0, the lowest offset first (20_memory.md rule R210). -/
def State.writeWindow (s : State) (a : Nat) : List Byte → State
  | [] => s
  | v :: vs => (s.writeWindowByte a v).writeWindow (a + 1) vs

end Sys2Proof.Machine
end

