-- ==== Sys2Proof/Machine/Operands.lean ====
section
/-! DEFINITION. The operand forms of the commands: MIC lengths, lengths and offsets from the operand registers, the hint,
and substrings of BUF (30_encoding.md rules R301 and R302; 10_state.md rules R105 to R112). -/

namespace Sys2Proof.Machine

/-- The number of bytes of a MIC length: MICTAB = [0, 4, 8, 16] (30_encoding.md rule R302). -/
def micBytes : MicLen → Nat
  | .m0 => 0
  | .m4 => 4
  | .m8 => 8
  | .m16 => 16

/-- The key kind of a code (30_encoding.md rule R322). -/
def keyIdOfCode (k : BitVec 2) : KeyId :=
  match k.toNat with
  | 0 => .link
  | 1 => .network
  | 2 => .transport
  | _ => .load

/-- The code of a key kind (30_encoding.md rule R322). -/
def KeyId.code : KeyId → BitVec 2
  | .link => 0
  | .network => 1
  | .transport => 2
  | .load => 3

/-- `ceil(x/16)` (00_scope.md rule R10). -/
def blocksFor (x : Nat) : Nat := (x + 15) / 16

/-- ALEN[15:0], read as unsigned (30_encoding.md rule R301). -/
def State.alenN (s : State) : Nat := s.alen.toNat

/-- MLEN[15:0]. -/
def State.mlenN (s : State) : Nat := s.mlen.toNat

/-- CAPLEN[15:0]. -/
def State.caplenN (s : State) : Nat := s.caplen.toNat

/-- REPLEN[15:0]. -/
def State.replenN (s : State) : Nat := s.replen.toNat

/-- HOFF[15:0]. -/
def State.hoffN (s : State) : Nat := s.hoff.toNat

/-- HINT = HINT_HI ‖ HINT_LO (10_state.md rule R111). -/
def State.hint (s : State) : BitVec 64 := s.hintHi ++ s.hintLo

/-- The bound of the associated data of the CCM* transform, as the spec keeps the source's check
(42_ccm_star.md rule R609): more than 65536 blocks. -/
def aadTooLong (la : Nat) : Bool := decide (blocksFor la > 65536)

/-- `x ⊕ y` on byte strings (00_scope.md rule R10: equal lengths). -/
def xorBytes (x y : List Byte) : List Byte := List.zipWith (· ^^^ ·) x y

/-- `x ⊕ y` on strings of the same fixed length. -/
def Bytes.xor {n : Nat} (x y : Bytes n) : Bytes n :=
  ⟨xorBytes x.toList y.toList, by simp [xorBytes, x.length_eq, y.length_eq]⟩

/-- The successive 16-byte blocks of a byte string whose length is a multiple of 16. -/
def blocksOf (l : List Byte) : List Block :=
  (List.range (l.length / 16)).map fun i => FixedList.ofList 16 ((l.drop (16 * i)).take 16)

end Sys2Proof.Machine
end

