-- ==== Sys2Proof/Machine/Bus.lean ====
section
/-! DEFINITION. The bus target port and the reset input: which accesses get a bus error, what a read returns, what a
write does while idle and while BUSY (20_memory.md rules R200 to R215; 60_exceptions.md rules R1003, R1021 and R1030;
70_reset_and_hazards.md rules R1100, R1112 and R1113). -/

namespace Sys2Proof.Machine

/-- The number of bytes an access moves (20_memory.md rule R212). -/
def widthBytes : Width → Nat
  | .byte => 1
  | .half => 2
  | .word => 4

/-- May the port serve an access of this width at this offset (20_memory.md rule R212)? -/
def busAllows (width : Width) (a : Nat) : Bool :=
  if a < 0x100 then decide (width = .word) && a % 4 == 0 else a % widthBytes width == 0

/-- The offset in the window that a platform address reaches, if it lies in the window (20_memory.md rule R200). -/
def windowOffset (address : Nat) : Option (BitVec 12) :=
  if Config.zsecBase ≤ address ∧ address < Config.zsecBase + 0x1000 then
    some (BitVec.ofNat 12 (address - Config.zsecBase))
  else none

/-- The window byte a host read sees at lane `k` of an access: while BUSY a byte that a command may write is a draw
(70_reset_and_hazards.md rule R1112). -/
def State.hostByte (s : State) (a k : Nat) : Byte :=
  if s.busy && isResultByte (a + k) then (Config.busyDraw s.draws).extractLsb' (8 * k) 8
  else s.windowByte (a + k)

/-- The register value a host read sees: while BUSY a register that a command may write is a draw (rule R1112). -/
def State.hostRegister (s : State) (a : Nat) : Word :=
  if s.busy && isResultRegister a then Config.busyDraw s.draws else s.registerWord a

/-- The data of an allowed read: byte `a + k` in bits 8k+7:8k, the bits above the access 0 (20_memory.md rule R210). -/
def State.readData (s : State) (width : Width) (a : Nat) : Word :=
  if a < 0x100 then s.hostRegister a
  else BitVec.ofNat 32 (fromLE ((List.range (widthBytes width)).map fun k => s.hostByte a k))

/-- The response of the bus to the access just served. -/
def State.respond (s : State) (error : Bool) (data : Word) : State :=
  { s with resp := some { error := error, data := data } }

/-- The bus error response: its read data is 0 (20_memory.md rule R213, 60_exceptions.md rule R1030). -/
def State.busError (s : State) : State := s.respond true 0

/-- A read served while BUSY uses up one draw (the model's own counter). -/
def State.countDraw (s : State) : State :=
  if s.busy then { s with draws := s.draws + 1 } else s

/-- A host read: it changes no state of the block (20_memory.md rule R215). -/
def State.serveRead (s : State) (width : Width) (a : Nat) : State :=
  if busAllows width a then (s.countDraw).respond false (s.readData width a) else s.busError

/-- The effect of an allowed write. STATUS is written at any time; while BUSY every other write is dropped and sets WERR
(10_state.md rule R103, 70_reset_and_hazards.md rule R1113). -/
def State.applyWrite (s : State) (width : Width) (a : Nat) (data : Word) : State :=
  if a = 0x008 then s.clearStatus data
  else if s.busy then { s with werr := true }
  else if a < 0x100 then s.writeRegister a data
  else s.writeWindow a (leBytes (widthBytes width) data.toNat)

/-- A host write; a bus error is decided before the busy check (60_exceptions.md rule R1021). -/
def State.serveWrite (s : State) (width : Width) (a : Nat) (data : Word) : State :=
  if busAllows width a then (s.applyWrite width a data).respond false 0 else s.busError

/-- Every piece of state at its reset value, the reset input at a level (70_reset_and_hazards.md rules R1100 and R1101).
A running command is abandoned with no commit. The events still to come are the outside world's; the bytes of BUF and OUT
take new draws. -/
def State.resetTo (s : State) (level : Bool) : State :=
  { State.reset with
    inReset := level
    inputs := s.inputs
    draws := s.draws
    epoch := s.epoch + 1 }

end Sys2Proof.Machine
end

