-- ==== Sys2Proof/Machine/Basic.lean ====
section
/-! DEFINITION. The command NOP (45_frame_decrypt.md rule R920). -/

namespace Sys2Proof.Machine

/-- NOP (rule R920): completes with OK; nothing else changes. -/
def execNop (s : State) : Host.Outcome State Fault Refusal := .next s.complete

end Sys2Proof.Machine
end

