-- ==== Sys2Proof/Machine/Aes.lean ====
section
/-! DEFINITION. AES-128, encrypt only (40_aes128.md rules R400 to R411), and the command AES_ENC (rule R420). The state
is held as its four columns, in the order of the bytes (rule R401). -/

namespace Sys2Proof.Machine

/-- One column of the cipher state, or one 4-byte word of the key schedule: rows 0 to 3 (rules R401 and R408). -/
structure Column where
  r0 : Byte
  r1 : Byte
  r2 : Byte
  r3 : Byte
deriving DecidableEq, Repr

/-- The 4×4 array of bytes: columns 0 to 3 (rule R401). A round key has the same form (rule R407). -/
structure AesState where
  c0 : Column
  c1 : Column
  c2 : Column
  c3 : Column
deriving DecidableEq, Repr

/-- The 16 entries of a row of the S-box table (rule R403), the row being the high nibble; column 0 is the most
significant byte. -/
def sboxRow : Nat → Nat
  | 0x0 => 0x637C777BF26B6FC53001672BFED7AB76
  | 0x1 => 0xCA82C97DFA5947F0ADD4A2AF9CA472C0
  | 0x2 => 0xB7FD9326363FF7CC34A5E5F171D83115
  | 0x3 => 0x04C723C31896059A071280E2EB27B275
  | 0x4 => 0x09832C1A1B6E5AA0523BD6B329E32F84
  | 0x5 => 0x53D100ED20FCB15B6ACBBE394A4C58CF
  | 0x6 => 0xD0EFAAFB434D338545F9027F503C9FA8
  | 0x7 => 0x51A3408F929D38F5BCB6DA2110FFF3D2
  | 0x8 => 0xCD0C13EC5F974417C4A77E3D645D1973
  | 0x9 => 0x60814FDC222A908846EEB814DE5E0BDB
  | 0xA => 0xE0323A0A4906245CC2D3AC629195E479
  | 0xB => 0xE7C8376D8DD54EA96C56F4EA657AAE08
  | 0xC => 0xBA78252E1CA6B4C6E8DD741F4BBD8B8A
  | 0xD => 0x703EB5664803F60E613557B986C11D9E
  | 0xE => 0xE1F8981169D98E949B1E87E9CE5528DF
  | _ => 0x8CA1890DBFE6426841992D0FB054BB16

/-- `Sbox(a)` by its table (rule R403): the row is the high nibble of a, the column the low nibble. -/
def sbox (a : Byte) : Byte :=
  BitVec.ofNat 8 (sboxRow (a.toNat / 16) >>> (8 * (15 - a.toNat % 16)))

/-- `xtime` (rule R402): multiplication by 0x02. -/
def xtime (b : Byte) : Byte := (b <<< 1) ^^^ (if b.getLsbD 7 then 0x1B#8 else 0#8)

/-- Multiplication by 0x03 (rule R402). -/
def mul3 (b : Byte) : Byte := xtime b ^^^ b

/-- A function applied to each byte of a column. -/
def Column.map (f : Byte → Byte) (c : Column) : Column := ⟨f c.r0, f c.r1, f c.r2, f c.r3⟩

/-- `⊕` of two columns. -/
def Column.xor (a b : Column) : Column :=
  ⟨a.r0 ^^^ b.r0, a.r1 ^^^ b.r1, a.r2 ^^^ b.r2, a.r3 ^^^ b.r3⟩

/-- SubBytes (rule R404). -/
def subBytes (s : AesState) : AesState :=
  ⟨s.c0.map sbox, s.c1.map sbox, s.c2.map sbox, s.c3.map sbox⟩

/-- ShiftRows (rule R405): row r of column c comes from column (c + r) mod 4. -/
def shiftRows (s : AesState) : AesState :=
  ⟨⟨s.c0.r0, s.c1.r1, s.c2.r2, s.c3.r3⟩, ⟨s.c1.r0, s.c2.r1, s.c3.r2, s.c0.r3⟩,
    ⟨s.c2.r0, s.c3.r1, s.c0.r2, s.c1.r3⟩, ⟨s.c3.r0, s.c0.r1, s.c1.r2, s.c2.r3⟩⟩

/-- MixColumns on one column (rule R406). -/
def mixColumn (a : Column) : Column :=
  ⟨xtime a.r0 ^^^ mul3 a.r1 ^^^ a.r2 ^^^ a.r3,
    a.r0 ^^^ xtime a.r1 ^^^ mul3 a.r2 ^^^ a.r3,
    a.r0 ^^^ a.r1 ^^^ xtime a.r2 ^^^ mul3 a.r3,
    mul3 a.r0 ^^^ a.r1 ^^^ a.r2 ^^^ xtime a.r3⟩

/-- MixColumns (rule R406). -/
def mixColumns (s : AesState) : AesState :=
  ⟨mixColumn s.c0, mixColumn s.c1, mixColumn s.c2, mixColumn s.c3⟩

/-- AddRoundKey (rule R407), the round key given as its four words. -/
def addRoundKey (s w : AesState) : AesState :=
  ⟨s.c0.xor w.c0, s.c1.xor w.c1, s.c2.xor w.c2, s.c3.xor w.c3⟩

/-- RotWord, SubWord and the round constant, applied to the word before a round key (rule R408, i mod 4 = 0). -/
def scheduleCore (rcon : Byte) (t : Column) : Column :=
  ⟨sbox t.r1 ^^^ rcon, sbox t.r2, sbox t.r3, sbox t.r0⟩

/-- Words w[4j..4j+3] from words w[4j-4..4j-1] and Rcon[j] (rule R408). -/
def nextRoundKey (w : AesState) (rcon : Byte) : AesState :=
  let w0 := w.c0.xor (scheduleCore rcon w.c3)
  let w1 := w.c1.xor w0
  let w2 := w.c2.xor w1
  let w3 := w.c3.xor w2
  ⟨w0, w1, w2, w3⟩

/-- Rcon[1..10] (rule R408). -/
def rcons : List Byte := [0x01, 0x02, 0x04, 0x08, 0x10, 0x20, 0x40, 0x80, 0x1B, 0x36]

/-- The rounds after AddRoundKey(0), one for each round constant left; the last has no MixColumns (rule R409). The round
keys are recomputed at every call (rule R421). -/
def aesRounds : List Byte → AesState → AesState → AesState
  | [], _, s => s
  | [rcon], w, s => addRoundKey (shiftRows (subBytes s)) (nextRoundKey w rcon)
  | rcon :: rest, w, s =>
    aesRounds rest (nextRoundKey w rcon)
      (addRoundKey (mixColumns (shiftRows (subBytes s))) (nextRoundKey w rcon))

/-- `StateOf(in)`: input byte r + 4c is s[r][c] (rule R401). -/
def AesState.ofBlock (b : Block) : AesState :=
  ⟨⟨b.get 0, b.get 1, b.get 2, b.get 3⟩, ⟨b.get 4, b.get 5, b.get 6, b.get 7⟩,
    ⟨b.get 8, b.get 9, b.get 10, b.get 11⟩, ⟨b.get 12, b.get 13, b.get 14, b.get 15⟩⟩

/-- `BytesOf(s)`: output byte r + 4c is s[r][c] (rule R401). -/
def AesState.toBlock (s : AesState) : Block :=
  ⟨[s.c0.r0, s.c0.r1, s.c0.r2, s.c0.r3, s.c1.r0, s.c1.r1, s.c1.r2, s.c1.r3,
    s.c2.r0, s.c2.r1, s.c2.r2, s.c2.r3, s.c3.r0, s.c3.r1, s.c3.r2, s.c3.r3], rfl⟩

/-- `AES(k, x)` (rules R409 and R410). -/
def aes (k : Key) (x : Block) : Block :=
  (aesRounds rcons (.ofBlock k) (addRoundKey (.ofBlock x) (.ofBlock k))).toBlock

/-- AES_ENC (rule R420): RES <- AES(KEY, BLK). -/
def execAesEnc (s : State) : Host.Outcome State Fault Refusal :=
  .next (s.setRes (aes s.key s.blk)).complete

end Sys2Proof.Machine
end

