-- ==== Sys2Proof/Machine/Ccm.lean ====
section
/-! DEFINITION. The CCM* transform (42_ccm_star.md rules R600 to R611) and the commands CCM_DEC and CCM_ENC (rules R620
and R630). -/

namespace Sys2Proof.Machine

/-- `flag ‖ N ‖ BE_2(v)`: the form of counter blocks and of B0 (rule R600). -/
def ccmBlock (flag : Byte) (nonce : Nonce) (v : Nat) : Block :=
  FixedList.ofList 16 ([flag] ++ nonce.toList ++ beBytes 2 v)

/-- `A_i` (rule R602); the flag byte of a counter block is 0x01 (rule R601). -/
def counterBlock (nonce : Nonce) (i : Nat) : Block := ccmBlock 0x01 nonce i

/-- `S_i = AES(K, A_i)` (rule R602). -/
def keystreamBlock (key : Key) (nonce : Nonce) (i : Nat) : Block := aes key (counterBlock nonce i)

/-- `KS(n) = (S_1 ‖ S_2 ‖ ...)[0:n)` (rule R603): S_0 belongs to the MIC for every M. -/
def keystream (key : Key) (nonce : Nonce) (n : Nat) : List Byte :=
  ((List.range (blocksFor n)).flatMap fun i => (keystreamBlock key nonce (i + 1)).toList).take n

/-- The field M' of B0's flag byte: (M − 2)/2, and 0 if M = 0 (rule R601). -/
def micCode : MicLen → Byte
  | .m0 => 0
  | .m4 => 1
  | .m8 => 3
  | .m16 => 7

/-- B0's flag byte (rule R601): L' = 1, M' in bits 5:3, Adata in bit 6. -/
def b0Flags (hasData : Bool) (mic : MicLen) : Byte :=
  0x01 ||| (if hasData then 0x40 else 0x00) ||| (micCode mic <<< 3)

/-- `B0 = flagsB0 ‖ N ‖ BE_2(l(m))` (rule R604). -/
def b0Block (nonce : Nonce) (la lm : Nat) (mic : MicLen) : Block :=
  ccmBlock (b0Flags (decide (la > 0)) mic) nonce lm

/-- `pad16(x)` (rule R605). -/
def pad16 (x : List Byte) : List Byte := x ++ List.replicate ((16 - x.length % 16) % 16) 0

/-- `AuthA` (rule R605): the length encoding and the associated data, padded; empty if l(a) = 0. -/
def authA (a : List Byte) : List Byte :=
  if a.length > 0 then pad16 (beBytes 2 a.length ++ a) else []

/-- The authentication blocks B_1..B_t of `AuthA ‖ AuthM` (rule R605). -/
def authBlocks (a m : List Byte) : List Block := blocksOf (authA a ++ pad16 m)

/-- One step of the CBC-MAC chain (rule R606). -/
def cbcStep (key : Key) (x b : Block) : Block := aes key (Bytes.xor x b)

/-- `cbcmac(K, N, a, m, M)` (rule R606). -/
def cbcMac (key : Key) (nonce : Nonce) (a m : List Byte) (mic : MicLen) : List Byte :=
  ((authBlocks a m).foldl (cbcStep key) (aes key (b0Block nonce a.length m.length mic))).toList.take (micBytes mic)

/-- The tag in the encrypted MIC field U (rule R607 step 1): a full block is decrypted with S_0. -/
def decryptTag (key : Key) (nonce : Nonce) (u : List Byte) (mic : MicLen) : List Byte :=
  (xorBytes (u ++ List.replicate (16 - micBytes mic) 0) (keystreamBlock key nonce 0).toList).take (micBytes mic)

/-- `ccm_star_decrypt(K, N, a, cu, M)` (rule R607): the plaintext, or `none` for AuthFailure. -/
def ccmDecrypt (key : Key) (nonce : Nonce) (a cu : List Byte) (mic : MicLen) : Option (List Byte) :=
  let lm := cu.length - micBytes mic
  let m := xorBytes (cu.take lm) (keystream key nonce lm)
  if mic = .m0 then some m
  else if cbcMac key nonce a m mic = decryptTag key nonce (cu.drop lm) mic then some m
  else none

/-- `ccm_star_encrypt(K, N, a, m, M)` (rule R608). -/
def ccmEncrypt (key : Key) (nonce : Nonce) (a m : List Byte) (mic : MicLen) : List Byte :=
  let c := xorBytes m (keystream key nonce m.length)
  if mic = .m0 then c
  else c ++ xorBytes (cbcMac key nonce a m mic) ((keystreamBlock key nonce 0).toList.take (micBytes mic))

/-- CCM_DEC (rule R620): OUT[0:lm) <- m, or FrameTooLarge, or AuthFailure. -/
def execCcmDec (mic : MicLen) (s : State) : Host.Outcome State Fault Refusal :=
  .next (if s.alenN + s.mlenN + micBytes mic > Config.bufLen ∨ aadTooLong s.alenN = true then s.raise .frameTooLarge
    else
      match ccmDecrypt s.key s.nonce (s.bufSlice 0 s.alenN) (s.bufSlice s.alenN (s.mlenN + micBytes mic)) mic with
      | none => s.raise .authFailure
      | some m => (s.setOut m).complete)

/-- CCM_ENC (rule R630): OUT[0:lm+M) <- c ‖ U, or FrameTooLarge. -/
def execCcmEnc (mic : MicLen) (s : State) : Host.Outcome State Fault Refusal :=
  .next (if s.alenN + s.mlenN > Config.bufLen ∨ s.mlenN + micBytes mic > Config.bufLen ∨ aadTooLong s.alenN = true then
      s.raise .frameTooLarge
    else
      (s.setOut (ccmEncrypt s.key s.nonce (s.bufSlice 0 s.alenN) (s.bufSlice s.alenN s.mlenN) mic)).complete)

end Sys2Proof.Machine
end

