-- ==== Sys2Proof/Machine/Header.lean ====
section
/-! DEFINITION. The security-header parser and the nonce builder (43_header_nonce.md rules R700 to R722; 30_encoding.md
rules R320 to R331), and the commands PARSE_HDR and BUILD_NONCE (rules R730 and R731). -/

namespace Sys2Proof.Machine

/-- What `parse` returns (rule R707): the fields that are not functions of the patched control byte. -/
structure Header where
  /-- The control byte as read. -/
  wire : Byte
  /-- The control byte after the level patch (rule R702). -/
  ctrl : Byte
  /-- The frame counter. -/
  fc : Word
  /-- The extended source, 0 when absent. -/
  ext : BitVec 64
  /-- The key sequence number, 0 when absent. -/
  ksn : Byte
  /-- The offset in BUF of the first payload byte. -/
  payoff : Nat
  /-- The payload length in bytes. -/
  paylen : Nat
deriving DecidableEq, Repr

/-- `ctrl = (wire AND 0xF8) OR DEFLEVEL` (rule R702). -/
def patchLevel (wire : Byte) (defLevel : BitVec 3) : Byte := (wire &&& 0xF8) ||| defLevel.setWidth 8

/-- LEVEL, bits 2:0 of a control byte (30_encoding.md rule R320). -/
def ctrlLevel (c : Byte) : BitVec 3 := c.extractLsb' 0 3

/-- The code of KEYID, bits 4:3 (rule R320). -/
def ctrlKeyCode (c : Byte) : BitVec 2 := c.extractLsb' 3 2

/-- EXTN, bit 5 (rule R320). -/
def ctrlExtn (c : Byte) : Bool := c.getLsbD 5

/-- VFC, bit 6 (rule R320). -/
def ctrlVfc (c : Byte) : Bool := c.getLsbD 6

/-- KSNP: a key sequence number is present exactly when KEYID = 1 (rules R322 and R330). -/
def ctrlKsnp (c : Byte) : Bool := ctrlKeyCode c == 1

/-- Does the level encrypt (30_encoding.md rule R321: bit 2)? -/
def levelEncrypts (level : BitVec 3) : Bool := level.getLsbD 2

/-- The MIC length of a level: MICTAB[LEVEL[1:0]], independent of the encrypt bit (rules R321 and R705). -/
def levelMic (level : BitVec 3) : MicLen := micLenOfBits (level.extractLsb' 0 2)

/-- The header length 5 + 8·EXTN + KSNP (rule R701). -/
def headerLength (c : Byte) : Nat := 5 + 8 * (ctrlExtn c).toNat + (ctrlKsnp c).toNat

/-- LEVEL of a parsed header. -/
def Header.level (hd : Header) : BitVec 3 := ctrlLevel hd.ctrl

/-- KEYID of a parsed header. -/
def Header.keyId (hd : Header) : KeyId := keyIdOfCode (ctrlKeyCode hd.ctrl)

/-- EXTN of a parsed header. -/
def Header.extn (hd : Header) : Bool := ctrlExtn hd.ctrl

/-- ENC of a parsed header (rule R705). -/
def Header.enc (hd : Header) : Bool := levelEncrypts hd.level

/-- M of a parsed header (rule R705). -/
def Header.mic (hd : Header) : MicLen := levelMic hd.level

/-- `parse()` (rule R707): the checks of rule R703 in their order, then the fields of rules R704 to R706. It writes
nothing. -/
def parse (s : State) : Except ErrCode Header :=
  let limit := min s.caplenN s.replenN
  let h := s.hoffN
  let wire := s.bufByte h
  let ctrl := patchLevel wire s.defLevel
  let payoff := h + headerLength ctrl
  let m := micBytes (levelMic (ctrlLevel ctrl))
  if s.caplenN > Config.bufLen then .error .frameTooLarge
  else if h + 1 > limit then .error .headerTooShort
  else if payoff > limit then .error .headerTooShort
  else if s.replenN < payoff + m then .error .headerTooShort
  else
    .ok
      { wire := wire
        ctrl := ctrl
        fc := BitVec.ofNat 32 (fromLE (s.bufSlice (h + 1) 4))
        ext := if ctrlExtn ctrl then BitVec.ofNat 64 (fromLE (s.bufSlice (h + 5) 8)) else 0
        ksn := if ctrlKsnp ctrl then s.bufByte (h + 5 + 8 * (ctrlExtn ctrl).toNat) else 0
        payoff := payoff
        paylen := s.replenN - payoff - m }

/-- The value of HDR_CTRL (rule R710, 10_state.md rule R115). -/
def Header.ctrlWord (hd : Header) : Word := (0#16 ++ hd.wire ++ hd.ctrl : BitVec 32)

/-- The value of HDR_INFO (rule R710, 10_state.md rule R116): NEEDHINT, ENC, MICLEN, KSN, KSNP, VFC, EXTN, KEYID and
LEVEL, from bit 22 down. -/
def Header.infoWord (hd : Header) : Word :=
  (0#9 ++ BitVec.ofBool (!hd.extn) ++ BitVec.ofBool hd.enc ++ BitVec.ofNat 5 (micBytes hd.mic) ++ hd.ksn
    ++ BitVec.ofBool (ctrlKsnp hd.ctrl) ++ BitVec.ofBool (ctrlVfc hd.ctrl) ++ BitVec.ofBool hd.extn
    ++ ctrlKeyCode hd.ctrl ++ hd.level : BitVec 32)

/-- The value of HDR_POS (rule R710, 10_state.md rule R119). -/
def Header.posWord (hd : Header) : Word :=
  (BitVec.ofNat 16 hd.paylen ++ BitVec.ofNat 16 hd.payoff : BitVec 32)

/-- The header commit (rule R710). -/
def State.setHeader (s : State) (hd : Header) : State :=
  { s with
    hdrCtrl := hd.ctrlWord
    hdrInfo := hd.infoWord
    hdrFc := hd.fc
    hdrExtLo := hd.ext.extractLsb' 0 32
    hdrExtHi := hd.ext.extractLsb' 32 32
    hdrPos := hd.posWord }

/-- `nonce(src, fc, ctrl) = LE64(src) ‖ LE32(fc) ‖ ctrl` (rule R720). -/
def buildNonce (src : BitVec 64) (fc : Word) (ctrl : Byte) : Nonce :=
  FixedList.ofList 13 (leBytes 8 src.toNat ++ leBytes 4 fc.toNat ++ [ctrl])

/-- `resolve_source(EXTN, ext)` (rule R721): `none` is UnknownSource. -/
def State.resolveSource (s : State) (extn : Bool) (ext : BitVec 64) : Option (BitVec 64) :=
  if extn then some ext else if s.hintv then some s.hint else none

/-- PARSE_HDR (rule R730). -/
def execParseHdr (s : State) : Host.Outcome State Fault Refusal :=
  .next (match parse s with
    | .error e => s.raise e
    | .ok hd => (s.setHeader hd).complete)

/-- BUILD_NONCE (rule R731): it uses the HDR registers as they stand. -/
def execBuildNonce (s : State) : Host.Outcome State Fault Refusal :=
  .next (match s.resolveSource (s.hdrInfo.getLsbD 5) (s.hdrExtHi ++ s.hdrExtLo) with
    | none => s.raise .unknownSource
    | some src => (s.setNonce (buildNonce src s.hdrFc (s.hdrCtrl.extractLsb' 0 8))).complete)

end Sys2Proof.Machine
end

