-- ==== Sys2Proof/Machine/Mmo.lean ====
section
/-! DEFINITION. The Matyas-Meyer-Oseas hash and the keyed hash (41_mmo_hash.md rules R500 to R505), and the commands
MMO_HASH and KEYED_HASH (rules R510 and R520). -/

namespace Sys2Proof.Machine

/-- The least z with (n + 1 + z + 2) mod 16 = 0 (rule R501). -/
def mmoZeros (n : Nat) : Nat := (16 - (n + 3) % 16) % 16

/-- The padded input: input ‖ 0x80 ‖ 0^z ‖ BE_2(8n) (rules R501 and R502). -/
def mmoPad (input : List Byte) : List Byte :=
  input ++ [0x80] ++ List.replicate (mmoZeros input.length) 0 ++ beBytes 2 (8 * input.length)

/-- One step of the chain: the key is the previous hash state (rule R503). -/
def mmoStep (h : Block) (p : Block) : Block := Bytes.xor (aes h p) p

/-- `mmo_hash(input)` (rule R503). -/
def mmoHash (input : List Byte) : Block :=
  (blocksOf (mmoPad input)).foldl mmoStep (.replicate 16 0)

/-- `key ⊕ (b)^16` (rule R505). -/
def padKey (key : Key) (b : Byte) : List Byte := key.toList.map (· ^^^ b)

/-- `keyed_hash(key, b)` (rule R505). -/
def keyedHash (key : Key) (b : Byte) : Block :=
  mmoHash (padKey key 0x5C ++ (mmoHash (padKey key 0x36 ++ [b])).toList)

/-- MMO_HASH (rule R510): RES <- mmo_hash(BUF[0:ALEN)), or FrameTooLarge. -/
def execMmoHash (s : State) : Host.Outcome State Fault Refusal :=
  .next (if s.alenN > Config.bufLen ∨ s.alenN > Config.mmoFieldMax then s.raise .frameTooLarge
    else (s.setRes (mmoHash (s.bufSlice 0 s.alenN))).complete)

/-- KEYED_HASH (rule R520): RES <- keyed_hash(KEY, imm8). -/
def execKeyedHash (imm8 : Byte) (s : State) : Host.Outcome State Fault Refusal :=
  .next (s.setRes (keyedHash s.key imm8)).complete

end Sys2Proof.Machine
end

