-- ==== Sys2Proof/Machine/KeyRing.lean ====
section
/-! DEFINITION. The key ring: slots, candidates, trial keys and the cache (44_key_ring.md rules R800 to R824), and the
commands SESSION_RESET, REG_KEY, ADD_GKEY and LOOKUP_LABEL (rules R830 to R845). -/

namespace Sys2Proof.Machine

/-- `slot(n)`: the index of the valid slot with netid n (rule R810). -/
def FlowTable.slot (t : FlowTable) (n : Half) : Option Nat :=
  t.toList.findIdx? fun f => f.any fun x => x.netid == n

/-- The lowest-indexed slot with valid = 0 (rule R812). -/
def FlowTable.freeSlot (t : FlowTable) : Option Nat := t.toList.findIdx? Option.isNone

/-- A newly allocated slot (rule R812). -/
def newFlow (n : Half) : Flow := { netid := n, keys := [], cache := FlowCache.empty }

/-- `alloc(n)` (rule R812): the slot's index and the table after it; `none` if every slot is valid and none has netid n. -/
def FlowTable.alloc (t : FlowTable) (n : Half) : Option (Nat × FlowTable) :=
  match FlowTable.slot t n with
  | some i => some (i, t)
  | none =>
    match FlowTable.freeSlot t with
    | some i => some (i, t.set i (some (newFlow n)))
    | none => none

/-- The valid flow with netid n, if there is one (rule R810). -/
def FlowTable.flowOf (t : FlowTable) (n : Half) : Option Flow :=
  match FlowTable.slot t n with
  | some i => t.get i
  | none => none

/-- The slot at an index after a function of its contents; an index that holds no valid slot is left as it is. -/
def FlowTable.update (t : FlowTable) (i : Nat) (f : Flow → Flow) : FlowTable := t.set i ((t.get i).map f)

/-- `cache[k]` (10_state.md rule R132). -/
def FlowCache.entry (c : FlowCache) : KeyId → Option Key
  | .link => c.link
  | .network => c.network
  | .transport => c.transport
  | .load => c.load

/-- `cache[k] <- r`. -/
def FlowCache.store (c : FlowCache) (k : KeyId) (r : Key) : FlowCache :=
  match k with
  | .link => { c with link := some r }
  | .network => { c with network := some r }
  | .transport => { c with transport := some r }
  | .load => { c with load := some r }

/-- A candidate key of a frame: the stored raw key and where it stands (rule R814). -/
structure Candidate where
  raw : Key
  source : KeySource
  index : Nat
deriving DecidableEq, Repr

/-- Candidates (a): the cached key of this flow for the frame's key kind (rule R814). -/
def cacheCandidates (f : Flow) (k : KeyId) : List Candidate :=
  match f.cache.entry k with
  | some r => [{ raw := r, source := .flowCache, index := k.code.toNat }]
  | none => []

/-- Candidates (b): the flow's keys, most recently added first (rule R814). -/
def flowCandidates (f : Flow) : List Candidate :=
  (f.keys.zipIdx.map fun p => { raw := p.1.key, source := .flowList, index := p.2 }).reverse

/-- Candidates (c): the global list in insertion order (rule R814). -/
def globalCandidates (g : List KeyRecord) : List Candidate :=
  g.zipIdx.map fun p => { raw := p.1.key, source := .globalList, index := p.2 }

/-- `candidates(k, n)` (rule R814). -/
def State.candidates (s : State) (k : KeyId) (n : Half) : List Candidate :=
  match FlowTable.flowOf s.flows n with
  | some f => cacheCandidates f k ++ flowCandidates f ++ globalCandidates s.globalKeys
  | none => globalCandidates s.globalKeys

/-- The trial key of a stored raw key (rule R821). -/
def trialKey (r : Key) : KeyId → Key
  | .link => r
  | .network => r
  | .transport => keyedHash r 0x00
  | .load => keyedHash r 0x02

/-- The cache write of a successful trial (rule R822); with no slot to be had, nothing is written. -/
def FlowTable.cacheWrite (t : FlowTable) (n : Half) (k : KeyId) (r : Key) : FlowTable :=
  match FlowTable.alloc t n with
  | some (i, t') => FlowTable.update t' i fun f => { f with cache := f.cache.store k r }
  | none => t

/-- Does a list hold a record with this key (rule R800: keys are compared as 16-byte strings)? -/
def holdsKey (l : List KeyRecord) (k : Key) : Bool := l.any fun r => r.key == k

/-- The record that REG_KEY and ADD_GKEY store (rules R835 and R840). -/
def State.newRecord (s : State) (k : Key) : KeyRecord := { key := k, label := s.label, tag := s.tag }

/-- The flow table with a record appended to the key list of netid n, its slot allocated if needed (rule R835). -/
def FlowTable.append (t : FlowTable) (n : Half) (r : KeyRecord) : FlowTable :=
  match FlowTable.alloc t n with
  | some (i, t') => FlowTable.update t' i fun f => { f with keys := f.keys ++ [r] }
  | none => t

/-- SESSION_RESET (rule R830): the global list, the flow keys and the caches are emptied. -/
def execSessionReset (s : State) : Host.Outcome State Fault Refusal :=
  .next ((s.setGlobalKeys []).setFlows (.replicate Config.nFlow none)).complete

/-- REG_KEY (rule R835): append KEY to NETID's flow key list. -/
def execRegKey (s : State) : Host.Outcome State Fault Refusal :=
  .next (match FlowTable.flowOf s.flows s.netid with
    | some f =>
      if holdsKey f.keys s.key then s.complete
      else if f.keys.length = Config.nFlowKeys then s.raise .ringFull
      else (s.setFlows (FlowTable.append s.flows s.netid (s.newRecord s.key))).complete
    | none =>
      if FlowTable.freeSlot s.flows = none then s.raise .ringFull
      else (s.setFlows (FlowTable.append s.flows s.netid (s.newRecord s.key))).complete)

/-- The key ADD_GKEY adds: KEY, its bytes reversed if REV = 1 (rule R840). -/
def State.keyOperand (s : State) (rev : Bool) : Key :=
  if rev then ⟨s.key.toList.reverse, by simp [s.key.length_eq]⟩ else s.key

/-- ADD_GKEY (rule R840): append KEY, possibly reversed, to the global list. -/
def execAddGkey (rev : Bool) (s : State) : Host.Outcome State Fault Refusal :=
  .next (if holdsKey s.globalKeys (s.keyOperand rev) then s.complete
    else if s.globalKeys.length = Config.nGlobal then s.raise .ringFull
    else (s.setGlobalKeys (s.globalKeys ++ [s.newRecord (s.keyOperand rev)])).complete)

/-- Every record LOOKUP_LABEL searches, in its order (rule R845): the global list, then the valid flow slots in slot
order, each from index 0. -/
def State.labelledRecords (s : State) : List KeyRecord :=
  s.globalKeys ++ s.flows.toList.flatMap fun f => (f.map Flow.keys).getD []

/-- LOOKUP_LABEL (rule R845): RES <- the first key with label LABEL, or NotFound. -/
def execLookupLabel (s : State) : Host.Outcome State Fault Refusal :=
  .next (if s.label = 0 then s.raise .notFound
    else
      match s.labelledRecords.find? fun r => r.label == s.label with
      | some r => (s.setRes r.key).complete
      | none => s.raise .notFound)

end Sys2Proof.Machine
end

