-- ==== Sys2Proof/Machine/Frame.lean ====
section
/-! DEFINITION. The per-frame orchestrator: the command DECRYPT_FRAME (45_frame_decrypt.md rules R900 to R913) and its
trial loop (44_key_ring.md rule R820). -/

namespace Sys2Proof.Machine

/-- `fail(code)` (rule R900): RESULT is written (rule R911), then the error is raised. -/
def State.failFrame (s : State) (e : ErrCode) (trials : Nat) : State :=
  (s.setResult (resultWord .failed .noKey 0 trials)).raise e

/-- The payload bytes of a parsed frame (43_header_nonce.md rule R706). -/
def State.framePayload (s : State) (hd : Header) : List Byte := s.bufSlice hd.payoff hd.paylen

/-- The trailing MIC bytes of a parsed frame (rule R706). -/
def State.frameMic (s : State) (hd : Header) : List Byte :=
  s.bufSlice (hd.payoff + hd.paylen) (micBytes hd.mic)

/-- The associated data of a frame (rule R903): every byte before the payload, the control byte in its patched form. -/
def State.frameAad (s : State) (hd : Header) : List Byte :=
  s.bufSlice 0 s.hoffN ++ [hd.ctrl] ++ s.bufSlice (s.hoffN + 1) (hd.payoff - s.hoffN - 1)

/-- The associated data the transform gets: for a level that does not encrypt, the payload is part of it (rules R904 and
R905). -/
def State.transformAad (s : State) (hd : Header) : List Byte :=
  if hd.enc then s.frameAad hd else s.frameAad hd ++ s.framePayload hd

/-- The ciphertext and MIC the transform gets (rules R904 and R905). -/
def State.transformInput (s : State) (hd : Header) : List Byte :=
  if hd.enc then s.framePayload hd ++ s.frameMic hd else s.frameMic hd

/-- Is the frame returned as IntegrityOnly without a check (rules R902 and R906)? -/
def State.skipsAuth (s : State) (hd : Header) : Bool := hd.level == 0 || (!hd.enc && s.ipol)

/-- One trial (rule R820): the transform with the trial key of a candidate. -/
def State.tryKey (s : State) (hd : Header) (nonce : Nonce) (c : Candidate) : Option (List Byte) :=
  ccmDecrypt (trialKey c.raw hd.keyId) nonce (s.transformAad hd) (s.transformInput hd) hd.mic

/-- The trial loop (rule R820): the first candidate that succeeds with its plaintext, and the number of trials made. -/
def tryCandidates (attempt : Candidate → Option (List Byte)) : List Candidate → Nat → Option (Candidate × List Byte) × Nat
  | [], n => (none, n)
  | c :: cs, n =>
    match attempt c with
    | some m => (some (c, m), n + 1)
    | none => tryCandidates attempt cs (n + 1)

/-- The kind of a verified frame (rule R911). -/
def Header.verifiedKind (hd : Header) : ResultKind := if hd.enc then .decrypted else .integrityOnly

/-- The commit of a successful trial (rules R900, R910 and R822). -/
def State.commitFrame (s : State) (hd : Header) (c : Candidate) (m : List Byte) (trials : Nat) : State :=
  ((((s.setOut (if hd.enc then m else s.framePayload hd)).setRes c.raw).setResult
    (resultWord hd.verifiedKind c.source c.index trials)).setFlows
      (FlowTable.cacheWrite s.flows s.netid hd.keyId c.raw)).complete

/-- DeriveCandidates and TryKey* (rule R900), with the frame's nonce already written. -/
def State.tryFrame (s : State) (hd : Header) (nonce : Nonce) : State :=
  if aadTooLong (s.transformAad hd).length then s.failFrame .frameTooLarge 0
  else
    match tryCandidates (s.tryKey hd nonce) (s.candidates hd.keyId s.netid) 0 with
    | (some (c, m), trials) => s.commitFrame hd c m trials
    | (none, trials) => s.failFrame .authFailure trials

/-- The stages after a successful parse (rule R900), the HDR registers already written. -/
def State.processFrame (s : State) (hd : Header) : State :=
  if s.caplenN < s.replenN then s.failFrame .truncatedCiphertext 0
  else if s.skipsAuth hd then
    ((s.setOut (s.framePayload hd)).setResult (resultWord .integrityOnly .noKey 0 0)).complete
  else
    match s.resolveSource hd.extn hd.ext with
    | none => s.failFrame .unknownSource 0
    | some src =>
      (s.setNonce (buildNonce src hd.fc hd.ctrl)).tryFrame hd (buildNonce src hd.fc hd.ctrl)

/-- DECRYPT_FRAME (rule R900). -/
def execDecryptFrame (s : State) : Host.Outcome State Fault Refusal :=
  .next (match parse s with
    | .error e => s.failFrame e 0
    | .ok hd => (s.setHeader hd).processFrame hd)

end Sys2Proof.Machine
end

