-- ==== Sys2Proof/Machine/Dispatch.lean ====
section
/-! DEFINITION. One arm per command: the meaning of each, called by its full name. -/

namespace Sys2Proof.Machine

-- What a command does, from its start to its completion, as one transition (00_scope.md rule R14).
def exec (i : Instr) (s : State) : Host.Outcome State Fault Refusal :=
  match i with
  | .nop => Sys2Proof.Machine.execNop s
  | .aesEnc => Sys2Proof.Machine.execAesEnc s
  | .mmoHash => Sys2Proof.Machine.execMmoHash s
  | .keyedHash imm8 => Sys2Proof.Machine.execKeyedHash imm8 s
  | .ccmDec mic => Sys2Proof.Machine.execCcmDec mic s
  | .ccmEnc mic => Sys2Proof.Machine.execCcmEnc mic s
  | .parseHdr => Sys2Proof.Machine.execParseHdr s
  | .buildNonce => Sys2Proof.Machine.execBuildNonce s
  | .decryptFrame => Sys2Proof.Machine.execDecryptFrame s
  | .regKey => Sys2Proof.Machine.execRegKey s
  | .addGkey rev => Sys2Proof.Machine.execAddGkey rev s
  | .lookupLabel => Sys2Proof.Machine.execLookupLabel s
  | .sessionReset => Sys2Proof.Machine.execSessionReset s

end Sys2Proof.Machine
end

