-- ==== Sys2Proof/Machine/Step.lean ====
section
/-! DEFINITION. One step: the block serves the next event at its boundary, or, when none is left, lets a running command
complete (20_memory.md rule R220; 60_exceptions.md rule R1021; 70_reset_and_hazards.md rules R1100 and R1110). -/

namespace Sys2Proof.Machine

/-- The running command completes: the pending word is decoded and its command runs as one transition, an illegal word
ending in IllegalCommand (rule R1110, 30_encoding.md rule R311). With no command running nothing happens. -/
def runCommand (s : State) : Host.Outcome State Fault Refusal :=
  match s.seq with
  | .idle => .next s
  | .busy w =>
    match decode w with
    | .ok i => exec i s
    | .error _ => .next s.rejectWord

/-- What one event does. While the reset input is asserted only its release has an effect: no access is served and no
command runs (rule R1100). -/
def serveEvent (e : HostEvent) (s : State) : Host.Outcome State Fault Refusal :=
  match e with
  | .read width offset => .next (if s.inReset then s else s.serveRead width offset.toNat)
  | .write width offset data => .next (if s.inReset then s else s.serveWrite width offset.toNat data)
  | .complete => if s.inReset then .next s else runCommand s
  | .assertReset => .next (s.resetTo true)
  | .releaseReset => .next (if s.inReset then s.resetTo false else s)

/-- The state with the next event taken from the queue, the events `rest` left, and no bus response yet. -/
def State.taking (s : State) (rest : List HostEvent) : State := { s with inputs := rest, resp := none }

/-- One step. With no event left, a running command completes (weak fairness, rule R1110) and an idle block stays as it is
(60_exceptions.md rule R1054). -/
def step (s : State) : Host.Outcome State Fault Refusal :=
  match s.inputs with
  | [] => if s.inReset then .next (s.taking []) else runCommand (s.taking [])
  | e :: rest => serveEvent e (s.taking rest)

/-- The state in which an opcode-table word of `nbits` bits has just been accepted by CMD and the next event is its
completion, so that the very next step runs it. The block fetches nothing (20_memory.md rule R225). -/
def State.withFetchWord (s : State) (nbits w : Nat) : State :=
  { s.acceptCommand (BitVec.ofNat 32 (w % 2 ^ nbits)) with
    inReset := false
    inputs := .complete :: s.inputs }

end Sys2Proof.Machine
end

