-- ==== Sys2Proof/Machine/Work.lean ====
section
/-! DEFINITION. The informative work measure of 70_reset_and_hazards.md rule R1121: how many AES-128 calls each command makes by
its rules. Every command runs a second time here, with a cipher that counts its calls: a call is counted where the cipher is
called, and nowhere else. No step depends on the count, and it is no timing claim. -/

namespace Sys2Proof.Machine

/-- A value with the number of AES calls made for it. -/
structure Counted (α : Type) where
  value : α
  calls : Nat
deriving DecidableEq, Repr

/-- A value made without a call. -/
def Counted.pure {α : Type} (a : α) : Counted α := ⟨a, 0⟩

/-- One computation after another: the calls add up. -/
def Counted.bind {α β : Type} (c : Counted α) (f : α → Counted β) : Counted β :=
  ⟨(f c.value).value, c.calls + (f c.value).calls⟩

/-- A function of a value, made without a call. -/
def Counted.map {α β : Type} (f : α → β) (c : Counted α) : Counted β := ⟨f c.value, c.calls⟩

/-- `AES(k, x)` as one call (40_aes128.md rule R410). -/
def countedAes (k : Key) (x : Block) : Counted Block := ⟨aes k x, 1⟩

/-- A chain over blocks, each step counted. -/
def countedChain (f : Block → Block → Counted Block) : List Block → Block → Counted Block
  | [], h => .pure h
  | p :: ps, h => (f h p).bind (countedChain f ps)

/-- `mmo_hash` (41_mmo_hash.md rule R503), counted. -/
def countedMmoHash (input : List Byte) : Counted Block :=
  countedChain (fun h p => (countedAes h p).map fun y => Bytes.xor y p) (blocksOf (mmoPad input)) (.replicate 16 0)

/-- `keyed_hash` (rule R505), counted. -/
def countedKeyedHash (key : Key) (b : Byte) : Counted Block :=
  (countedMmoHash (padKey key 0x36 ++ [b])).bind fun inner => countedMmoHash (padKey key 0x5C ++ inner.toList)

/-- `S_i ‖ S_j ‖ ...` for a list of block numbers (42_ccm_star.md rule R602), counted. -/
def countedKeystreamBlocks (key : Key) (nonce : Nonce) : List Nat → Counted (List Byte)
  | [] => .pure []
  | i :: is =>
    (countedAes key (counterBlock nonce i)).bind fun b =>
      (countedKeystreamBlocks key nonce is).map fun rest => b.toList ++ rest

/-- `KS(n)` (rule R603), counted. -/
def countedKeystream (key : Key) (nonce : Nonce) (n : Nat) : Counted (List Byte) :=
  (countedKeystreamBlocks key nonce ((List.range (blocksFor n)).map (· + 1))).map (List.take n)

/-- `cbcmac` (rule R606), counted. -/
def countedCbcMac (key : Key) (nonce : Nonce) (a m : List Byte) (mic : MicLen) : Counted (List Byte) :=
  ((countedAes key (b0Block nonce a.length m.length mic)).bind
    (countedChain (fun x b => countedAes key (Bytes.xor x b)) (authBlocks a m))).map fun x => x.toList.take (micBytes mic)

/-- The tag in the encrypted MIC field (rule R607 step 1), counted. -/
def countedDecryptTag (key : Key) (nonce : Nonce) (u : List Byte) (mic : MicLen) : Counted (List Byte) :=
  (countedAes key (counterBlock nonce 0)).map fun s0 =>
    (xorBytes (u ++ List.replicate (16 - micBytes mic) 0) s0.toList).take (micBytes mic)

/-- `ccm_star_decrypt` (rule R607), counted: with M = 0 the keystream alone is made. -/
def countedCcmDecrypt (key : Key) (nonce : Nonce) (a cu : List Byte) (mic : MicLen) : Counted (Option (List Byte)) :=
  (countedKeystream key nonce (cu.length - micBytes mic)).bind fun ks =>
    if mic = .m0 then .pure (some (xorBytes (cu.take (cu.length - micBytes mic)) ks))
    else
      (countedDecryptTag key nonce (cu.drop (cu.length - micBytes mic)) mic).bind fun td =>
        (countedCbcMac key nonce a (xorBytes (cu.take (cu.length - micBytes mic)) ks) mic).map fun t =>
          if t = td then some (xorBytes (cu.take (cu.length - micBytes mic)) ks) else none

/-- `ccm_star_encrypt` (rule R608), counted. -/
def countedCcmEncrypt (key : Key) (nonce : Nonce) (a m : List Byte) (mic : MicLen) : Counted (List Byte) :=
  (countedKeystream key nonce m.length).bind fun ks =>
    if mic = .m0 then .pure (xorBytes m ks)
    else
      (countedAes key (counterBlock nonce 0)).bind fun s0 =>
        (countedCbcMac key nonce a m mic).map fun t => xorBytes m ks ++ xorBytes t (s0.toList.take (micBytes mic))

/-- The trial key of a stored raw key (44_key_ring.md rule R821), counted. -/
def countedTrialKey (r : Key) : KeyId → Counted Key
  | .link => .pure r
  | .network => .pure r
  | .transport => countedKeyedHash r 0x00
  | .load => countedKeyedHash r 0x02

/-- One trial (rule R820), counted. -/
def State.countedTryKey (s : State) (hd : Header) (nonce : Nonce) (c : Candidate) : Counted (Option (List Byte)) :=
  (countedTrialKey c.raw hd.keyId).bind fun k =>
    countedCcmDecrypt k nonce (s.transformAad hd) (s.transformInput hd) hd.mic

/-- The trial loop (rule R820), counted. -/
def countedTryCandidates (attempt : Candidate → Counted (Option (List Byte))) :
    List Candidate → Nat → Counted (Option (Candidate × List Byte) × Nat)
  | [], n => .pure (none, n)
  | c :: cs, n =>
    (attempt c).bind fun r =>
      match r with
      | some m => .pure (some (c, m), n + 1)
      | none => countedTryCandidates attempt cs (n + 1)

/-- DeriveCandidates and TryKey* (45_frame_decrypt.md rule R900), counted. -/
def State.countedTryFrame (s : State) (hd : Header) (nonce : Nonce) : Counted State :=
  if aadTooLong (s.transformAad hd).length then .pure (s.failFrame .frameTooLarge 0)
  else
    (countedTryCandidates (s.countedTryKey hd nonce) (s.candidates hd.keyId s.netid) 0).map fun r =>
      match r with
      | (some (c, m), trials) => s.commitFrame hd c m trials
      | (none, trials) => s.failFrame .authFailure trials

/-- The stages after a successful parse (rule R900), counted: only the trial loop calls the cipher. -/
def State.countedProcessFrame (s : State) (hd : Header) : Counted State :=
  if s.caplenN < s.replenN ∨ s.skipsAuth hd = true then .pure (s.processFrame hd)
  else
    match s.resolveSource hd.extn hd.ext with
    | none => .pure (s.processFrame hd)
    | some src =>
      (s.setNonce (buildNonce src hd.fc hd.ctrl)).countedTryFrame hd (buildNonce src hd.fc hd.ctrl)

/-- The next state of a command that calls no cipher. -/
def withoutCalls (s : State) : Host.Outcome State Fault Refusal → Counted State
  | .next t => .pure t
  | .fault _ => .pure s
  | .refused _ => .pure s

/-- The next state of a command with the number of AES calls it takes to get there. -/
def countedCommand (i : Instr) (s : State) : Counted State :=
  match i with
  | .nop => withoutCalls s (execNop s)
  | .aesEnc => (countedAes s.key s.blk).map fun d => (s.setRes d).complete
  | .mmoHash =>
    if s.alenN > Config.bufLen ∨ s.alenN > Config.mmoFieldMax then .pure (s.raise .frameTooLarge)
    else (countedMmoHash (s.bufSlice 0 s.alenN)).map fun d => (s.setRes d).complete
  | .keyedHash imm8 => (countedKeyedHash s.key imm8).map fun d => (s.setRes d).complete
  | .ccmDec mic =>
    if s.alenN + s.mlenN + micBytes mic > Config.bufLen ∨ aadTooLong s.alenN = true then .pure (s.raise .frameTooLarge)
    else
      (countedCcmDecrypt s.key s.nonce (s.bufSlice 0 s.alenN) (s.bufSlice s.alenN (s.mlenN + micBytes mic)) mic).map fun r =>
        match r with
        | none => s.raise .authFailure
        | some m => (s.setOut m).complete
  | .ccmEnc mic =>
    if s.alenN + s.mlenN > Config.bufLen ∨ s.mlenN + micBytes mic > Config.bufLen ∨ aadTooLong s.alenN = true then
      .pure (s.raise .frameTooLarge)
    else
      (countedCcmEncrypt s.key s.nonce (s.bufSlice 0 s.alenN) (s.bufSlice s.alenN s.mlenN) mic).map fun out =>
        (s.setOut out).complete
  | .parseHdr => withoutCalls s (execParseHdr s)
  | .buildNonce => withoutCalls s (execBuildNonce s)
  | .decryptFrame =>
    match parse s with
    | .error e => .pure (s.failFrame e 0)
    | .ok hd => (s.setHeader hd).countedProcessFrame hd
  | .regKey => withoutCalls s (execRegKey s)
  | .addGkey rev => withoutCalls s (execAddGkey rev s)
  | .lookupLabel => withoutCalls s (execLookupLabel s)
  | .sessionReset => withoutCalls s (execSessionReset s)

/-- The number of AES-128 calls of a command (rule R1121). -/
def aesCalls (i : Instr) (s : State) : Nat := (countedCommand i s).calls

end Sys2Proof.Machine
end

