-- ==== Sys2Proof/Safety.lean ====
section
/-! DEFINITION. What counts as a good state of the block, in the terms the statements use: the invariant that reset
establishes and every step keeps, and what a command may leave unchanged. -/

namespace Sys2Proof.Machine

/-- The keys of a list of records. -/
def keysOf (l : List KeyRecord) : List Key := l.map KeyRecord.key

/-- A good flow (10_state.md rules R131 and R132; 44_key_ring.md rules R823 and R835): at most N_FLOW_KEYS keys, no key
twice, and every cached key still listed, in the flow's own list or in the global one. -/
structure FlowGood (g : List KeyRecord) (f : Flow) : Prop where
  bounded : f.keys.length ≤ Config.nFlowKeys
  distinct : (keysOf f.keys).Nodup
  cacheListed : ∀ k r, f.cache.entry k = some r → r ∈ keysOf f.keys ∨ r ∈ keysOf g

/-- The invariant of the block. -/
structure State.Inv (s : State) : Prop where
  /-- The memory of BUF and OUT is in canonical form. -/
  memory : Memory.wf s.mem = true
  /-- GCOUNT is at most N_GLOBAL (10_state.md rule R130). -/
  globalBounded : s.globalKeys.length ≤ Config.nGlobal
  /-- No key is stored twice in the global list (44_key_ring.md rule R840). -/
  globalDistinct : (keysOf s.globalKeys).Nodup
  /-- Every valid flow slot is good. -/
  flowsGood : ∀ f, some f ∈ s.flows.toList → FlowGood s.globalKeys f
  /-- At most one valid slot has a given netid (10_state.md rule R131, 44_key_ring.md rule R812). -/
  netidsDistinct : (s.flows.toList.filterMap (Option.map Flow.netid)).Nodup
  /-- HDR_CTRL[31:16] reads as zero (10_state.md rule R115). -/
  hdrCtrlReserved : s.hdrCtrl.extractLsb' 16 16 = 0
  /-- HDR_INFO[31:23] reads as zero (10_state.md rule R116). -/
  hdrInfoReserved : s.hdrInfo.extractLsb' 23 9 = 0
  /-- RESULT[7:4] reads as zero (10_state.md rule R122). -/
  resultReserved : s.result.extractLsb' 4 4 = 0
  /-- RESULT.TRIALS is at most 1 + N_FLOW_KEYS + N_GLOBAL (44_key_ring.md rule R813). -/
  trialsBounded : (s.result.extractLsb' 16 16).toNat ≤ 1 + Config.nFlowKeys + Config.nGlobal
  /-- While BUSY, the pending word is the one in CMD, DONE is 0 and ERRCODE is 0 (70_reset_and_hazards.md rule R1110). -/
  busyClean : ∀ w, s.seq = .busy w → s.cmd = w ∧ s.done = false ∧ s.errCode = .ok
  /-- While reset is asserted the block is idle and irq is deasserted (70_reset_and_hazards.md rule R1100). -/
  resetIdle : s.inReset = true → s.seq = .idle ∧ s.done = false

/-- Everything a command reads or that belongs to the host: the configuration, the operand registers and windows, WERR, CMD
and the model's own fields. No command writes any of it (10_state.md rule R143). -/
structure SameInputs (s t : State) : Prop where
  werr : t.werr = s.werr
  ie : t.ie = s.ie
  defLevel : t.defLevel = s.defLevel
  ipol : t.ipol = s.ipol
  cmd : t.cmd = s.cmd
  alen : t.alen = s.alen
  mlen : t.mlen = s.mlen
  caplen : t.caplen = s.caplen
  replen : t.replen = s.replen
  hoff : t.hoff = s.hoff
  netid : t.netid = s.netid
  hintLo : t.hintLo = s.hintLo
  hintHi : t.hintHi = s.hintHi
  hintv : t.hintv = s.hintv
  label : t.label = s.label
  tag : t.tag = s.tag
  key : t.key = s.key
  blk : t.blk = s.blk
  buf : ∀ i, i < Config.bufLen → t.bufByte i = s.bufByte i
  inReset : t.inReset = s.inReset
  inputs : t.inputs = s.inputs
  resp : t.resp = s.resp
  draws : t.draws = s.draws
  epoch : t.epoch = s.epoch

/-- The key store and the result registers and windows other than STATUS. No host access writes any of it
(10_state.md rules R123 and R143; 20_memory.md rule R201). -/
structure SameResults (s t : State) : Prop where
  res : t.res = s.res
  hdrCtrl : t.hdrCtrl = s.hdrCtrl
  hdrInfo : t.hdrInfo = s.hdrInfo
  hdrFc : t.hdrFc = s.hdrFc
  hdrExtLo : t.hdrExtLo = s.hdrExtLo
  hdrExtHi : t.hdrExtHi = s.hdrExtHi
  hdrPos : t.hdrPos = s.hdrPos
  result : t.result = s.result
  out : ∀ i, i < Config.bufLen → t.outByte i = s.outByte i
  globalKeys : t.globalKeys = s.globalKeys
  flows : t.flows = s.flows

/-- The state with every cache entry of every flow empty (44_key_ring.md rule R823 compares a run with and without). -/
def State.withoutCaches (s : State) : State :=
  { s with
    flows :=
      ⟨s.flows.toList.map (Option.map fun f => { f with cache := FlowCache.empty }), by
        rw [List.length_map, s.flows.length_eq]⟩ }

/-- Is this command word SESSION_RESET, the only command that removes keys (10_state.md rule R133)? -/
def isSessionReset (w : Word) : Bool := decode w matches .ok .sessionReset

end Sys2Proof.Machine
end

