-- ==== Sys2Proof/Reference.lean ====
section
/-! DEFINITION. AES-128 written a second time, straight from the formulas of 40_aes128.md rules R401 to R409: the S-box from
its algebraic definition, field multiplication bit by bit, the 44 words of the key schedule one after another, and the
state as a table of rows and columns. The model computes with tables and columns (Machine/Aes.lean); a statement says
that both are the same function. -/

namespace Sys2Proof.Reference

/-- `xtime(b)`: b doubled, less the reduction polynomial when bit 7 was set (rule R402). -/
def double (b : Byte) : Byte :=
  if b.toNat < 128 then BitVec.ofNat 8 (2 * b.toNat) else BitVec.ofNat 8 (2 * b.toNat) ^^^ 0x1B

/-- The sum over each set bit i of b, from bit j on for n bits, of `xtime^(i-j)(c)` (rule R402). -/
def mulFrom (b : Byte) : Nat → Nat → Byte → Byte
  | 0, _, _ => 0
  | n + 1, j, c => (if b.getLsbD j then c else 0) ^^^ mulFrom b n (j + 1) (double c)

/-- `a • b`: the sum over each set bit j of b of `xtime^j(a)` (rule R402). -/
def mul (a b : Byte) : Byte := mulFrom b 8 0 a

/-- `a^2 • a^4 • ... • a^(2^n)` in GF(2^8). -/
def evenPowers : Nat → Byte → Byte
  | 0, _ => 1
  | n + 1, a => mul (mul a a) (evenPowers n (mul a a))

/-- The inverse in GF(2^8), with the inverse of 0 being 0 (rule R403 step 1), as a^254; that it is the inverse is part of
the statement `Obligations.SboxIsAffineOfInverse`, which does not use this definition. -/
def inverse (a : Byte) : Byte := evenPowers 7 a

/-- Output bit i of the affine map (rule R403 step 2). -/
def affineBit (b : Byte) (i : Nat) : Bool :=
  b.getLsbD i ^^ b.getLsbD ((i + 4) % 8) ^^ b.getLsbD ((i + 5) % 8) ^^ b.getLsbD ((i + 6) % 8)
    ^^ b.getLsbD ((i + 7) % 8) ^^ (0x63#8).getLsbD i

/-- `Sbox(a)` by its definition (rule R403). -/
def substitute (a : Byte) : Byte :=
  BitVec.ofNat 8 (((List.range 8).map fun i => 2 ^ i * (affineBit (inverse a) i).toNat).sum)

/-- The cipher state: 16 bytes, `s[r][c]` at place r + 4c (rule R401). -/
abbrev Cells := List Byte

/-- `s[r][c]` (rule R401). -/
def cell (s : Cells) (r c : Nat) : Byte := s.getD (r + 4 * c) 0

/-- The state whose `s[r][c]` is `f r c`, for r and c in 0..3. -/
def tabulate (f : Nat → Nat → Byte) : Cells := (List.range 16).map fun i => f (i % 4) (i / 4)

/-- SubBytes (rule R404). -/
def subBytes (s : Cells) : Cells := tabulate fun r c => substitute (cell s r c)

/-- ShiftRows (rule R405). -/
def shiftRows (s : Cells) : Cells := tabulate fun r c => cell s r ((c + r) % 4)

/-- One byte of MixColumns, one equation for each row (rule R406). -/
def mixedByte (a0 a1 a2 a3 : Byte) (r : Nat) : Byte :=
  match r with
  | 0 => mul a0 0x02 ^^^ mul a1 0x03 ^^^ a2 ^^^ a3
  | 1 => a0 ^^^ mul a1 0x02 ^^^ mul a2 0x03 ^^^ a3
  | 2 => a0 ^^^ a1 ^^^ mul a2 0x02 ^^^ mul a3 0x03
  | _ => mul a0 0x03 ^^^ a1 ^^^ a2 ^^^ mul a3 0x02

/-- MixColumns (rule R406). -/
def mixColumns (s : Cells) : Cells :=
  tabulate fun r c => mixedByte (cell s 0 c) (cell s 1 c) (cell s 2 c) (cell s 3 c) r

/-- `Rcon[j]` for j in 1..10 (rule R408): 0x01 doubled j − 1 times. -/
def rcon (j : Nat) : Byte := Nat.repeat double (j - 1) 0x01

/-- Words w[0..3+n] of the key schedule, each a list of its 4 bytes (rule R408). -/
def keyWords (k : Key) : Nat → List (List Byte)
  | 0 => (List.range 4).map fun i => (k.toList.drop (4 * i)).take 4
  | n + 1 =>
    let w := keyWords k n
    let i := n + 4
    let t := w.getD (i - 1) []
    let rotated := t.drop 1 ++ t.take 1
    let substituted := (rotated.map substitute).zipWith (· ^^^ ·) [rcon (i / 4), 0, 0, 0]
    let t' := if i % 4 = 0 then substituted else t
    w ++ [(w.getD (i - 4) []).zipWith (· ^^^ ·) t']

/-- AddRoundKey(j) (rule R407). -/
def addRoundKey (w : List (List Byte)) (j : Nat) (s : Cells) : Cells :=
  tabulate fun r c => cell s r c ^^^ ((w.getD (4 * j + c) []).getD r 0)

/-- `AES(k, in)` (rule R409). -/
def aes (k : Key) (x : Block) : Block :=
  let w := keyWords k 40
  let start := addRoundKey w 0 x.toList
  let middle := (List.range' 1 9).foldl (fun s j => addRoundKey w j (mixColumns (shiftRows (subBytes s)))) start
  FixedList.ofList 16 (addRoundKey w 10 (shiftRows (subBytes middle)))

end Sys2Proof.Reference
end

