-- ==== Sys2Proof/Certificates/Slice0/Obligations.lean ====
section
/-! DEFINITION. The statements for the provers. Each docstring names the rules of spec/ it formalises. A statement about a
step of an event assumes that the reset input is released, and says so. The fields `inputs`, `resp`, `draws` and `epoch` are the
model's own (log entries 2, 3, 7 and 8): where a statement gives their next value it says how the model keeps its books, and
claims no rule of the spec for that part. -/

open Sys2Proof Sys2Proof.Machine

/-! ### Encoding (30_encoding.md) -/

/-- Rules R300 and R310: decoding the encoded word of a command gives the command back, for every command and every value
of its operands. -/
def Obligations.DecodeInvertsEncode : Prop :=
  ∀ i : Instr, i.wellFormed = true → decode (encode i) = .ok i

/-- Rules R300 and R310: a word that decodes is the encoding of what it decodes to, so no bit of a legal word is ignored
and no two legal words mean the same command. -/
def Obligations.EncodeInvertsDecode : Prop :=
  ∀ (w : Word) (i : Instr), decode w = .ok i → i.wellFormed = true ∧ encode i = w

/-- Rule R311: a word is illegal exactly when one of (a), (b) and (c) holds; an illegal word is accepted as a command
(BUSY goes to 1, CMD keeps the word), and then completes with IllegalCommand and changes no other state. -/
def Obligations.IllegalWordsAreExactlyTheListed : Prop :=
  (∀ w : Word, (∃ e, decode w = .error e) ↔
    (0x0D ≤ (w.extractLsb' 0 8).toNat
      ∨ w.extractLsb' 19 13 ≠ 0
      ∨ ((w.extractLsb' 0 8).toNat ≠ 0x03 ∧ w.extractLsb' 8 8 ≠ 0)
      ∨ ((w.extractLsb' 0 8).toNat ≠ 0x04 ∧ (w.extractLsb' 0 8).toNat ≠ 0x05 ∧ w.extractLsb' 16 2 ≠ 0)
      ∨ ((w.extractLsb' 0 8).toNat ≠ 0x0A ∧ w.getLsbD 18 = true)))
  ∧ (∀ (s : State) (w : Word) (rest : List HostEvent), (∃ e, decode w = .error e) → s.inReset = false → s.seq = .idle →
      s.inputs = .write .word 0x00C w :: rest →
      ∃ t, step s = .next t ∧ t.busy = true ∧ t.cmd = w)
  ∧ (∀ (s : State) (w : Word) (rest : List HostEvent), (∃ e, decode w = .error e) → s.inReset = false → s.seq = .busy w →
      s.inputs = .complete :: rest →
      step s = .next { s with inputs := rest, resp := none, seq := .idle, done := true, errCode := .illegalCommand })

/-- Rules R310 and R312: words written out from the encodings of the spec decode to the commands they stand for. -/
def Obligations.SampleWordsDecode : Prop :=
  decode 0x00000000 = .ok .nop ∧ decode 0x00000001 = .ok .aesEnc ∧ decode 0x00000203 = .ok (.keyedHash 0x02)
  ∧ decode 0x00020004 = .ok (.ccmDec .m8) ∧ decode 0x00010005 = .ok (.ccmEnc .m4)
  ∧ decode 0x00000008 = .ok .decryptFrame ∧ decode 0x0004000A = .ok (.addGkey true)
  ∧ decode 0x0000000C = .ok .sessionReset

/-! ### The life of a command (70_reset_and_hazards.md) -/

/-- Rules R221, R225 and R1110: when a command runs, the step at its completion is exec of the decoded command on the state
as it stands; the step also takes the event from the queue and gives no bus response. That an empty queue lets the command
complete is the model's choice (log entry 3). -/
def Obligations.StepRunsTheDecodedCommand : Prop :=
  ∀ (s : State) (w : Word) (i : Instr), s.inReset = false → s.seq = .busy w → decode w = .ok i → i.wellFormed = true →
    (∀ rest, s.inputs = .complete :: rest → step s = exec i { s with inputs := rest, resp := none })
    ∧ (s.inputs = [] → step s = exec i { s with inputs := [], resp := none })

/-- Rule R1110 (Start) and rule R104: a CMD write while idle is accepted. CMD and the pending latch take the word, DONE
and ERRCODE are cleared, BUSY is set, WERR and everything else is unchanged. -/
def Obligations.CommandWriteStartsTheCommand : Prop :=
  ∀ (s : State) (v : Word) (rest : List HostEvent), s.inReset = false → s.seq = .idle →
    s.inputs = .write .word 0x00C v :: rest →
    step s = .next { s with
      inputs := rest
      resp := some { error := false, data := 0 }
      cmd := v
      seq := .busy v
      done := false
      errCode := .ok }

/-- Rule R1113: while BUSY a write to any offset other than STATUS is dropped and sets WERR, at every width; a write to
STATUS is served as usual. -/
def Obligations.WritesWhileBusyAreDropped : Prop :=
  ∀ (s : State) (width : Width) (offset : BitVec 12) (data : Word) (rest : List HostEvent),
    s.inReset = false → s.busy = true → accessWellFormed width offset = true →
    s.inputs = .write width offset data :: rest →
    (offset ≠ 0x008 → step s = .next { s with
      inputs := rest
      resp := some { error := false, data := 0 }
      werr := true })
    ∧ (offset = 0x008 → step s = .next { s with
      inputs := rest
      resp := some { error := false, data := 0 }
      done := s.done && !data.getLsbD 1
      werr := s.werr && !data.getLsbD 3 })

/-- Rules R1001 ("No error stops the block"), R1110 (Fairness) and R1111: every step of every state answers a next state; and
whatever the schedule, once its events have been served and one step more has been made, no command is running. The premise
of the second part holds in every state that meets the invariant. The queue of events, and that an empty one lets a running
command complete, are the model's choice for the spec's schedule (log entry 3). -/
def Obligations.EveryStartedCommandEnds : Prop :=
  (∀ s : State, ∃ t, step s = .next t)
  ∧ ∀ s : State, (s.inReset = true → s.seq = .idle) →
    ∃ t : State, core.run (s.inputs.length + 1) s = .next t ∧ t.inputs = [] ∧ t.seq = .idle

/-- Rules R1001 and R1110 (Completion): every command ends with BUSY = 0 and DONE = 1, and then irq equals CTRL.IE. -/
def Obligations.EveryCommandCompletes : Prop :=
  ∀ (i : Instr) (s : State), ∃ t, exec i s = .next t ∧ t.seq = .idle ∧ t.done = true ∧ t.irq = s.ie

/-- Rule R143 and 44_key_ring.md, 42_ccm_star.md, 45_frame_decrypt.md: no command writes the configuration, an operand
register, KEY, BLK, BUF, CMD or WERR. -/
def Obligations.CommandsLeaveTheirInputsUnchanged : Prop :=
  ∀ (i : Instr) (s t : State), exec i s = .next t → SameInputs s t

/-- Rules R1001 and R13: a command other than DECRYPT_FRAME that ends in an error changes nothing but STATUS. -/
def Obligations.ErrorsCommitNothing : Prop :=
  ∀ (i : Instr) (s t : State), i ≠ .decryptFrame → exec i s = .next t → t.errCode ≠ .ok →
    t = { s with seq := .idle, done := true, errCode := t.errCode }

/-- Rule R1002: ERRCODE and ERR keep the last outcome until the next accepted CMD write, which sets ERRCODE to 0; a step that is
neither that, nor the completion of a running command, nor a reset, leaves them, a write to STATUS among them; a reset sets
ERRCODE to 0. That a completion with no command running and a release of a reset that is not asserted change nothing is the
model's choice (log entry 19), and so is that an idle block with an empty queue stays as it is (log entry 3). -/
def Obligations.ErrCodeKeepsTheLastOutcome : Prop :=
  (∀ (s t : State) (e : HostEvent) (rest : List HostEvent), s.inputs = e :: rest → step s = .next t →
    (e ≠ .complete → e ≠ .assertReset → e ≠ .releaseReset → (∀ v, e ≠ .write .word 0x00C v) →
      t.errCode = s.errCode ∧ t.err = s.err)
    ∧ (∀ v, e = .write .word 0x00C v → s.inReset = false → s.seq = .idle → t.errCode = .ok ∧ t.err = false)
    ∧ (∀ v, e = .write .word 0x00C v → (s.inReset = true ∨ s.busy = true) → t.errCode = s.errCode ∧ t.err = s.err)
    ∧ (e = .complete → (s.inReset = true ∨ s.seq = .idle) → t.errCode = s.errCode ∧ t.err = s.err)
    ∧ (e = .assertReset → t.errCode = .ok ∧ t.err = false)
    ∧ (e = .releaseReset → (s.inReset = true → t.errCode = .ok ∧ t.err = false)
      ∧ (s.inReset = false → t.errCode = s.errCode ∧ t.err = s.err)))
  ∧ ∀ (s t : State), s.inputs = [] → (s.inReset = true ∨ s.seq = .idle) → step s = .next t →
    t.errCode = s.errCode ∧ t.err = s.err

/-! ### The host port (20_memory.md, 10_state.md) -/

/-- Rules R212 and R213: the register area takes word accesses at multiples of 4 only, a window takes an access at a multiple
of its width. Every other access gets a bus error and read data 0, and has no effect on any state of the block, WERR included;
an allowed access gets no bus error. -/
def Obligations.BusErrorsAreExactlyTheIllFormedAccesses : Prop :=
  (∀ (width : Width) (offset : BitVec 12), accessWellFormed width offset = true ↔
    if offset.toNat < 0x100 then width = .word ∧ offset.toNat % 4 = 0
    else offset.toNat % (match width with | .byte => 1 | .half => 2 | .word => 4) = 0)
  ∧ ∀ (s : State) (rest : List HostEvent) (width : Width) (offset : BitVec 12) (data : Word) (e : HostEvent),
    s.inReset = false → s.inputs = e :: rest → e = .read width offset ∨ e = .write width offset data →
    (accessWellFormed width offset = false →
      step s = .next { s with inputs := rest, resp := some { error := true, data := 0 } })
    ∧ (accessWellFormed width offset = true → ∃ t d, step s = .next t ∧ t.resp = some { error := false, data := d })

/-- Rule R215: a read changes no state of the block. The model's own response field and count of draws may change. -/
def Obligations.ReadsHaveNoSideEffects : Prop :=
  ∀ (s t : State) (width : Width) (offset : BitVec 12) (rest : List HostEvent),
    s.inputs = .read width offset :: rest → step s = .next t →
    t = { s with inputs := rest, resp := t.resp, draws := t.draws }

/-- Rules R101 to R122: what a word read of each register returns while the block is idle. The words are put together from
the fields by sums of powers of two. -/
def Obligations.RegisterReadsGiveTheirFields : Prop :=
  ∀ (s : State) (offset : BitVec 12) (v : Nat) (rest : List HostEvent), s.inReset = false → s.seq = .idle →
    (offset, v) ∈ ([
      (0x000, 0x5A534543),
      (0x004, s.ie.toNat + 2 * s.defLevel.toNat + 16 * s.ipol.toNat),
      (0x008, 2 * s.done.toNat + 4 * (decide (s.errCode ≠ .ok)).toNat + 8 * s.werr.toNat + 256 * s.errCode.code.toNat),
      (0x00C, s.cmd.toNat), (0x010, s.alen.toNat), (0x014, s.mlen.toNat), (0x018, s.caplen.toNat),
      (0x01C, s.replen.toNat), (0x020, s.hoff.toNat), (0x024, s.netid.toNat), (0x028, s.hintLo.toNat),
      (0x02C, s.hintHi.toNat), (0x030, s.hintv.toNat), (0x034, s.label.toNat), (0x038, s.tag.toNat),
      (0x040, s.hdrCtrl.toNat), (0x044, s.hdrInfo.toNat), (0x048, s.hdrFc.toNat), (0x04C, s.hdrExtLo.toNat),
      (0x050, s.hdrExtHi.toNat), (0x054, s.hdrPos.toNat), (0x058, s.result.toNat), (0x05C, 0x00000200),
      (0x060, 0x00080810)] : List (BitVec 12 × Nat)) →
    s.inputs = .read .word offset :: rest →
    step s = .next { s with inputs := rest, resp := some { error := false, data := BitVec.ofNat 32 v } }

/-- Rule R121: KCOUNT holds the length of the global list and the number of valid flow slots, in a state that meets the
invariant. -/
def Obligations.KcountCountsTheKeyStore : Prop :=
  ∀ (s : State) (rest : List HostEvent), s.Inv → s.inReset = false → s.seq = .idle →
    s.inputs = .read .word 0x064 :: rest →
    step s = .next { s with
      inputs := rest
      resp := some
        { error := false
          data := BitVec.ofNat 32 (s.globalKeys.length + 256 * (s.flows.toList.filter Option.isSome).length) } }

/-- Rules R102 and R104 to R114: what a word write of each writable register does while the block is idle: the register takes
the bits of its fields and nothing else changes. (CMD is CommandWriteStartsTheCommand.) -/
def Obligations.RegisterWritesSetTheirFields : Prop :=
  ∀ (s : State) (v : Word) (rest : List HostEvent), s.inReset = false → s.seq = .idle →
    let served := { s with inputs := rest, resp := some { error := false, data := 0 } }
    let writing (offset : BitVec 12) := { s with inputs := .write .word offset v :: rest }
    step (writing 0x004) = .next { served with
      ie := v.getLsbD 0
      defLevel := v.extractLsb' 1 3
      ipol := v.getLsbD 4 }
    ∧ step (writing 0x008) = .next { served with
      done := s.done && !v.getLsbD 1
      werr := s.werr && !v.getLsbD 3 }
    ∧ step (writing 0x010) = .next { served with alen := v.extractLsb' 0 16 }
    ∧ step (writing 0x014) = .next { served with mlen := v.extractLsb' 0 16 }
    ∧ step (writing 0x018) = .next { served with caplen := v.extractLsb' 0 16 }
    ∧ step (writing 0x01C) = .next { served with replen := v.extractLsb' 0 16 }
    ∧ step (writing 0x020) = .next { served with hoff := v.extractLsb' 0 16 }
    ∧ step (writing 0x024) = .next { served with netid := v.extractLsb' 0 16 }
    ∧ step (writing 0x028) = .next { served with hintLo := v }
    ∧ step (writing 0x02C) = .next { served with hintHi := v }
    ∧ step (writing 0x030) = .next { served with hintv := v.getLsbD 0 }
    ∧ step (writing 0x034) = .next { served with label := v.extractLsb' 0 16 }
    ∧ step (writing 0x038) = .next { served with tag := v }

/-- Rules R100, R203 and R215: while the block is idle, an allowed write to a read-only register, to RES, to OUT or to a
reserved offset changes nothing; an allowed read of a reserved offset returns 0, while BUSY too. (A write to a reserved
offset while BUSY sets WERR: WritesWhileBusyAreDropped.) -/
def Obligations.ReservedAndReadOnlyLocations : Prop :=
  ∀ (s : State) (width : Width) (offset : BitVec 12) (data : Word) (rest : List HostEvent),
    s.inReset = false → accessWellFormed width offset = true →
    (s.seq = .idle →
      (offset.toNat = 0x000 ∨ (0x03C ≤ offset.toNat ∧ offset.toNat < 0x100)
        ∨ (0x11D ≤ offset.toNat ∧ offset.toNat < 0x120) ∨ (0x130 ≤ offset.toNat ∧ offset.toNat < 0x400)
        ∨ 0x600 ≤ offset.toNat) →
      s.inputs = .write width offset data :: rest →
      step s = .next { s with inputs := rest, resp := some { error := false, data := 0 } })
    ∧ ((offset.toNat = 0x03C ∨ (0x068 ≤ offset.toNat ∧ offset.toNat < 0x100)
        ∨ (0x11D ≤ offset.toNat ∧ offset.toNat < 0x120) ∨ (0x140 ≤ offset.toNat ∧ offset.toNat < 0x400)
        ∨ (0x600 ≤ offset.toNat ∧ offset.toNat < 0x800) ∨ 0xA00 ≤ offset.toNat) →
      s.inputs = .read width offset :: rest →
      ∃ t, step s = .next t ∧ t.resp = some { error := false, data := 0 })

/-- Rules R210 and R123: while the block is idle, an allowed window write puts byte k of its data at offset + k, where KEY,
NONCE, BLK or BUF lies there, and leaves every other window byte as it was. (Which byte of the state a window byte is:
WindowReadsAreLittleEndian.) -/
def Obligations.WindowWritesAreLittleEndian : Prop :=
  ∀ (s : State) (width : Width) (offset : BitVec 12) (data : Word) (rest : List HostEvent),
    s.inReset = false → s.seq = .idle → accessWellFormed width offset = true → 0x100 ≤ offset.toNat →
    s.inputs = .write width offset data :: rest →
    ∃ t, step s = .next t
      ∧ t = { s with
        inputs := rest
        resp := some { error := false, data := 0 }
        key := t.key
        nonce := t.nonce
        blk := t.blk
        mem := t.mem }
      ∧ ∀ a, 0x100 ≤ a → a < 0x1000 → t.windowByte a =
        if (offset.toNat ≤ a ∧ a < offset.toNat + widthBytes width)
          ∧ (a < 0x11D ∨ (0x120 ≤ a ∧ a < 0x130) ∨ (0x400 ≤ a ∧ a < 0x600))
        then data.extractLsb' (8 * (a - offset.toNat)) 8
        else s.windowByte a

/-- Rule R210: while the block is idle, an allowed window read returns byte offset + k in bits 8k+7:8k. The zeros above a narrow
value are the model's representation of it (log entry 9). Rules R123, R202 and R211: byte i of KEY, NONCE, BLK, RES, BUF and OUT
stands at the base of its window plus i, and the bytes between the windows read 0. -/
def Obligations.WindowReadsAreLittleEndian : Prop :=
  (∀ (s : State) (width : Width) (offset : BitVec 12) (rest : List HostEvent),
    s.inReset = false → s.seq = .idle → accessWellFormed width offset = true → 0x100 ≤ offset.toNat →
    s.inputs = .read width offset :: rest →
    ∃ d, step s = .next { s with inputs := rest, resp := some { error := false, data := d } }
      ∧ (∀ k, k < widthBytes width → d.extractLsb' (8 * k) 8 = s.windowByte (offset.toNat + k))
      ∧ d.toNat < 256 ^ widthBytes width)
  ∧ (∀ (s : State) (i : Nat),
    (i < 16 → s.windowByte (0x100 + i) = s.key.get i)
    ∧ (i < 13 → s.windowByte (0x110 + i) = s.nonce.get i)
    ∧ (i < 16 → s.windowByte (0x120 + i) = s.blk.get i)
    ∧ (i < 16 → s.windowByte (0x130 + i) = s.res.get i)
    ∧ (i < 512 → s.windowByte (0x400 + i) = s.bufByte i)
    ∧ (i < 512 → s.windowByte (0x800 + i) = s.outByte i)
    ∧ ((0x11D ≤ i ∧ i < 0x120) ∨ (0x140 ≤ i ∧ i < 0x400) ∨ (0x600 ≤ i ∧ i < 0x800) ∨ 0xA00 ≤ i → s.windowByte i = 0))

/-- Rule R1112: while BUSY a read of a register that a command may write returns a draw, and so does every byte lane of a window
access, at every width, that falls on NONCE, RES or OUT; the other lanes return their bytes. Another read is numbered anew.
STATUS shows BUSY = 1, and a read of any other offset returns what it returns while idle. That one word is drawn for each read,
lane k of an access taking its byte k, is the model's choice (log entry 2). -/
def Obligations.ReadsWhileBusyOfResultsAreDraws : Prop :=
  ∀ (s t : State) (width : Width) (offset : BitVec 12) (rest : List HostEvent), s.inReset = false → s.busy = true →
    accessWellFormed width offset = true → s.inputs = .read width offset :: rest → step s = .next t →
    t.draws = s.draws + 1
    ∧ (offset.toNat ∈ [0x040, 0x044, 0x048, 0x04C, 0x050, 0x054, 0x058, 0x064] →
        t.resp = some { error := false, data := Config.busyDraw s.draws })
    ∧ (0x100 ≤ offset.toNat → ∃ d, t.resp = some { error := false, data := d } ∧ d.toNat < 256 ^ widthBytes width
        ∧ ∀ k, k < widthBytes width → d.extractLsb' (8 * k) 8 =
          if (0x110 ≤ offset.toNat + k ∧ offset.toNat + k < 0x11D) ∨ (0x130 ≤ offset.toNat + k ∧ offset.toNat + k < 0x140)
              ∨ (0x800 ≤ offset.toNat + k ∧ offset.toNat + k < 0xA00)
          then (Config.busyDraw s.draws).extractLsb' (8 * k) 8
          else s.windowByte (offset.toNat + k))
    ∧ (offset = 0x008 → t.resp = some
        { error := false
          data := BitVec.ofNat 32 (1 + 2 * s.done.toNat + 4 * (decide (s.errCode ≠ .ok)).toNat + 8 * s.werr.toNat
            + 256 * s.errCode.code.toNat) })
    ∧ ((offset.toNat < 0x040 ∧ offset.toNat ≠ 0x008) ∨ offset.toNat = 0x05C ∨ offset.toNat = 0x060
          ∨ (0x100 ≤ offset.toNat ∧ offset.toNat < 0x110) ∨ (0x120 ≤ offset.toNat ∧ offset.toNat < 0x130)
          ∨ (0x400 ≤ offset.toNat ∧ offset.toNat < 0x600) →
        step { s with seq := .idle } = .next { t with seq := .idle, draws := s.draws })

/-- Rules R123, R143 and R201: no host access changes RES, OUT, a result register or the key store. -/
def Obligations.HostAccessesLeaveResultsUnchanged : Prop :=
  ∀ (s t : State) (e : HostEvent) (rest : List HostEvent),
    (∃ width offset, e = .read width offset) ∨ (∃ width offset data, e = .write width offset data) →
    s.inputs = e :: rest → step s = .next t → SameResults s t

/-- Rule R200: the platform address ZSEC_BASE + off reaches offset off, and no address outside the 4 KiB window reaches the
block. -/
def Obligations.WindowLiesAtItsBase : Prop :=
  (∀ offset : BitVec 12, windowOffset (Config.zsecBase + offset.toNat) = some offset)
  ∧ (∀ a, a < Config.zsecBase ∨ Config.zsecBase + 4096 ≤ a → windowOffset a = none)
  ∧ Config.zsecBase % 4096 = 0

/-! ### Status and the interrupt (60_exceptions.md) -/

/-- Rule R1000: the numbers of the error codes. -/
def Obligations.ErrorCodesAreNumbered : Prop :=
  [ErrCode.ok, .headerTooShort, .unknownSource, .frameTooLarge, .truncatedCiphertext, .authFailure, .illegalCommand,
    .ringFull, .notFound].map ErrCode.code = [0, 1, 2, 3, 4, 5, 6, 7, 8]
  ∧ ∀ e : ErrCode, e.code.toNat ≤ 8

/-- Rule R1010: irq = CTRL.IE AND STATUS.DONE; an accepted CMD write and a 1 written to STATUS.DONE clear it. -/
def Obligations.IrqFollowsDone : Prop :=
  ∀ (s t : State) (v : Word) (rest : List HostEvent), (s.irq = true ↔ s.ie = true ∧ s.done = true)
    ∧ (s.inReset = false → s.seq = .idle → s.inputs = .write .word 0x00C v :: rest → step s = .next t → t.irq = false)
    ∧ (s.inReset = false → v.getLsbD 1 = true → s.inputs = .write .word 0x008 v :: rest → step s = .next t →
        t.irq = false)

/-! ### AES-128 (40_aes128.md) -/

/-- Rule R403: the S-box of the model is the one of the definition. Sbox(a) is the affine map of the inverse of a in GF(2^8),
with 0 for the inverse of 0. -/
def Obligations.SboxIsAffineOfInverse : Prop :=
  sbox 0x00 = 0x63 ∧ sbox 0x53 = 0xED ∧ sbox 0xFF = 0x16 ∧ ∀ a : Byte, ∃ b : Byte, (a = 0 → b = 0) ∧ (a ≠ 0 → Reference.mul a b = 1)
    ∧ (∀ i, i < 8 → (sbox a).getLsbD i = Reference.affineBit b i)

/-- Rules R420 and R143: AES_ENC completes with RES = AES(KEY, BLK), the cipher being the one of the formulas, and changes
nothing else. -/
def Obligations.AesEncComputesTheReferenceCipher : Prop :=
  ∀ s : State, exec .aesEnc s = .next { s with
    res := Reference.aes s.key s.blk
    seq := .idle
    done := true
    errCode := .ok }

/-! ### Hashes (41_mmo_hash.md) -/

/-- Rule R501: the padded input is input ‖ 0x80 ‖ 0^z ‖ BE_2(8n) with the least z that makes its length a multiple of 16; it
has ceil((n + 3)/16) blocks; z = 0 when n mod 16 = 13, and the remainders 14 and 15 start an extra block. -/
def Obligations.MmoPaddingHasItsForm : Prop :=
  ∀ input : List Byte, ∃ z,
    mmoPad input = input ++ [0x80] ++ List.replicate z 0
      ++ [BitVec.ofNat 8 (8 * input.length / 256), BitVec.ofNat 8 (8 * input.length)]
    ∧ (input.length + 1 + z + 2) % 16 = 0 ∧ (∀ y, y < z → (input.length + 1 + y + 2) % 16 ≠ 0)
    ∧ (mmoPad input).length / 16 = (input.length + 3 + 15) / 16
    ∧ (input.length % 16 = 13 → z = 0)
    ∧ (14 ≤ input.length % 16 → (mmoPad input).length / 16 = input.length / 16 + 2)

/-- Rules R503 and R510: MMO_HASH of at most BUF_LEN bytes completes with RES = the end of the chain H <- AES(H, P_i) ⊕ P_i
from H = 0^16 over the blocks of the padded input, and changes nothing else; a longer ALEN gives FrameTooLarge. -/
def Obligations.MmoHashResult : Prop :=
  ∀ s : State,
    (s.alen.toNat ≤ 512 → exec .mmoHash s = .next { s with
      res := (blocksOf (mmoPad (s.bufSlice 0 s.alen.toNat))).foldl (fun h p => Bytes.xor (aes h p) p) (.replicate 16 0)
      seq := .idle
      done := true
      errCode := .ok })
    ∧ (512 < s.alen.toNat → exec .mmoHash s = .next { s with seq := .idle, done := true, errCode := .frameTooLarge })

/-- Rules R505 and R520: KEYED_HASH completes with RES = mmo_hash((KEY ⊕ 5C^16) ‖ mmo_hash((KEY ⊕ 36^16) ‖ imm8)) for every
imm8, and changes nothing else. -/
def Obligations.KeyedHashResult : Prop :=
  ∀ (imm8 : Byte) (s : State), exec (.keyedHash imm8) s = .next { s with
    res := mmoHash (xorBytes s.key.toList (List.replicate 16 0x5C)
      ++ (mmoHash (xorBytes s.key.toList (List.replicate 16 0x36) ++ [imm8])).toList)
    seq := .idle
    done := true
    errCode := .ok }

/-! ### CCM* (42_ccm_star.md) -/

/-- Rules R601, R602 and R604: the counter blocks A_i and the block B0 byte by byte, with the flag bytes of the table of rule
R601. -/
def Obligations.CcmBlocksHaveTheirLayout : Prop :=
  (∀ (n : Nonce) (i : Nat), (counterBlock n i).toList = [0x01] ++ n.toList ++ [BitVec.ofNat 8 (i / 256), BitVec.ofNat 8 i])
  ∧ (∀ (k : Key) (n : Nonce) (i : Nat), keystreamBlock k n i = aes k (counterBlock n i))
  ∧ (∀ (n : Nonce) (la lm : Nat) (mic : MicLen), ∃ flags : Byte,
      (b0Block n la lm mic).toList = [flags] ++ n.toList ++ [BitVec.ofNat 8 (lm / 256), BitVec.ofNat 8 lm]
      ∧ (la = 0 → flags = (match mic with | .m0 => 0x01 | .m4 => 0x09 | .m8 => 0x19 | .m16 => 0x39))
      ∧ (0 < la → flags = (match mic with | .m0 => 0x41 | .m4 => 0x49 | .m8 => 0x59 | .m16 => 0x79)))

/-- Rule R608 (the source's round-trip property): decrypting an encryption gives the message back, for every key, nonce,
associated data, message and MIC length. -/
def Obligations.CcmDecryptInvertsEncrypt : Prop :=
  ∀ (k : Key) (n : Nonce) (a m : List Byte) (mic : MicLen), ccmDecrypt k n a (ccmEncrypt k n a m mic) mic = some m

/-- Rule R620: CCM_DEC. When the three regions fit in BUF and M = 0 or the tag matches, OUT[0:lm) takes the plaintext and
nothing else changes; when M > 0 and the tag does not match, AuthFailure; when they do not fit, FrameTooLarge; neither
error changes anything else. M = 0 never fails. -/
def Obligations.CcmDecResult : Prop :=
  ∀ (mic : MicLen) (s : State),
    let a := s.bufSlice 0 s.alen.toNat
    let c := s.bufSlice s.alen.toNat s.mlen.toNat
    let u := s.bufSlice (s.alen.toNat + s.mlen.toNat) (micBytes mic)
    let m := xorBytes c (keystream s.key s.nonce s.mlen.toNat)
    let tag := xorBytes u ((keystreamBlock s.key s.nonce 0).toList.take (micBytes mic))
    (s.alen.toNat + s.mlen.toNat + micBytes mic ≤ 512 →
      (mic = .m0 ∨ cbcMac s.key s.nonce a m mic = tag →
        ∃ t, exec (.ccmDec mic) s = .next t
          ∧ t = { s with mem := t.mem, seq := .idle, done := true, errCode := .ok }
          ∧ (∀ j, j < s.mlen.toNat → t.outByte j = m.getD j 0)
          ∧ (∀ b, ¬ (outBase ≤ b ∧ b < outBase + s.mlen.toNat) → t.memByte b = s.memByte b))
      ∧ (mic ≠ .m0 → cbcMac s.key s.nonce a m mic ≠ tag →
        exec (.ccmDec mic) s = .next { s with seq := .idle, done := true, errCode := .authFailure }))
    ∧ (512 < s.alen.toNat + s.mlen.toNat + micBytes mic →
      exec (.ccmDec mic) s = .next { s with seq := .idle, done := true, errCode := .frameTooLarge })

/-- Rule R630: CCM_ENC. When input and output fit, OUT[0:lm) takes the message under the keystream and OUT[lm:lm+M) the tag
under S_0, and nothing else changes; otherwise FrameTooLarge. -/
def Obligations.CcmEncResult : Prop :=
  ∀ (mic : MicLen) (s : State),
    let a := s.bufSlice 0 s.alen.toNat
    let m := s.bufSlice s.alen.toNat s.mlen.toNat
    let tag := cbcMac s.key s.nonce a m mic
    (s.alen.toNat + s.mlen.toNat ≤ 512 → s.mlen.toNat + micBytes mic ≤ 512 →
      ∃ t, exec (.ccmEnc mic) s = .next t
        ∧ t = { s with mem := t.mem, seq := .idle, done := true, errCode := .ok }
        ∧ (∀ j, j < s.mlen.toNat →
          t.outByte j = m.getD j 0 ^^^ (keystreamBlock s.key s.nonce (1 + j / 16)).get (j % 16))
        ∧ (∀ j, j < micBytes mic →
          t.outByte (s.mlen.toNat + j) = tag.getD j 0 ^^^ (keystreamBlock s.key s.nonce 0).get j)
        ∧ (∀ b, ¬ (outBase ≤ b ∧ b < outBase + (s.mlen.toNat + micBytes mic)) → t.memByte b = s.memByte b))
    ∧ (512 < s.alen.toNat + s.mlen.toNat ∨ 512 < s.mlen.toNat + micBytes mic →
      exec (.ccmEnc mic) s = .next { s with seq := .idle, done := true, errCode := .frameTooLarge })

/-- Rules R608, R620 and R630 through the block: when the output of a CCM_ENC is put back into BUF after the same associated
data, with the same KEY, NONCE, ALEN, MLEN and MIC length, CCM_DEC completes with OK and OUT holds the message. -/
def Obligations.CcmRoundTripThroughTheBlock : Prop :=
  ∀ (mic : MicLen) (s t u : State),
    s.alen.toNat + s.mlen.toNat + micBytes mic ≤ 512 → exec (.ccmEnc mic) s = .next t →
    u.key = s.key → u.nonce = s.nonce → u.alen = s.alen → u.mlen = s.mlen →
    (∀ j, j < s.alen.toNat → u.bufByte j = s.bufByte j) →
    (∀ j, j < s.mlen.toNat + micBytes mic → u.bufByte (s.alen.toNat + j) = t.outByte j) →
    ∃ v, exec (.ccmDec mic) u = .next v ∧ v.errCode = .ok
      ∧ ∀ j, j < s.mlen.toNat → v.outByte j = s.bufByte (s.alen.toNat + j)

/-! ### Header and nonce (43_header_nonce.md) -/

/-- Rules R703 to R707, R710 and R730: when the checks pass, PARSE_HDR completes with the HDR registers at the decoded fields,
and changes nothing else. The fields are given from the bytes of BUF; MICLEN follows DEFLEVEL alone. -/
def Obligations.ParseHdrDecodesTheHeader : Prop :=
  ∀ s : State,
    let h := s.hoff.toNat
    let wire := (s.bufByte h).toNat
    let extn := wire / 32 % 2
    let keyid := wire / 8 % 4
    let ksnp := if keyid = 1 then 1 else 0
    let level := s.defLevel.toNat
    let mic := match level % 4 with | 0 => 0 | 1 => 4 | 2 => 8 | _ => 16
    let payoff := h + 5 + 8 * extn + ksnp
    let byte (i : Nat) := (s.bufByte i).toNat
    let ksn := if keyid = 1 then byte (h + 5 + 8 * extn) else 0
    s.caplen.toNat ≤ 512 → payoff ≤ s.caplen.toNat → payoff + mic ≤ s.replen.toNat →
    exec .parseHdr s = .next { s with
      hdrCtrl := BitVec.ofNat 32 (wire / 8 * 8 + level + 256 * wire)
      hdrInfo := BitVec.ofNat 32 (level + 8 * keyid + 32 * extn + 64 * (wire / 64 % 2) + 128 * ksnp + 256 * ksn
        + 65536 * mic + 2097152 * (level / 4) + 4194304 * (1 - extn))
      hdrFc := BitVec.ofNat 32 (byte (h + 1) + 256 * byte (h + 2) + 65536 * byte (h + 3) + 16777216 * byte (h + 4))
      hdrExtLo := if extn = 1 then
        BitVec.ofNat 32 (byte (h + 5) + 256 * byte (h + 6) + 65536 * byte (h + 7) + 16777216 * byte (h + 8)) else 0
      hdrExtHi := if extn = 1 then
        BitVec.ofNat 32 (byte (h + 9) + 256 * byte (h + 10) + 65536 * byte (h + 11) + 16777216 * byte (h + 12)) else 0
      hdrPos := BitVec.ofNat 32 (payoff + 65536 * (s.replen.toNat - payoff - mic))
      seq := .idle
      done := true
      errCode := .ok }

/-- Rules R703 and R730: PARSE_HDR raises FrameTooLarge when CAPLEN exceeds the buffer, else HeaderTooShort when the control
byte, the fields it announces or the MIC do not fit, and then changes nothing else. -/
def Obligations.ParseHdrErrors : Prop :=
  ∀ s : State,
    let h := s.hoff.toNat
    let wire := (s.bufByte h).toNat
    let payoff := h + 5 + 8 * (wire / 32 % 2) + (if wire / 8 % 4 = 1 then 1 else 0)
    let mic := match s.defLevel.toNat % 4 with | 0 => 0 | 1 => 4 | 2 => 8 | _ => 16
    let limit := min s.caplen.toNat s.replen.toNat
    (512 < s.caplen.toNat → exec .parseHdr s = .next { s with seq := .idle, done := true, errCode := .frameTooLarge })
    ∧ (s.caplen.toNat ≤ 512 → limit < h + 1 ∨ limit < payoff ∨ s.replen.toNat < payoff + mic →
      exec .parseHdr s = .next { s with seq := .idle, done := true, errCode := .headerTooShort })

/-- Rules R720, R721 and R731: BUILD_NONCE completes with NONCE = LE64(src) ‖ LE32(HDR_FC) ‖ HDR_CTRL[7:0], where src is the
header's extended source if HDR_INFO.EXTN = 1 and the hint otherwise, and changes nothing else; with neither it raises
UnknownSource. -/
def Obligations.BuildNonceResult : Prop :=
  ∀ s : State,
    let nonceOf (lo hi : Word) : List Byte :=
      (List.range 4).map (fun k => lo.extractLsb' (8 * k) 8) ++ (List.range 4).map (fun k => hi.extractLsb' (8 * k) 8)
        ++ (List.range 4).map (fun k => s.hdrFc.extractLsb' (8 * k) 8) ++ [s.hdrCtrl.extractLsb' 0 8]
    (s.hdrInfo.getLsbD 5 = true → exec .buildNonce s = .next { s with
      nonce := .ofList 13 (nonceOf s.hdrExtLo s.hdrExtHi), seq := .idle, done := true, errCode := .ok })
    ∧ (s.hdrInfo.getLsbD 5 = false → s.hintv = true → exec .buildNonce s = .next { s with
      nonce := .ofList 13 (nonceOf s.hintLo s.hintHi), seq := .idle, done := true, errCode := .ok })
    ∧ (s.hdrInfo.getLsbD 5 = false → s.hintv = false → exec .buildNonce s = .next { s with
      seq := .idle, done := true, errCode := .unknownSource })

/-- Rules R702, R351 and R908 (the source's level-override property): two states that differ only in the security-level bits
of the control byte in BUF give, under PARSE_HDR and under DECRYPT_FRAME, the same outcome in everything but HDR_CTRL.WIRE
and BUF itself. (With HOFF of 512 or more BUF holds no control byte, and the parse fails: ParseHdrErrors.) -/
def Obligations.WireLevelBitsAreIgnored : Prop :=
  ∀ (s s' t t' : State) (i : Instr), i = .parseHdr ∨ i = .decryptFrame → s.hoff.toNat < 512 →
    s' = { s with mem := s'.mem } →
    (∀ a, a ≠ bufBase + s.hoff.toNat → s'.memByte a = s.memByte a) →
    (s'.bufByte s.hoff.toNat).extractLsb' 3 5 = (s.bufByte s.hoff.toNat).extractLsb' 3 5 →
    exec i s = .next t → exec i s' = .next t' →
    t' = { t with mem := t'.mem, hdrCtrl := t'.hdrCtrl }
    ∧ t'.hdrCtrl.extractLsb' 0 8 = t.hdrCtrl.extractLsb' 0 8
    ∧ ∀ j, j < 512 → t'.outByte j = t.outByte j

/-! ### The key ring (44_key_ring.md) -/

/-- Rules R830 and R1102: SESSION_RESET completes with the global list empty and every flow slot invalid, KCOUNT reading 0,
and changes nothing else. -/
def Obligations.SessionResetEmptiesTheKeyStore : Prop :=
  ∀ s : State, ∃ t, exec .sessionReset s = .next t
    ∧ t = { s with globalKeys := [], flows := t.flows, seq := .idle, done := true, errCode := .ok }
    ∧ (∀ i, i < 8 → t.flows.get i = none) ∧ t.kcountWord = 0

/-- Rule R835, a flow that has a slot: a key not in its list is appended with LABEL and TAG if there is room, else RingFull;
a key already in its list changes nothing and is no error. Nothing else changes. -/
def Obligations.RegKeyIntoAnAllocatedFlow : Prop :=
  ∀ (s : State) (j : Nat) (f : Flow), s.Inv → j < 8 → s.flows.get j = some f → f.netid = s.netid →
    (s.key ∈ keysOf f.keys → exec .regKey s = .next { s with seq := .idle, done := true, errCode := .ok })
    ∧ (s.key ∉ keysOf f.keys → f.keys.length = 8 →
      exec .regKey s = .next { s with seq := .idle, done := true, errCode := .ringFull })
    ∧ (s.key ∉ keysOf f.keys → f.keys.length < 8 → exec .regKey s = .next { s with
      flows := s.flows.set j (some { f with keys := f.keys ++ [{ key := s.key, label := s.label, tag := s.tag }] })
      seq := .idle
      done := true
      errCode := .ok })

/-- Rules R812 and R835, a NETID without a slot: the lowest invalid slot is allocated with the one key and an empty cache; with
every slot valid, RingFull. Nothing else changes. -/
def Obligations.RegKeyAllocatesTheLowestFreeSlot : Prop :=
  ∀ s : State, (∀ j f, j < 8 → s.flows.get j = some f → f.netid ≠ s.netid) →
    (∀ j, j < 8 → s.flows.get j = none → (∀ k, k < j → s.flows.get k ≠ none) → exec .regKey s = .next { s with
      flows := s.flows.set j (some
        { netid := s.netid
          keys := [{ key := s.key, label := s.label, tag := s.tag }]
          cache := { link := none, network := none, transport := none, load := none } })
      seq := .idle
      done := true
      errCode := .ok })
    ∧ ((∀ j, j < 8 → s.flows.get j ≠ none) →
      exec .regKey s = .next { s with seq := .idle, done := true, errCode := .ringFull })

/-- Rule R840: ADD_GKEY appends KEY, byte-reversed if REV = 1, with LABEL and TAG; a key already in the list after reversal
changes nothing and is no error, and needs no room; a full list gives RingFull. Nothing else changes. -/
def Obligations.AddGkeyResult : Prop :=
  ∀ (rev : Bool) (s : State) (k : Key),
    (∀ i, i < 16 → k.get i = if rev then s.key.get (15 - i) else s.key.get i) →
    (k ∈ keysOf s.globalKeys → exec (.addGkey rev) s = .next { s with seq := .idle, done := true, errCode := .ok })
    ∧ (k ∉ keysOf s.globalKeys → s.globalKeys.length = 16 →
      exec (.addGkey rev) s = .next { s with seq := .idle, done := true, errCode := .ringFull })
    ∧ (k ∉ keysOf s.globalKeys → s.globalKeys.length < 16 → exec (.addGkey rev) s = .next { s with
      globalKeys := s.globalKeys ++ [{ key := k, label := s.label, tag := s.tag }]
      seq := .idle
      done := true
      errCode := .ok })

/-- Rule R845: LOOKUP_LABEL with a non-zero LABEL gives RES the key of the first record with that label, the global list
before the flow slots; without one, or with LABEL = 0, NotFound. Nothing else changes. -/
def Obligations.LookupLabelResult : Prop :=
  ∀ s : State,
    let records := s.globalKeys ++ s.flows.toList.flatMap fun f => f.elim [] Flow.keys
    (∀ before r after, s.label ≠ 0 → records = before ++ r :: after → (∀ q ∈ before, q.label ≠ s.label) →
      r.label = s.label →
      exec .lookupLabel s = .next { s with res := r.key, seq := .idle, done := true, errCode := .ok })
    ∧ (s.label = 0 ∨ (∀ q ∈ records, q.label ≠ s.label) →
      exec .lookupLabel s = .next { s with seq := .idle, done := true, errCode := .notFound })

/-- Rule R133: a stored record is never modified and leaves the store only through SESSION_RESET or a reset. Every other step
keeps each list as a prefix of what it becomes, and each valid slot valid with its netid. -/
def Obligations.KeyRecordsAreNeverModified : Prop :=
  ∀ s t : State, step s = .next t →
    (∀ w, s.seq = .busy w → isSessionReset w = false) →
    (∀ e rest, s.inputs = e :: rest → e ≠ .assertReset ∧ e ≠ .releaseReset) →
    s.globalKeys <+: t.globalKeys
    ∧ ∀ j f, j < 8 → s.flows.get j = some f →
      ∃ f', t.flows.get j = some f' ∧ f'.netid = f.netid ∧ f.keys <+: f'.keys

/-- Rules R813 and R814: the candidates of a frame are the flow's cached key for its key kind, then the flow's keys from the
last to the first, then the global keys from the first to the last, each with its source and index; there are at most
1 + N_FLOW_KEYS + N_GLOBAL = 25. A NETID without a slot has the global keys alone. -/
def Obligations.CandidatesComeInOrder : Prop :=
  ∀ (s : State) (k : KeyId), s.Inv →
    (∀ j f, j < 8 → s.flows.get j = some f →
      let c := (f.cache.entry k).toList.length
      let n := f.keys.length
      let cs := s.candidates k f.netid
      cs.length = c + n + s.globalKeys.length ∧ cs.length ≤ 25
      ∧ (∀ r, f.cache.entry k = some r → cs[0]? = some { raw := r, source := .flowCache, index := k.code.toNat })
      ∧ (∀ p, p < n → cs[c + p]? =
        (f.keys[n - 1 - p]?).map fun r => { raw := r.key, source := .flowList, index := n - 1 - p })
      ∧ (∀ p, p < s.globalKeys.length → cs[c + n + p]? =
        (s.globalKeys[p]?).map fun r => { raw := r.key, source := .globalList, index := p }))
    ∧ (∀ n, (∀ j f, j < 8 → s.flows.get j = some f → f.netid ≠ n) →
      (s.candidates k n).length = s.globalKeys.length
      ∧ ∀ p, p < s.globalKeys.length → (s.candidates k n)[p]? =
        (s.globalKeys[p]?).map fun r => { raw := r.key, source := .globalList, index := p })

/-- Rules R821 and R322: KEYID 0 is Link, 1 Network, 2 Transport and 3 Load, and the trial key is the raw key for Link and
Network, keyed_hash(r, 0x00) for Transport and keyed_hash(r, 0x02) for Load. -/
def Obligations.TrialKeysFollowTheKeyKind : Prop :=
  (∀ r : Key, trialKey r .link = r ∧ trialKey r .network = r ∧ trialKey r .transport = keyedHash r 0x00
    ∧ trialKey r .load = keyedHash r 0x02)
  ∧ (∀ r : Key, trialKey r (keyIdOfCode 0) = r ∧ trialKey r (keyIdOfCode 1) = r
    ∧ trialKey r (keyIdOfCode 2) = keyedHash r 0x00 ∧ trialKey r (keyIdOfCode 3) = keyedHash r 0x02)
  ∧ keyIdOfCode 0 = .link ∧ keyIdOfCode 1 = .network ∧ keyIdOfCode 2 = .transport ∧ keyIdOfCode 3 = .load
  ∧ KeyId.link.code = 0 ∧ KeyId.network.code = 1 ∧ KeyId.transport.code = 2 ∧ KeyId.load.code = 3

/-! ### DECRYPT_FRAME and NOP (45_frame_decrypt.md) -/

/-- Rule R920: NOP completes with OK and changes only STATUS. -/
def Obligations.NopChangesOnlyStatus : Prop :=
  ∀ s : State, exec .nop s = .next { s with seq := .idle, done := true, errCode := .ok }

/-- Rules R900, R909, R911, R1000 and R1020: the errors of DECRYPT_FRAME before any trial, the first that applies: an error of the
parse writes RESULT = 3 alone; TruncatedCiphertext and UnknownSource write the HDR registers and RESULT = 3. -/
def Obligations.DecryptFrameEarlyErrors : Prop :=
  ∀ s : State,
    (∀ e, parse s = .error e →
      exec .decryptFrame s = .next { s with result := 3, seq := .idle, done := true, errCode := e })
    ∧ (∀ hd, parse s = .ok hd → s.caplen.toNat < s.replen.toNat →
      exec .decryptFrame s = .next { s.setHeader hd with
        result := 3, seq := .idle, done := true, errCode := .truncatedCiphertext })
    ∧ (∀ hd, parse s = .ok hd → s.replen.toNat ≤ s.caplen.toNat → hd.ctrl.extractLsb' 0 3 ≠ 0 →
      (hd.ctrl.getLsbD 2 = true ∨ s.ipol = false) → hd.ctrl.getLsbD 5 = false → s.hintv = false →
      exec .decryptFrame s = .next { s.setHeader hd with
        result := 3, seq := .idle, done := true, errCode := .unknownSource })

/-- Rules R902, R906 and R911: a frame at level 0, or at levels 1 to 3 with IPOL = 1, completes with OK and RESULT = 1 without a
trial: OUT[0:PAYLEN) takes the payload, and besides the HDR registers nothing else changes. -/
def Obligations.UncheckedFramesAreReturnedAsTheyStand : Prop :=
  ∀ (s : State) (hd : Header), parse s = .ok hd → s.replen.toNat ≤ s.caplen.toNat →
    (hd.ctrl.extractLsb' 0 3 = 0 ∨ (hd.ctrl.getLsbD 2 = false ∧ s.ipol = true)) →
    ∃ t, exec .decryptFrame s = .next t
      ∧ t = { s.setHeader hd with mem := t.mem, result := 1, seq := .idle, done := true, errCode := .ok }
      ∧ (∀ j, j < hd.paylen → t.outByte j = s.bufByte (hd.payoff + j))
      ∧ (∀ b, ¬ (outBase ≤ b ∧ b < outBase + hd.paylen) → t.memByte b = s.memByte b)

/-- Rules R820, R822, R900, R903 to R905, R907, R910 and R911: when the source resolves and some candidate is the first whose trial
succeeds, DECRYPT_FRAME completes with OK: NONCE is the frame's nonce, OUT[0:PAYLEN) the plaintext (at levels 1 to 3 the payload
as it stands), RES the raw key, RESULT says kind, source, index and number of trials with the numbers of rule R122, the cache
takes the raw key, and nothing else changes. -/
def Obligations.FirstVerifyingCandidateDecryptsTheFrame : Prop :=
  ∀ (s : State) (hd : Header) (src : BitVec 64) (before after : List Candidate) (c : Candidate) (m : List Byte),
    let enc := hd.ctrl.getLsbD 2
    let keyId := keyIdOfCode (hd.ctrl.extractLsb' 3 2)
    let mic := micLenOfBits (hd.ctrl.extractLsb' 0 2)
    let nonce := buildNonce src hd.fc hd.ctrl
    let payload := s.bufSlice hd.payoff hd.paylen
    let tail := s.bufSlice (hd.payoff + hd.paylen) (micBytes mic)
    let aad := s.bufSlice 0 s.hoff.toNat ++ [hd.ctrl] ++ s.bufSlice (s.hoff.toNat + 1) (hd.payoff - (s.hoff.toNat + 1))
    let trial (d : Candidate) := ccmDecrypt (trialKey d.raw keyId) nonce (if enc then aad else aad ++ payload)
      (if enc then payload ++ tail else tail) mic
    parse s = .ok hd → s.replen.toNat ≤ s.caplen.toNat →
    (enc = true ∨ (hd.ctrl.extractLsb' 0 2 ≠ 0 ∧ s.ipol = false)) →
    (if hd.ctrl.getLsbD 5 then src = hd.ext else s.hintv = true ∧ src = s.hintHi ++ s.hintLo) →
    s.candidates keyId s.netid = before ++ c :: after → (∀ d ∈ before, trial d = none) → trial c = some m →
    ∃ t, exec .decryptFrame s = .next t
      ∧ t = { s.setHeader hd with
        nonce := nonce
        mem := t.mem
        res := c.raw
        result := BitVec.ofNat 32 ((if enc then 2 else 1)
          + 4 * (match c.source with | .noKey => 0 | .flowCache => 1 | .flowList => 2 | .globalList => 3)
          + 256 * (c.index % 256) + 65536 * (before.length + 1))
        flows := FlowTable.cacheWrite s.flows s.netid keyId c.raw
        seq := .idle
        done := true
        errCode := .ok }
      ∧ (∀ j, j < hd.paylen → t.outByte j = if enc then m.getD j 0 else s.bufByte (hd.payoff + j))
      ∧ (∀ b, ¬ (outBase ≤ b ∧ b < outBase + hd.paylen) → t.memByte b = s.memByte b)

/-- Rules R820, R900, R907, R910 and R911: when the source resolves and no candidate verifies (there may be none),
DECRYPT_FRAME raises AuthFailure: RESULT says Failed (KIND = 3) and the number of trials, NONCE is the frame's nonce, the HDR registers are
written, and OUT, RES and the key store are unchanged. -/
def Obligations.FrameWithoutAVerifyingKeyFails : Prop :=
  ∀ (s : State) (hd : Header) (src : BitVec 64),
    parse s = .ok hd → s.replen.toNat ≤ s.caplen.toNat → s.skipsAuth hd = false →
    s.resolveSource hd.extn hd.ext = some src →
    (∀ d ∈ s.candidates hd.keyId s.netid, s.tryKey hd (buildNonce src hd.fc hd.ctrl) d = none) →
    exec .decryptFrame s = .next { s.setHeader hd with
      nonce := buildNonce src hd.fc hd.ctrl
      result := BitVec.ofNat 32 (3 + 65536 * (s.candidates hd.keyId s.netid).length)
      seq := .idle
      done := true
      errCode := .authFailure }

/-- Rules R812 and R822: the cache write. With a slot for NETID its cache entry for the key kind takes the raw key; with none,
the lowest invalid slot is allocated with no keys and that entry alone; with every slot valid nothing is written. -/
def Obligations.CacheWriteStoresTheRawKey : Prop :=
  ∀ (t : FlowTable) (n : Half) (k : KeyId) (r : Key),
    (∀ j f, j < 8 → t.get j = some f → f.netid = n → (∀ i g, i < j → t.get i = some g → g.netid ≠ n) →
      FlowTable.cacheWrite t n k r = t.set j (some { f with cache := f.cache.store k r }))
    ∧ (∀ j, j < 8 → (∀ i g, i < 8 → t.get i = some g → g.netid ≠ n) → t.get j = none →
      (∀ i, i < j → t.get i ≠ none) →
      FlowTable.cacheWrite t n k r =
        t.set j (some { netid := n, keys := [], cache := FlowCache.store FlowCache.empty k r }))
    ∧ ((∀ i, i < 8 → ∃ g, t.get i = some g ∧ g.netid ≠ n) → FlowTable.cacheWrite t n k r = t)
    ∧ (∀ (c : FlowCache) (k' : KeyId), (c.store k r).entry k' = if k' = k then some r else c.entry k')

/-- Rule R823: the verdict of DECRYPT_FRAME does not depend on the cache. In a state that meets the invariant, emptying every
cache entry changes neither ERRCODE nor RESULT.KIND. -/
def Obligations.CacheDoesNotChangeTheVerdict : Prop :=
  ∀ s t t' : State, s.Inv → exec .decryptFrame s = .next t → exec .decryptFrame s.withoutCaches = .next t' →
    t'.errCode = t.errCode ∧ t'.result.extractLsb' 0 2 = t.result.extractLsb' 0 2

/-- Rules R822, R824 and R912: after a frame was decrypted with a key, and a slot for its NETID could be had, a second
DECRYPT_FRAME of the same frame gives the same verdict and output from one trial with the cached key. -/
def Obligations.SecondRunTriesOnlyTheCachedKey : Prop :=
  ∀ s t u : State, exec .decryptFrame s = .next t → t.errCode = .ok → t.result.extractLsb' 2 2 ≠ 0 →
    (∃ j, j < 8 ∧ (s.flows.get j = none ∨ ∃ f, s.flows.get j = some f ∧ f.netid = s.netid)) →
    exec .decryptFrame t = .next u →
    u.errCode = .ok
    ∧ u.result.extractLsb' 0 2 = t.result.extractLsb' 0 2
    ∧ u.result.extractLsb' 2 2 = 1
    ∧ u.result.extractLsb' 8 8 = (t.hdrInfo.extractLsb' 3 2).setWidth 8
    ∧ u.result.extractLsb' 16 16 = 1
    ∧ u.res = t.res
    ∧ ∀ j, j < 512 → u.outByte j = t.outByte j

/-- Rules R143, R812 and R910: what DECRYPT_FRAME may change besides STATUS is the HDR registers, NONCE, OUT, RES, RESULT, the
cache of NETID's flow slot and one slot's allocation; it changes OUT, RES and the flow table only when it completes with OK. A
valid slot stays valid with its netid and its keys, and wholly as it is if it is not NETID's; at most one slot is allocated,
for NETID and without keys. -/
def Obligations.DecryptFrameFrame : Prop :=
  ∀ s t : State, exec .decryptFrame s = .next t →
    t = { s with
      hdrCtrl := t.hdrCtrl
      hdrInfo := t.hdrInfo
      hdrFc := t.hdrFc
      hdrExtLo := t.hdrExtLo
      hdrExtHi := t.hdrExtHi
      hdrPos := t.hdrPos
      nonce := t.nonce
      mem := t.mem
      res := t.res
      result := t.result
      flows := t.flows
      seq := .idle
      done := true
      errCode := t.errCode }
    ∧ (∀ a, ¬ (outBase ≤ a ∧ a < outBase + (t.hdrPos.extractLsb' 16 16).toNat) → t.memByte a = s.memByte a)
    ∧ (t.errCode ≠ .ok → t.mem = s.mem ∧ t.res = s.res ∧ t.flows = s.flows)
    ∧ (∀ j f, j < 8 → s.flows.get j = some f →
        ∃ f', t.flows.get j = some f' ∧ f'.netid = f.netid ∧ f'.keys = f.keys ∧ (f.netid ≠ s.netid → f' = f))
    ∧ (∀ j f, j < 8 → s.flows.get j = none → t.flows.get j = some f → f.netid = s.netid ∧ f.keys = [])
    ∧ (∀ i j, i < 8 → j < 8 → s.flows.get i = none → t.flows.get i ≠ none → s.flows.get j = none → t.flows.get j ≠ none →
        i = j)

/-- Rules R1111 and R1121: the number of AES calls of every command. `countedCommand` runs the command with a cipher that counts
its calls, and its next state is the one `exec` answers; `aesCalls` is its count. The table of rule R1121 follows command by
command: a command that raises an error before its transform makes no call, and a frame makes RESULT.TRIALS times the calls of
one trial, its lengths read from the HDR registers. So every command's work is bounded. -/
def Obligations.WorkOfEveryCommandFollowsTheTable : Prop :=
  let blocks (n : Nat) : Nat := (n + 15) / 16
  let transform (la lm m : Nat) : Nat :=
    if m = 0 then blocks lm else 1 + blocks lm + 1 + ((if la = 0 then 0 else blocks (2 + la)) + blocks lm)
  (∀ (i : Instr) (s : State), exec i s = .next (countedCommand i s).value ∧ aesCalls i s = (countedCommand i s).calls)
  ∧ ∀ s : State,
    (∀ i ∈ ([.nop, .parseHdr, .buildNonce, .regKey, .addGkey false, .addGkey true, .lookupLabel, .sessionReset] : List Instr),
      aesCalls i s = 0)
    ∧ aesCalls .aesEnc s = 1
    ∧ aesCalls .mmoHash s = (if s.alen.toNat ≤ 512 then blocks (s.alen.toNat + 3) else 0)
    ∧ (∀ imm8, aesCalls (.keyedHash imm8) s = 5)
    ∧ (∀ mic, aesCalls (.ccmDec mic) s =
      if s.alen.toNat + s.mlen.toNat + micBytes mic ≤ 512 then transform s.alen.toNat s.mlen.toNat (micBytes mic) else 0)
    ∧ (∀ mic, aesCalls (.ccmEnc mic) s =
      if s.alen.toNat + s.mlen.toNat ≤ 512 ∧ s.mlen.toNat + micBytes mic ≤ 512
      then transform s.alen.toNat s.mlen.toNat (micBytes mic) else 0)
    ∧ (s.Inv → ∀ t, exec .decryptFrame s = .next t →
      let payoff := (t.hdrPos.extractLsb' 0 16).toNat
      let paylen := (t.hdrPos.extractLsb' 16 16).toNat
      let m := (t.hdrInfo.extractLsb' 16 5).toNat
      let enc := t.hdrInfo.getLsbD 21
      aesCalls .decryptFrame s = (t.result.extractLsb' 16 16).toNat
        * (transform (if enc then payoff else payoff + paylen) (if enc then paylen else 0) m
          + (if 2 ≤ (t.hdrInfo.extractLsb' 3 2).toNat then 5 else 0))
      ∧ aesCalls .decryptFrame s ≤ 25 * 73)
    ∧ (∀ i, i ≠ .decryptFrame → aesCalls i s ≤ 68)

/-! ### Reset and the invariant (70_reset_and_hazards.md) -/

/-- Rules R1100 and R1101: asserting reset puts every piece of state at its reset value, whatever was going on: a running command
is abandoned with no commit and irq is deasserted; BUF and OUT take new draws. While reset is asserted no access is served and
no command runs. Its release gives the reset values again. The second clause gives the table of R1101 in its own terms. That
each edge of the reset input draws BUF and OUT anew, and that an access during reset gets no response at all, is the model's
choice (log entry 7). -/
def Obligations.ResetPutsEverythingAtItsResetValue : Prop :=
  (∀ (s : State) (e : HostEvent) (rest : List HostEvent), s.inputs = e :: rest →
    (e = .assertReset →
      step s = .next { State.reset with inReset := true, inputs := rest, draws := s.draws, epoch := s.epoch + 1 })
    ∧ (s.inReset = true → e ≠ .assertReset → e ≠ .releaseReset →
      step s = .next { s with inputs := rest, resp := none })
    ∧ (s.inReset = true → e = .releaseReset →
      step s = .next { State.reset with inputs := rest, draws := s.draws, epoch := s.epoch + 1 }))
  ∧ (∀ (t : State) (level : Bool) (rest : List HostEvent) (draws epoch : Nat),
    t = { State.reset with inReset := level, inputs := rest, draws := draws, epoch := epoch } →
    t.seq = .idle ∧ t.irq = false ∧ t.globalKeys = [] ∧ (∀ i, i < 8 → t.flows.get i = none)
    ∧ (∀ a, a < 0x100 → t.registerWord a =
      if a = 0x000 then 0x5A534543 else if a = 0x004 then 0x0000000A else if a = 0x05C then 0x00000200
      else if a = 0x060 then 0x00080810 else 0)
    ∧ (∀ a, 0x100 ≤ a → a < 0x400 → t.windowByte a = 0)
    ∧ (∀ a, t.memByte a = Config.resetByte epoch a))

/-- Rules R130 to R132, R812, R813, R823, R115, R116, R122, R1100 and R1110: the state right after reset meets the invariant. -/
def Obligations.ResetMeetsTheInvariant : Prop := State.reset.Inv

/-- Rules R130 to R132, R812, R813, R823, R115, R116, R122, R1100 and R1110: every step keeps the invariant. The memory stays
canonical, the lists stay within their capacities and free of duplicates, at most one slot has a netid, every cached key stays
listed, reserved result bits stay 0, TRIALS stays at most 25, and BUSY goes with a clean STATUS and the word in CMD. -/
def Obligations.EveryStepKeepsTheInvariant : Prop :=
  ∀ s t : State, s.Inv → step s = .next t → t.Inv
end

