-- ==== Sys2Proof/Laws/Bytes.lean ====
section
/-! SUPPORT. Lemmas about fixed lists, byte strings and the encodings of integers. -/

namespace Sys2Proof

theorem FixedList.ext {α : Type} {n : Nat} {v w : FixedList α n} (h : v.toList = w.toList) : v = w := by
  cases v; cases w; cases h; rfl

@[simp] theorem FixedList.length_toList {α : Type} {n : Nat} (v : FixedList α n) : v.toList.length = n := v.length_eq

@[simp] theorem FixedList.toList_set {α : Type} {n : Nat} (v : FixedList α n) (i : Nat) (x : α) :
    (v.set i x).toList = v.toList.set i x := rfl

@[simp] theorem FixedList.toList_replicate {α : Type} (n : Nat) (x : α) :
    (FixedList.replicate n x).toList = List.replicate n x := rfl

theorem FixedList.get_eq_getElem {α : Type} {n : Nat} [Inhabited α] (v : FixedList α n) (i : Nat) (h : i < n) :
    v.get i = v.toList[i]'(by rw [v.length_eq]; exact h) := by
  simp [FixedList.get, h]

theorem FixedList.get_mem {α : Type} {n : Nat} [Inhabited α] (v : FixedList α n) (i : Nat) (h : i < n) :
    v.get i ∈ v.toList := by
  rw [v.get_eq_getElem i h]; exact List.getElem_mem _

/-- Reading after writing one element. -/
theorem FixedList.get_set {α : Type} {n : Nat} [Inhabited α] (v : FixedList α n) (i j : Nat) (x : α) (h : i < n) :
    (v.set i x).get j = if j = i then x else v.get j := by
  by_cases hj : j < n
  · rw [FixedList.get_eq_getElem _ _ hj, FixedList.get_eq_getElem _ _ hj]
    simp only [FixedList.toList_set, List.getElem_set]
    simp [eq_comm]
  · have h1 : ¬ j = i := by omega
    simp [FixedList.get, List.getD, h1, show n ≤ j by omega]

/-- A string of the right length is not changed by cutting or filling. -/
theorem FixedList.toList_ofList {α : Type} [Inhabited α] (n : Nat) (l : List α) (h : l.length = n) :
    (FixedList.ofList n l).toList = l := by
  subst h; simp [FixedList.ofList]

namespace Machine

@[simp] theorem leBytes_length (n v : Nat) : (leBytes n v).length = n := by
  induction n generalizing v with
  | zero => rfl
  | succ n ih => simp [leBytes, ih]

@[simp] theorem beBytes_length (n v : Nat) : (beBytes n v).length = n := by simp [beBytes]

/-- `fromLE` is the inverse of `LE_n` (00_scope.md rule R11). -/
theorem fromLE_leBytes (n v : Nat) : fromLE (leBytes n v) = v % 256 ^ n := by
  induction n generalizing v with
  | zero => simp [leBytes, fromLE, Nat.mod_one]
  | succ n ih =>
    simp only [leBytes, fromLE, ih, BitVec.toNat_ofNat]
    rw [show 256 ^ (n + 1) = 256 * 256 ^ n by rw [Nat.pow_succ, Nat.mul_comm], Nat.mod_mul]

theorem leBytes_fromLE (l : List Byte) : leBytes l.length (fromLE l) = l := by
  induction l with
  | nil => rfl
  | cons b l ih =>
    have hb := b.isLt
    simp only [fromLE, List.length_cons, leBytes]
    congr 1
    · apply BitVec.eq_of_toNat_eq; simp; omega
    · rw [show (b.toNat + 256 * fromLE l) / 256 = fromLE l by omega, ih]

theorem fromLE_lt (l : List Byte) : fromLE l < 256 ^ l.length := by
  induction l with
  | nil => simp [fromLE]
  | cons b l ih =>
    have hb := b.isLt
    simp only [fromLE, List.length_cons, Nat.pow_succ]; omega

@[simp] theorem xorBytes_length (x y : List Byte) : (xorBytes x y).length = min x.length y.length := by
  simp [xorBytes]

/-- Adding the same string twice gives the first one back. -/
theorem xorBytes_cancel (x k : List Byte) (h : x.length ≤ k.length) : xorBytes (xorBytes x k) k = x := by
  induction x generalizing k with
  | nil => simp [xorBytes]
  | cons b x ih =>
    cases k with
    | nil => simp at h
    | cons c k =>
      have := ih k (by simpa using h)
      simp only [xorBytes, List.zipWith_cons_cons] at this ⊢
      rw [this, BitVec.xor_assoc, BitVec.xor_self, BitVec.xor_zero]

theorem xorBytes_take (n : Nat) (x y : List Byte) : (xorBytes x y).take n = xorBytes (x.take n) (y.take n) := by
  simp [xorBytes, List.take_zipWith]

@[simp] theorem bytesXor_toList {n : Nat} (x y : Bytes n) : (Bytes.xor x y).toList = xorBytes x.toList y.toList := rfl

@[simp] theorem blocksOf_length (l : List Byte) : (blocksOf l).length = l.length / 16 := by simp [blocksOf]

theorem micBytes_le (m : MicLen) : micBytes m ≤ 16 := by cases m <;> decide

theorem micBytes_eq_zero_iff (m : MicLen) : micBytes m = 0 ↔ m = .m0 := by cases m <;> decide

/-- The check on the associated data never fires for data that fits in the buffers (42_ccm_star.md rule R609). -/
theorem aadTooLong_of_le (n : Nat) (h : n ≤ 2 * Config.bufLen) : aadTooLong n = false := by
  have hb : Config.bufLen = 512 := rfl
  have : ¬ (n + 15) / 16 > 65536 := by omega
  simp [aadTooLong, blocksFor, this]

end Machine
end Sys2Proof
end

