-- ==== Sys2Proof/Laws/State.lean ====
section
/-! SUPPORT. One lemma per field per update of the state, each true by unfolding the update once. -/

namespace Sys2Proof.Machine

/-! ### the completion event -/

@[simp] theorem State.finish_seq (s : State) (e : ErrCode) : (s.finish e).seq = .idle := rfl
@[simp] theorem State.finish_done (s : State) (e : ErrCode) : (s.finish e).done = true := rfl
@[simp] theorem State.finish_werr (s : State) (e : ErrCode) : (s.finish e).werr = s.werr := rfl
@[simp] theorem State.finish_errCode (s : State) (e : ErrCode) : (s.finish e).errCode = e := rfl
@[simp] theorem State.finish_ie (s : State) (e : ErrCode) : (s.finish e).ie = s.ie := rfl
@[simp] theorem State.finish_defLevel (s : State) (e : ErrCode) : (s.finish e).defLevel = s.defLevel := rfl
@[simp] theorem State.finish_ipol (s : State) (e : ErrCode) : (s.finish e).ipol = s.ipol := rfl
@[simp] theorem State.finish_cmd (s : State) (e : ErrCode) : (s.finish e).cmd = s.cmd := rfl
@[simp] theorem State.finish_alen (s : State) (e : ErrCode) : (s.finish e).alen = s.alen := rfl
@[simp] theorem State.finish_mlen (s : State) (e : ErrCode) : (s.finish e).mlen = s.mlen := rfl
@[simp] theorem State.finish_caplen (s : State) (e : ErrCode) : (s.finish e).caplen = s.caplen := rfl
@[simp] theorem State.finish_replen (s : State) (e : ErrCode) : (s.finish e).replen = s.replen := rfl
@[simp] theorem State.finish_hoff (s : State) (e : ErrCode) : (s.finish e).hoff = s.hoff := rfl
@[simp] theorem State.finish_netid (s : State) (e : ErrCode) : (s.finish e).netid = s.netid := rfl
@[simp] theorem State.finish_hintLo (s : State) (e : ErrCode) : (s.finish e).hintLo = s.hintLo := rfl
@[simp] theorem State.finish_hintHi (s : State) (e : ErrCode) : (s.finish e).hintHi = s.hintHi := rfl
@[simp] theorem State.finish_hintv (s : State) (e : ErrCode) : (s.finish e).hintv = s.hintv := rfl
@[simp] theorem State.finish_label (s : State) (e : ErrCode) : (s.finish e).label = s.label := rfl
@[simp] theorem State.finish_tag (s : State) (e : ErrCode) : (s.finish e).tag = s.tag := rfl
@[simp] theorem State.finish_hdrCtrl (s : State) (e : ErrCode) : (s.finish e).hdrCtrl = s.hdrCtrl := rfl
@[simp] theorem State.finish_hdrInfo (s : State) (e : ErrCode) : (s.finish e).hdrInfo = s.hdrInfo := rfl
@[simp] theorem State.finish_hdrFc (s : State) (e : ErrCode) : (s.finish e).hdrFc = s.hdrFc := rfl
@[simp] theorem State.finish_hdrExtLo (s : State) (e : ErrCode) : (s.finish e).hdrExtLo = s.hdrExtLo := rfl
@[simp] theorem State.finish_hdrExtHi (s : State) (e : ErrCode) : (s.finish e).hdrExtHi = s.hdrExtHi := rfl
@[simp] theorem State.finish_hdrPos (s : State) (e : ErrCode) : (s.finish e).hdrPos = s.hdrPos := rfl
@[simp] theorem State.finish_result (s : State) (e : ErrCode) : (s.finish e).result = s.result := rfl
@[simp] theorem State.finish_key (s : State) (e : ErrCode) : (s.finish e).key = s.key := rfl
@[simp] theorem State.finish_nonce (s : State) (e : ErrCode) : (s.finish e).nonce = s.nonce := rfl
@[simp] theorem State.finish_blk (s : State) (e : ErrCode) : (s.finish e).blk = s.blk := rfl
@[simp] theorem State.finish_res (s : State) (e : ErrCode) : (s.finish e).res = s.res := rfl
@[simp] theorem State.finish_mem (s : State) (e : ErrCode) : (s.finish e).mem = s.mem := rfl
@[simp] theorem State.finish_globalKeys (s : State) (e : ErrCode) : (s.finish e).globalKeys = s.globalKeys := rfl
@[simp] theorem State.finish_flows (s : State) (e : ErrCode) : (s.finish e).flows = s.flows := rfl
@[simp] theorem State.finish_inReset (s : State) (e : ErrCode) : (s.finish e).inReset = s.inReset := rfl
@[simp] theorem State.finish_inputs (s : State) (e : ErrCode) : (s.finish e).inputs = s.inputs := rfl
@[simp] theorem State.finish_resp (s : State) (e : ErrCode) : (s.finish e).resp = s.resp := rfl
@[simp] theorem State.finish_draws (s : State) (e : ErrCode) : (s.finish e).draws = s.draws := rfl
@[simp] theorem State.finish_epoch (s : State) (e : ErrCode) : (s.finish e).epoch = s.epoch := rfl

@[simp] theorem State.finish_alenN (s : State) (e : ErrCode) : (s.finish e).alenN = s.alenN := rfl
@[simp] theorem State.finish_mlenN (s : State) (e : ErrCode) : (s.finish e).mlenN = s.mlenN := rfl
@[simp] theorem State.finish_caplenN (s : State) (e : ErrCode) : (s.finish e).caplenN = s.caplenN := rfl
@[simp] theorem State.finish_replenN (s : State) (e : ErrCode) : (s.finish e).replenN = s.replenN := rfl
@[simp] theorem State.finish_hoffN (s : State) (e : ErrCode) : (s.finish e).hoffN = s.hoffN := rfl
@[simp] theorem State.finish_hint (s : State) (e : ErrCode) : (s.finish e).hint = s.hint := rfl
@[simp] theorem State.finish_memByte (s : State) (e : ErrCode) (a : Nat) : (s.finish e).memByte a = s.memByte a := rfl
@[simp] theorem State.finish_bufByte (s : State) (e : ErrCode) (i : Nat) : (s.finish e).bufByte i = s.bufByte i := rfl
@[simp] theorem State.finish_outByte (s : State) (e : ErrCode) (i : Nat) : (s.finish e).outByte i = s.outByte i := rfl
@[simp] theorem State.finish_bufSlice (s : State) (e : ErrCode) (i k : Nat) : (s.finish e).bufSlice i k = s.bufSlice i k := rfl

/-! ### a write to OUT -/

@[simp] theorem State.setOut_seq (s : State) (b : List Byte) : (s.setOut b).seq = s.seq := rfl
@[simp] theorem State.setOut_done (s : State) (b : List Byte) : (s.setOut b).done = s.done := rfl
@[simp] theorem State.setOut_werr (s : State) (b : List Byte) : (s.setOut b).werr = s.werr := rfl
@[simp] theorem State.setOut_errCode (s : State) (b : List Byte) : (s.setOut b).errCode = s.errCode := rfl
@[simp] theorem State.setOut_ie (s : State) (b : List Byte) : (s.setOut b).ie = s.ie := rfl
@[simp] theorem State.setOut_defLevel (s : State) (b : List Byte) : (s.setOut b).defLevel = s.defLevel := rfl
@[simp] theorem State.setOut_ipol (s : State) (b : List Byte) : (s.setOut b).ipol = s.ipol := rfl
@[simp] theorem State.setOut_cmd (s : State) (b : List Byte) : (s.setOut b).cmd = s.cmd := rfl
@[simp] theorem State.setOut_alen (s : State) (b : List Byte) : (s.setOut b).alen = s.alen := rfl
@[simp] theorem State.setOut_mlen (s : State) (b : List Byte) : (s.setOut b).mlen = s.mlen := rfl
@[simp] theorem State.setOut_caplen (s : State) (b : List Byte) : (s.setOut b).caplen = s.caplen := rfl
@[simp] theorem State.setOut_replen (s : State) (b : List Byte) : (s.setOut b).replen = s.replen := rfl
@[simp] theorem State.setOut_hoff (s : State) (b : List Byte) : (s.setOut b).hoff = s.hoff := rfl
@[simp] theorem State.setOut_netid (s : State) (b : List Byte) : (s.setOut b).netid = s.netid := rfl
@[simp] theorem State.setOut_hintLo (s : State) (b : List Byte) : (s.setOut b).hintLo = s.hintLo := rfl
@[simp] theorem State.setOut_hintHi (s : State) (b : List Byte) : (s.setOut b).hintHi = s.hintHi := rfl
@[simp] theorem State.setOut_hintv (s : State) (b : List Byte) : (s.setOut b).hintv = s.hintv := rfl
@[simp] theorem State.setOut_label (s : State) (b : List Byte) : (s.setOut b).label = s.label := rfl
@[simp] theorem State.setOut_tag (s : State) (b : List Byte) : (s.setOut b).tag = s.tag := rfl
@[simp] theorem State.setOut_hdrCtrl (s : State) (b : List Byte) : (s.setOut b).hdrCtrl = s.hdrCtrl := rfl
@[simp] theorem State.setOut_hdrInfo (s : State) (b : List Byte) : (s.setOut b).hdrInfo = s.hdrInfo := rfl
@[simp] theorem State.setOut_hdrFc (s : State) (b : List Byte) : (s.setOut b).hdrFc = s.hdrFc := rfl
@[simp] theorem State.setOut_hdrExtLo (s : State) (b : List Byte) : (s.setOut b).hdrExtLo = s.hdrExtLo := rfl
@[simp] theorem State.setOut_hdrExtHi (s : State) (b : List Byte) : (s.setOut b).hdrExtHi = s.hdrExtHi := rfl
@[simp] theorem State.setOut_hdrPos (s : State) (b : List Byte) : (s.setOut b).hdrPos = s.hdrPos := rfl
@[simp] theorem State.setOut_result (s : State) (b : List Byte) : (s.setOut b).result = s.result := rfl
@[simp] theorem State.setOut_key (s : State) (b : List Byte) : (s.setOut b).key = s.key := rfl
@[simp] theorem State.setOut_nonce (s : State) (b : List Byte) : (s.setOut b).nonce = s.nonce := rfl
@[simp] theorem State.setOut_blk (s : State) (b : List Byte) : (s.setOut b).blk = s.blk := rfl
@[simp] theorem State.setOut_res (s : State) (b : List Byte) : (s.setOut b).res = s.res := rfl
@[simp] theorem State.setOut_mem (s : State) (b : List Byte) : (s.setOut b).mem = Memory.insertAll s.mem outBase b := rfl
@[simp] theorem State.setOut_globalKeys (s : State) (b : List Byte) : (s.setOut b).globalKeys = s.globalKeys := rfl
@[simp] theorem State.setOut_flows (s : State) (b : List Byte) : (s.setOut b).flows = s.flows := rfl
@[simp] theorem State.setOut_inReset (s : State) (b : List Byte) : (s.setOut b).inReset = s.inReset := rfl
@[simp] theorem State.setOut_inputs (s : State) (b : List Byte) : (s.setOut b).inputs = s.inputs := rfl
@[simp] theorem State.setOut_resp (s : State) (b : List Byte) : (s.setOut b).resp = s.resp := rfl
@[simp] theorem State.setOut_draws (s : State) (b : List Byte) : (s.setOut b).draws = s.draws := rfl
@[simp] theorem State.setOut_epoch (s : State) (b : List Byte) : (s.setOut b).epoch = s.epoch := rfl

@[simp] theorem State.setOut_alenN (s : State) (b : List Byte) : (s.setOut b).alenN = s.alenN := rfl
@[simp] theorem State.setOut_mlenN (s : State) (b : List Byte) : (s.setOut b).mlenN = s.mlenN := rfl
@[simp] theorem State.setOut_caplenN (s : State) (b : List Byte) : (s.setOut b).caplenN = s.caplenN := rfl
@[simp] theorem State.setOut_replenN (s : State) (b : List Byte) : (s.setOut b).replenN = s.replenN := rfl
@[simp] theorem State.setOut_hoffN (s : State) (b : List Byte) : (s.setOut b).hoffN = s.hoffN := rfl
@[simp] theorem State.setOut_hint (s : State) (b : List Byte) : (s.setOut b).hint = s.hint := rfl
@[simp] theorem State.setOut_busy (s : State) (b : List Byte) : (s.setOut b).busy = s.busy := rfl

/-! ### a write to RES -/

@[simp] theorem State.setRes_seq (s : State) (b : Block) : (s.setRes b).seq = s.seq := rfl
@[simp] theorem State.setRes_done (s : State) (b : Block) : (s.setRes b).done = s.done := rfl
@[simp] theorem State.setRes_werr (s : State) (b : Block) : (s.setRes b).werr = s.werr := rfl
@[simp] theorem State.setRes_errCode (s : State) (b : Block) : (s.setRes b).errCode = s.errCode := rfl
@[simp] theorem State.setRes_ie (s : State) (b : Block) : (s.setRes b).ie = s.ie := rfl
@[simp] theorem State.setRes_defLevel (s : State) (b : Block) : (s.setRes b).defLevel = s.defLevel := rfl
@[simp] theorem State.setRes_ipol (s : State) (b : Block) : (s.setRes b).ipol = s.ipol := rfl
@[simp] theorem State.setRes_cmd (s : State) (b : Block) : (s.setRes b).cmd = s.cmd := rfl
@[simp] theorem State.setRes_alen (s : State) (b : Block) : (s.setRes b).alen = s.alen := rfl
@[simp] theorem State.setRes_mlen (s : State) (b : Block) : (s.setRes b).mlen = s.mlen := rfl
@[simp] theorem State.setRes_caplen (s : State) (b : Block) : (s.setRes b).caplen = s.caplen := rfl
@[simp] theorem State.setRes_replen (s : State) (b : Block) : (s.setRes b).replen = s.replen := rfl
@[simp] theorem State.setRes_hoff (s : State) (b : Block) : (s.setRes b).hoff = s.hoff := rfl
@[simp] theorem State.setRes_netid (s : State) (b : Block) : (s.setRes b).netid = s.netid := rfl
@[simp] theorem State.setRes_hintLo (s : State) (b : Block) : (s.setRes b).hintLo = s.hintLo := rfl
@[simp] theorem State.setRes_hintHi (s : State) (b : Block) : (s.setRes b).hintHi = s.hintHi := rfl
@[simp] theorem State.setRes_hintv (s : State) (b : Block) : (s.setRes b).hintv = s.hintv := rfl
@[simp] theorem State.setRes_label (s : State) (b : Block) : (s.setRes b).label = s.label := rfl
@[simp] theorem State.setRes_tag (s : State) (b : Block) : (s.setRes b).tag = s.tag := rfl
@[simp] theorem State.setRes_hdrCtrl (s : State) (b : Block) : (s.setRes b).hdrCtrl = s.hdrCtrl := rfl
@[simp] theorem State.setRes_hdrInfo (s : State) (b : Block) : (s.setRes b).hdrInfo = s.hdrInfo := rfl
@[simp] theorem State.setRes_hdrFc (s : State) (b : Block) : (s.setRes b).hdrFc = s.hdrFc := rfl
@[simp] theorem State.setRes_hdrExtLo (s : State) (b : Block) : (s.setRes b).hdrExtLo = s.hdrExtLo := rfl
@[simp] theorem State.setRes_hdrExtHi (s : State) (b : Block) : (s.setRes b).hdrExtHi = s.hdrExtHi := rfl
@[simp] theorem State.setRes_hdrPos (s : State) (b : Block) : (s.setRes b).hdrPos = s.hdrPos := rfl
@[simp] theorem State.setRes_result (s : State) (b : Block) : (s.setRes b).result = s.result := rfl
@[simp] theorem State.setRes_key (s : State) (b : Block) : (s.setRes b).key = s.key := rfl
@[simp] theorem State.setRes_nonce (s : State) (b : Block) : (s.setRes b).nonce = s.nonce := rfl
@[simp] theorem State.setRes_blk (s : State) (b : Block) : (s.setRes b).blk = s.blk := rfl
@[simp] theorem State.setRes_res (s : State) (b : Block) : (s.setRes b).res = b := rfl
@[simp] theorem State.setRes_mem (s : State) (b : Block) : (s.setRes b).mem = s.mem := rfl
@[simp] theorem State.setRes_globalKeys (s : State) (b : Block) : (s.setRes b).globalKeys = s.globalKeys := rfl
@[simp] theorem State.setRes_flows (s : State) (b : Block) : (s.setRes b).flows = s.flows := rfl
@[simp] theorem State.setRes_inReset (s : State) (b : Block) : (s.setRes b).inReset = s.inReset := rfl
@[simp] theorem State.setRes_inputs (s : State) (b : Block) : (s.setRes b).inputs = s.inputs := rfl
@[simp] theorem State.setRes_resp (s : State) (b : Block) : (s.setRes b).resp = s.resp := rfl
@[simp] theorem State.setRes_draws (s : State) (b : Block) : (s.setRes b).draws = s.draws := rfl
@[simp] theorem State.setRes_epoch (s : State) (b : Block) : (s.setRes b).epoch = s.epoch := rfl

@[simp] theorem State.setRes_alenN (s : State) (b : Block) : (s.setRes b).alenN = s.alenN := rfl
@[simp] theorem State.setRes_mlenN (s : State) (b : Block) : (s.setRes b).mlenN = s.mlenN := rfl
@[simp] theorem State.setRes_caplenN (s : State) (b : Block) : (s.setRes b).caplenN = s.caplenN := rfl
@[simp] theorem State.setRes_replenN (s : State) (b : Block) : (s.setRes b).replenN = s.replenN := rfl
@[simp] theorem State.setRes_hoffN (s : State) (b : Block) : (s.setRes b).hoffN = s.hoffN := rfl
@[simp] theorem State.setRes_hint (s : State) (b : Block) : (s.setRes b).hint = s.hint := rfl
@[simp] theorem State.setRes_memByte (s : State) (b : Block) (a : Nat) : (s.setRes b).memByte a = s.memByte a := rfl
@[simp] theorem State.setRes_bufByte (s : State) (b : Block) (i : Nat) : (s.setRes b).bufByte i = s.bufByte i := rfl
@[simp] theorem State.setRes_outByte (s : State) (b : Block) (i : Nat) : (s.setRes b).outByte i = s.outByte i := rfl
@[simp] theorem State.setRes_bufSlice (s : State) (b : Block) (i k : Nat) : (s.setRes b).bufSlice i k = s.bufSlice i k := rfl
@[simp] theorem State.setRes_busy (s : State) (b : Block) : (s.setRes b).busy = s.busy := rfl

/-! ### a write to NONCE -/

@[simp] theorem State.setNonce_seq (s : State) (n : Nonce) : (s.setNonce n).seq = s.seq := rfl
@[simp] theorem State.setNonce_done (s : State) (n : Nonce) : (s.setNonce n).done = s.done := rfl
@[simp] theorem State.setNonce_werr (s : State) (n : Nonce) : (s.setNonce n).werr = s.werr := rfl
@[simp] theorem State.setNonce_errCode (s : State) (n : Nonce) : (s.setNonce n).errCode = s.errCode := rfl
@[simp] theorem State.setNonce_ie (s : State) (n : Nonce) : (s.setNonce n).ie = s.ie := rfl
@[simp] theorem State.setNonce_defLevel (s : State) (n : Nonce) : (s.setNonce n).defLevel = s.defLevel := rfl
@[simp] theorem State.setNonce_ipol (s : State) (n : Nonce) : (s.setNonce n).ipol = s.ipol := rfl
@[simp] theorem State.setNonce_cmd (s : State) (n : Nonce) : (s.setNonce n).cmd = s.cmd := rfl
@[simp] theorem State.setNonce_alen (s : State) (n : Nonce) : (s.setNonce n).alen = s.alen := rfl
@[simp] theorem State.setNonce_mlen (s : State) (n : Nonce) : (s.setNonce n).mlen = s.mlen := rfl
@[simp] theorem State.setNonce_caplen (s : State) (n : Nonce) : (s.setNonce n).caplen = s.caplen := rfl
@[simp] theorem State.setNonce_replen (s : State) (n : Nonce) : (s.setNonce n).replen = s.replen := rfl
@[simp] theorem State.setNonce_hoff (s : State) (n : Nonce) : (s.setNonce n).hoff = s.hoff := rfl
@[simp] theorem State.setNonce_netid (s : State) (n : Nonce) : (s.setNonce n).netid = s.netid := rfl
@[simp] theorem State.setNonce_hintLo (s : State) (n : Nonce) : (s.setNonce n).hintLo = s.hintLo := rfl
@[simp] theorem State.setNonce_hintHi (s : State) (n : Nonce) : (s.setNonce n).hintHi = s.hintHi := rfl
@[simp] theorem State.setNonce_hintv (s : State) (n : Nonce) : (s.setNonce n).hintv = s.hintv := rfl
@[simp] theorem State.setNonce_label (s : State) (n : Nonce) : (s.setNonce n).label = s.label := rfl
@[simp] theorem State.setNonce_tag (s : State) (n : Nonce) : (s.setNonce n).tag = s.tag := rfl
@[simp] theorem State.setNonce_hdrCtrl (s : State) (n : Nonce) : (s.setNonce n).hdrCtrl = s.hdrCtrl := rfl
@[simp] theorem State.setNonce_hdrInfo (s : State) (n : Nonce) : (s.setNonce n).hdrInfo = s.hdrInfo := rfl
@[simp] theorem State.setNonce_hdrFc (s : State) (n : Nonce) : (s.setNonce n).hdrFc = s.hdrFc := rfl
@[simp] theorem State.setNonce_hdrExtLo (s : State) (n : Nonce) : (s.setNonce n).hdrExtLo = s.hdrExtLo := rfl
@[simp] theorem State.setNonce_hdrExtHi (s : State) (n : Nonce) : (s.setNonce n).hdrExtHi = s.hdrExtHi := rfl
@[simp] theorem State.setNonce_hdrPos (s : State) (n : Nonce) : (s.setNonce n).hdrPos = s.hdrPos := rfl
@[simp] theorem State.setNonce_result (s : State) (n : Nonce) : (s.setNonce n).result = s.result := rfl
@[simp] theorem State.setNonce_key (s : State) (n : Nonce) : (s.setNonce n).key = s.key := rfl
@[simp] theorem State.setNonce_nonce (s : State) (n : Nonce) : (s.setNonce n).nonce = n := rfl
@[simp] theorem State.setNonce_blk (s : State) (n : Nonce) : (s.setNonce n).blk = s.blk := rfl
@[simp] theorem State.setNonce_res (s : State) (n : Nonce) : (s.setNonce n).res = s.res := rfl
@[simp] theorem State.setNonce_mem (s : State) (n : Nonce) : (s.setNonce n).mem = s.mem := rfl
@[simp] theorem State.setNonce_globalKeys (s : State) (n : Nonce) : (s.setNonce n).globalKeys = s.globalKeys := rfl
@[simp] theorem State.setNonce_flows (s : State) (n : Nonce) : (s.setNonce n).flows = s.flows := rfl
@[simp] theorem State.setNonce_inReset (s : State) (n : Nonce) : (s.setNonce n).inReset = s.inReset := rfl
@[simp] theorem State.setNonce_inputs (s : State) (n : Nonce) : (s.setNonce n).inputs = s.inputs := rfl
@[simp] theorem State.setNonce_resp (s : State) (n : Nonce) : (s.setNonce n).resp = s.resp := rfl
@[simp] theorem State.setNonce_draws (s : State) (n : Nonce) : (s.setNonce n).draws = s.draws := rfl
@[simp] theorem State.setNonce_epoch (s : State) (n : Nonce) : (s.setNonce n).epoch = s.epoch := rfl

@[simp] theorem State.setNonce_alenN (s : State) (n : Nonce) : (s.setNonce n).alenN = s.alenN := rfl
@[simp] theorem State.setNonce_mlenN (s : State) (n : Nonce) : (s.setNonce n).mlenN = s.mlenN := rfl
@[simp] theorem State.setNonce_caplenN (s : State) (n : Nonce) : (s.setNonce n).caplenN = s.caplenN := rfl
@[simp] theorem State.setNonce_replenN (s : State) (n : Nonce) : (s.setNonce n).replenN = s.replenN := rfl
@[simp] theorem State.setNonce_hoffN (s : State) (n : Nonce) : (s.setNonce n).hoffN = s.hoffN := rfl
@[simp] theorem State.setNonce_hint (s : State) (n : Nonce) : (s.setNonce n).hint = s.hint := rfl
@[simp] theorem State.setNonce_memByte (s : State) (n : Nonce) (a : Nat) : (s.setNonce n).memByte a = s.memByte a := rfl
@[simp] theorem State.setNonce_bufByte (s : State) (n : Nonce) (i : Nat) : (s.setNonce n).bufByte i = s.bufByte i := rfl
@[simp] theorem State.setNonce_outByte (s : State) (n : Nonce) (i : Nat) : (s.setNonce n).outByte i = s.outByte i := rfl
@[simp] theorem State.setNonce_bufSlice (s : State) (n : Nonce) (i k : Nat) : (s.setNonce n).bufSlice i k = s.bufSlice i k := rfl
@[simp] theorem State.setNonce_busy (s : State) (n : Nonce) : (s.setNonce n).busy = s.busy := rfl

/-! ### a write to RESULT -/

@[simp] theorem State.setResult_seq (s : State) (w : Word) : (s.setResult w).seq = s.seq := rfl
@[simp] theorem State.setResult_done (s : State) (w : Word) : (s.setResult w).done = s.done := rfl
@[simp] theorem State.setResult_werr (s : State) (w : Word) : (s.setResult w).werr = s.werr := rfl
@[simp] theorem State.setResult_errCode (s : State) (w : Word) : (s.setResult w).errCode = s.errCode := rfl
@[simp] theorem State.setResult_ie (s : State) (w : Word) : (s.setResult w).ie = s.ie := rfl
@[simp] theorem State.setResult_defLevel (s : State) (w : Word) : (s.setResult w).defLevel = s.defLevel := rfl
@[simp] theorem State.setResult_ipol (s : State) (w : Word) : (s.setResult w).ipol = s.ipol := rfl
@[simp] theorem State.setResult_cmd (s : State) (w : Word) : (s.setResult w).cmd = s.cmd := rfl
@[simp] theorem State.setResult_alen (s : State) (w : Word) : (s.setResult w).alen = s.alen := rfl
@[simp] theorem State.setResult_mlen (s : State) (w : Word) : (s.setResult w).mlen = s.mlen := rfl
@[simp] theorem State.setResult_caplen (s : State) (w : Word) : (s.setResult w).caplen = s.caplen := rfl
@[simp] theorem State.setResult_replen (s : State) (w : Word) : (s.setResult w).replen = s.replen := rfl
@[simp] theorem State.setResult_hoff (s : State) (w : Word) : (s.setResult w).hoff = s.hoff := rfl
@[simp] theorem State.setResult_netid (s : State) (w : Word) : (s.setResult w).netid = s.netid := rfl
@[simp] theorem State.setResult_hintLo (s : State) (w : Word) : (s.setResult w).hintLo = s.hintLo := rfl
@[simp] theorem State.setResult_hintHi (s : State) (w : Word) : (s.setResult w).hintHi = s.hintHi := rfl
@[simp] theorem State.setResult_hintv (s : State) (w : Word) : (s.setResult w).hintv = s.hintv := rfl
@[simp] theorem State.setResult_label (s : State) (w : Word) : (s.setResult w).label = s.label := rfl
@[simp] theorem State.setResult_tag (s : State) (w : Word) : (s.setResult w).tag = s.tag := rfl
@[simp] theorem State.setResult_hdrCtrl (s : State) (w : Word) : (s.setResult w).hdrCtrl = s.hdrCtrl := rfl
@[simp] theorem State.setResult_hdrInfo (s : State) (w : Word) : (s.setResult w).hdrInfo = s.hdrInfo := rfl
@[simp] theorem State.setResult_hdrFc (s : State) (w : Word) : (s.setResult w).hdrFc = s.hdrFc := rfl
@[simp] theorem State.setResult_hdrExtLo (s : State) (w : Word) : (s.setResult w).hdrExtLo = s.hdrExtLo := rfl
@[simp] theorem State.setResult_hdrExtHi (s : State) (w : Word) : (s.setResult w).hdrExtHi = s.hdrExtHi := rfl
@[simp] theorem State.setResult_hdrPos (s : State) (w : Word) : (s.setResult w).hdrPos = s.hdrPos := rfl
@[simp] theorem State.setResult_result (s : State) (w : Word) : (s.setResult w).result = w := rfl
@[simp] theorem State.setResult_key (s : State) (w : Word) : (s.setResult w).key = s.key := rfl
@[simp] theorem State.setResult_nonce (s : State) (w : Word) : (s.setResult w).nonce = s.nonce := rfl
@[simp] theorem State.setResult_blk (s : State) (w : Word) : (s.setResult w).blk = s.blk := rfl
@[simp] theorem State.setResult_res (s : State) (w : Word) : (s.setResult w).res = s.res := rfl
@[simp] theorem State.setResult_mem (s : State) (w : Word) : (s.setResult w).mem = s.mem := rfl
@[simp] theorem State.setResult_globalKeys (s : State) (w : Word) : (s.setResult w).globalKeys = s.globalKeys := rfl
@[simp] theorem State.setResult_flows (s : State) (w : Word) : (s.setResult w).flows = s.flows := rfl
@[simp] theorem State.setResult_inReset (s : State) (w : Word) : (s.setResult w).inReset = s.inReset := rfl
@[simp] theorem State.setResult_inputs (s : State) (w : Word) : (s.setResult w).inputs = s.inputs := rfl
@[simp] theorem State.setResult_resp (s : State) (w : Word) : (s.setResult w).resp = s.resp := rfl
@[simp] theorem State.setResult_draws (s : State) (w : Word) : (s.setResult w).draws = s.draws := rfl
@[simp] theorem State.setResult_epoch (s : State) (w : Word) : (s.setResult w).epoch = s.epoch := rfl

@[simp] theorem State.setResult_alenN (s : State) (w : Word) : (s.setResult w).alenN = s.alenN := rfl
@[simp] theorem State.setResult_mlenN (s : State) (w : Word) : (s.setResult w).mlenN = s.mlenN := rfl
@[simp] theorem State.setResult_caplenN (s : State) (w : Word) : (s.setResult w).caplenN = s.caplenN := rfl
@[simp] theorem State.setResult_replenN (s : State) (w : Word) : (s.setResult w).replenN = s.replenN := rfl
@[simp] theorem State.setResult_hoffN (s : State) (w : Word) : (s.setResult w).hoffN = s.hoffN := rfl
@[simp] theorem State.setResult_hint (s : State) (w : Word) : (s.setResult w).hint = s.hint := rfl
@[simp] theorem State.setResult_memByte (s : State) (w : Word) (a : Nat) : (s.setResult w).memByte a = s.memByte a := rfl
@[simp] theorem State.setResult_bufByte (s : State) (w : Word) (i : Nat) : (s.setResult w).bufByte i = s.bufByte i := rfl
@[simp] theorem State.setResult_outByte (s : State) (w : Word) (i : Nat) : (s.setResult w).outByte i = s.outByte i := rfl
@[simp] theorem State.setResult_bufSlice (s : State) (w : Word) (i k : Nat) : (s.setResult w).bufSlice i k = s.bufSlice i k := rfl
@[simp] theorem State.setResult_busy (s : State) (w : Word) : (s.setResult w).busy = s.busy := rfl

/-! ### a change of the global list -/

@[simp] theorem State.setGlobalKeys_seq (s : State) (g : List KeyRecord) : (s.setGlobalKeys g).seq = s.seq := rfl
@[simp] theorem State.setGlobalKeys_done (s : State) (g : List KeyRecord) : (s.setGlobalKeys g).done = s.done := rfl
@[simp] theorem State.setGlobalKeys_werr (s : State) (g : List KeyRecord) : (s.setGlobalKeys g).werr = s.werr := rfl
@[simp] theorem State.setGlobalKeys_errCode (s : State) (g : List KeyRecord) : (s.setGlobalKeys g).errCode = s.errCode := rfl
@[simp] theorem State.setGlobalKeys_ie (s : State) (g : List KeyRecord) : (s.setGlobalKeys g).ie = s.ie := rfl
@[simp] theorem State.setGlobalKeys_defLevel (s : State) (g : List KeyRecord) : (s.setGlobalKeys g).defLevel = s.defLevel := rfl
@[simp] theorem State.setGlobalKeys_ipol (s : State) (g : List KeyRecord) : (s.setGlobalKeys g).ipol = s.ipol := rfl
@[simp] theorem State.setGlobalKeys_cmd (s : State) (g : List KeyRecord) : (s.setGlobalKeys g).cmd = s.cmd := rfl
@[simp] theorem State.setGlobalKeys_alen (s : State) (g : List KeyRecord) : (s.setGlobalKeys g).alen = s.alen := rfl
@[simp] theorem State.setGlobalKeys_mlen (s : State) (g : List KeyRecord) : (s.setGlobalKeys g).mlen = s.mlen := rfl
@[simp] theorem State.setGlobalKeys_caplen (s : State) (g : List KeyRecord) : (s.setGlobalKeys g).caplen = s.caplen := rfl
@[simp] theorem State.setGlobalKeys_replen (s : State) (g : List KeyRecord) : (s.setGlobalKeys g).replen = s.replen := rfl
@[simp] theorem State.setGlobalKeys_hoff (s : State) (g : List KeyRecord) : (s.setGlobalKeys g).hoff = s.hoff := rfl
@[simp] theorem State.setGlobalKeys_netid (s : State) (g : List KeyRecord) : (s.setGlobalKeys g).netid = s.netid := rfl
@[simp] theorem State.setGlobalKeys_hintLo (s : State) (g : List KeyRecord) : (s.setGlobalKeys g).hintLo = s.hintLo := rfl
@[simp] theorem State.setGlobalKeys_hintHi (s : State) (g : List KeyRecord) : (s.setGlobalKeys g).hintHi = s.hintHi := rfl
@[simp] theorem State.setGlobalKeys_hintv (s : State) (g : List KeyRecord) : (s.setGlobalKeys g).hintv = s.hintv := rfl
@[simp] theorem State.setGlobalKeys_label (s : State) (g : List KeyRecord) : (s.setGlobalKeys g).label = s.label := rfl
@[simp] theorem State.setGlobalKeys_tag (s : State) (g : List KeyRecord) : (s.setGlobalKeys g).tag = s.tag := rfl
@[simp] theorem State.setGlobalKeys_hdrCtrl (s : State) (g : List KeyRecord) : (s.setGlobalKeys g).hdrCtrl = s.hdrCtrl := rfl
@[simp] theorem State.setGlobalKeys_hdrInfo (s : State) (g : List KeyRecord) : (s.setGlobalKeys g).hdrInfo = s.hdrInfo := rfl
@[simp] theorem State.setGlobalKeys_hdrFc (s : State) (g : List KeyRecord) : (s.setGlobalKeys g).hdrFc = s.hdrFc := rfl
@[simp] theorem State.setGlobalKeys_hdrExtLo (s : State) (g : List KeyRecord) : (s.setGlobalKeys g).hdrExtLo = s.hdrExtLo := rfl
@[simp] theorem State.setGlobalKeys_hdrExtHi (s : State) (g : List KeyRecord) : (s.setGlobalKeys g).hdrExtHi = s.hdrExtHi := rfl
@[simp] theorem State.setGlobalKeys_hdrPos (s : State) (g : List KeyRecord) : (s.setGlobalKeys g).hdrPos = s.hdrPos := rfl
@[simp] theorem State.setGlobalKeys_result (s : State) (g : List KeyRecord) : (s.setGlobalKeys g).result = s.result := rfl
@[simp] theorem State.setGlobalKeys_key (s : State) (g : List KeyRecord) : (s.setGlobalKeys g).key = s.key := rfl
@[simp] theorem State.setGlobalKeys_nonce (s : State) (g : List KeyRecord) : (s.setGlobalKeys g).nonce = s.nonce := rfl
@[simp] theorem State.setGlobalKeys_blk (s : State) (g : List KeyRecord) : (s.setGlobalKeys g).blk = s.blk := rfl
@[simp] theorem State.setGlobalKeys_res (s : State) (g : List KeyRecord) : (s.setGlobalKeys g).res = s.res := rfl
@[simp] theorem State.setGlobalKeys_mem (s : State) (g : List KeyRecord) : (s.setGlobalKeys g).mem = s.mem := rfl
@[simp] theorem State.setGlobalKeys_globalKeys (s : State) (g : List KeyRecord) : (s.setGlobalKeys g).globalKeys = g := rfl
@[simp] theorem State.setGlobalKeys_flows (s : State) (g : List KeyRecord) : (s.setGlobalKeys g).flows = s.flows := rfl
@[simp] theorem State.setGlobalKeys_inReset (s : State) (g : List KeyRecord) : (s.setGlobalKeys g).inReset = s.inReset := rfl
@[simp] theorem State.setGlobalKeys_inputs (s : State) (g : List KeyRecord) : (s.setGlobalKeys g).inputs = s.inputs := rfl
@[simp] theorem State.setGlobalKeys_resp (s : State) (g : List KeyRecord) : (s.setGlobalKeys g).resp = s.resp := rfl
@[simp] theorem State.setGlobalKeys_draws (s : State) (g : List KeyRecord) : (s.setGlobalKeys g).draws = s.draws := rfl
@[simp] theorem State.setGlobalKeys_epoch (s : State) (g : List KeyRecord) : (s.setGlobalKeys g).epoch = s.epoch := rfl

@[simp] theorem State.setGlobalKeys_alenN (s : State) (g : List KeyRecord) : (s.setGlobalKeys g).alenN = s.alenN := rfl
@[simp] theorem State.setGlobalKeys_mlenN (s : State) (g : List KeyRecord) : (s.setGlobalKeys g).mlenN = s.mlenN := rfl
@[simp] theorem State.setGlobalKeys_caplenN (s : State) (g : List KeyRecord) : (s.setGlobalKeys g).caplenN = s.caplenN := rfl
@[simp] theorem State.setGlobalKeys_replenN (s : State) (g : List KeyRecord) : (s.setGlobalKeys g).replenN = s.replenN := rfl
@[simp] theorem State.setGlobalKeys_hoffN (s : State) (g : List KeyRecord) : (s.setGlobalKeys g).hoffN = s.hoffN := rfl
@[simp] theorem State.setGlobalKeys_hint (s : State) (g : List KeyRecord) : (s.setGlobalKeys g).hint = s.hint := rfl
@[simp] theorem State.setGlobalKeys_memByte (s : State) (g : List KeyRecord) (a : Nat) : (s.setGlobalKeys g).memByte a = s.memByte a := rfl
@[simp] theorem State.setGlobalKeys_bufByte (s : State) (g : List KeyRecord) (i : Nat) : (s.setGlobalKeys g).bufByte i = s.bufByte i := rfl
@[simp] theorem State.setGlobalKeys_outByte (s : State) (g : List KeyRecord) (i : Nat) : (s.setGlobalKeys g).outByte i = s.outByte i := rfl
@[simp] theorem State.setGlobalKeys_bufSlice (s : State) (g : List KeyRecord) (i k : Nat) : (s.setGlobalKeys g).bufSlice i k = s.bufSlice i k := rfl
@[simp] theorem State.setGlobalKeys_busy (s : State) (g : List KeyRecord) : (s.setGlobalKeys g).busy = s.busy := rfl

/-! ### a change of the flow table -/

@[simp] theorem State.setFlows_seq (s : State) (t : FlowTable) : (s.setFlows t).seq = s.seq := rfl
@[simp] theorem State.setFlows_done (s : State) (t : FlowTable) : (s.setFlows t).done = s.done := rfl
@[simp] theorem State.setFlows_werr (s : State) (t : FlowTable) : (s.setFlows t).werr = s.werr := rfl
@[simp] theorem State.setFlows_errCode (s : State) (t : FlowTable) : (s.setFlows t).errCode = s.errCode := rfl
@[simp] theorem State.setFlows_ie (s : State) (t : FlowTable) : (s.setFlows t).ie = s.ie := rfl
@[simp] theorem State.setFlows_defLevel (s : State) (t : FlowTable) : (s.setFlows t).defLevel = s.defLevel := rfl
@[simp] theorem State.setFlows_ipol (s : State) (t : FlowTable) : (s.setFlows t).ipol = s.ipol := rfl
@[simp] theorem State.setFlows_cmd (s : State) (t : FlowTable) : (s.setFlows t).cmd = s.cmd := rfl
@[simp] theorem State.setFlows_alen (s : State) (t : FlowTable) : (s.setFlows t).alen = s.alen := rfl
@[simp] theorem State.setFlows_mlen (s : State) (t : FlowTable) : (s.setFlows t).mlen = s.mlen := rfl
@[simp] theorem State.setFlows_caplen (s : State) (t : FlowTable) : (s.setFlows t).caplen = s.caplen := rfl
@[simp] theorem State.setFlows_replen (s : State) (t : FlowTable) : (s.setFlows t).replen = s.replen := rfl
@[simp] theorem State.setFlows_hoff (s : State) (t : FlowTable) : (s.setFlows t).hoff = s.hoff := rfl
@[simp] theorem State.setFlows_netid (s : State) (t : FlowTable) : (s.setFlows t).netid = s.netid := rfl
@[simp] theorem State.setFlows_hintLo (s : State) (t : FlowTable) : (s.setFlows t).hintLo = s.hintLo := rfl
@[simp] theorem State.setFlows_hintHi (s : State) (t : FlowTable) : (s.setFlows t).hintHi = s.hintHi := rfl
@[simp] theorem State.setFlows_hintv (s : State) (t : FlowTable) : (s.setFlows t).hintv = s.hintv := rfl
@[simp] theorem State.setFlows_label (s : State) (t : FlowTable) : (s.setFlows t).label = s.label := rfl
@[simp] theorem State.setFlows_tag (s : State) (t : FlowTable) : (s.setFlows t).tag = s.tag := rfl
@[simp] theorem State.setFlows_hdrCtrl (s : State) (t : FlowTable) : (s.setFlows t).hdrCtrl = s.hdrCtrl := rfl
@[simp] theorem State.setFlows_hdrInfo (s : State) (t : FlowTable) : (s.setFlows t).hdrInfo = s.hdrInfo := rfl
@[simp] theorem State.setFlows_hdrFc (s : State) (t : FlowTable) : (s.setFlows t).hdrFc = s.hdrFc := rfl
@[simp] theorem State.setFlows_hdrExtLo (s : State) (t : FlowTable) : (s.setFlows t).hdrExtLo = s.hdrExtLo := rfl
@[simp] theorem State.setFlows_hdrExtHi (s : State) (t : FlowTable) : (s.setFlows t).hdrExtHi = s.hdrExtHi := rfl
@[simp] theorem State.setFlows_hdrPos (s : State) (t : FlowTable) : (s.setFlows t).hdrPos = s.hdrPos := rfl
@[simp] theorem State.setFlows_result (s : State) (t : FlowTable) : (s.setFlows t).result = s.result := rfl
@[simp] theorem State.setFlows_key (s : State) (t : FlowTable) : (s.setFlows t).key = s.key := rfl
@[simp] theorem State.setFlows_nonce (s : State) (t : FlowTable) : (s.setFlows t).nonce = s.nonce := rfl
@[simp] theorem State.setFlows_blk (s : State) (t : FlowTable) : (s.setFlows t).blk = s.blk := rfl
@[simp] theorem State.setFlows_res (s : State) (t : FlowTable) : (s.setFlows t).res = s.res := rfl
@[simp] theorem State.setFlows_mem (s : State) (t : FlowTable) : (s.setFlows t).mem = s.mem := rfl
@[simp] theorem State.setFlows_globalKeys (s : State) (t : FlowTable) : (s.setFlows t).globalKeys = s.globalKeys := rfl
@[simp] theorem State.setFlows_flows (s : State) (t : FlowTable) : (s.setFlows t).flows = t := rfl
@[simp] theorem State.setFlows_inReset (s : State) (t : FlowTable) : (s.setFlows t).inReset = s.inReset := rfl
@[simp] theorem State.setFlows_inputs (s : State) (t : FlowTable) : (s.setFlows t).inputs = s.inputs := rfl
@[simp] theorem State.setFlows_resp (s : State) (t : FlowTable) : (s.setFlows t).resp = s.resp := rfl
@[simp] theorem State.setFlows_draws (s : State) (t : FlowTable) : (s.setFlows t).draws = s.draws := rfl
@[simp] theorem State.setFlows_epoch (s : State) (t : FlowTable) : (s.setFlows t).epoch = s.epoch := rfl

@[simp] theorem State.setFlows_alenN (s : State) (t : FlowTable) : (s.setFlows t).alenN = s.alenN := rfl
@[simp] theorem State.setFlows_mlenN (s : State) (t : FlowTable) : (s.setFlows t).mlenN = s.mlenN := rfl
@[simp] theorem State.setFlows_caplenN (s : State) (t : FlowTable) : (s.setFlows t).caplenN = s.caplenN := rfl
@[simp] theorem State.setFlows_replenN (s : State) (t : FlowTable) : (s.setFlows t).replenN = s.replenN := rfl
@[simp] theorem State.setFlows_hoffN (s : State) (t : FlowTable) : (s.setFlows t).hoffN = s.hoffN := rfl
@[simp] theorem State.setFlows_hint (s : State) (t : FlowTable) : (s.setFlows t).hint = s.hint := rfl
@[simp] theorem State.setFlows_memByte (s : State) (t : FlowTable) (a : Nat) : (s.setFlows t).memByte a = s.memByte a := rfl
@[simp] theorem State.setFlows_bufByte (s : State) (t : FlowTable) (i : Nat) : (s.setFlows t).bufByte i = s.bufByte i := rfl
@[simp] theorem State.setFlows_outByte (s : State) (t : FlowTable) (i : Nat) : (s.setFlows t).outByte i = s.outByte i := rfl
@[simp] theorem State.setFlows_bufSlice (s : State) (t : FlowTable) (i k : Nat) : (s.setFlows t).bufSlice i k = s.bufSlice i k := rfl
@[simp] theorem State.setFlows_busy (s : State) (t : FlowTable) : (s.setFlows t).busy = s.busy := rfl

/-! ### the header commit -/

@[simp] theorem State.setHeader_seq (s : State) (hd : Header) : (s.setHeader hd).seq = s.seq := rfl
@[simp] theorem State.setHeader_done (s : State) (hd : Header) : (s.setHeader hd).done = s.done := rfl
@[simp] theorem State.setHeader_werr (s : State) (hd : Header) : (s.setHeader hd).werr = s.werr := rfl
@[simp] theorem State.setHeader_errCode (s : State) (hd : Header) : (s.setHeader hd).errCode = s.errCode := rfl
@[simp] theorem State.setHeader_ie (s : State) (hd : Header) : (s.setHeader hd).ie = s.ie := rfl
@[simp] theorem State.setHeader_defLevel (s : State) (hd : Header) : (s.setHeader hd).defLevel = s.defLevel := rfl
@[simp] theorem State.setHeader_ipol (s : State) (hd : Header) : (s.setHeader hd).ipol = s.ipol := rfl
@[simp] theorem State.setHeader_cmd (s : State) (hd : Header) : (s.setHeader hd).cmd = s.cmd := rfl
@[simp] theorem State.setHeader_alen (s : State) (hd : Header) : (s.setHeader hd).alen = s.alen := rfl
@[simp] theorem State.setHeader_mlen (s : State) (hd : Header) : (s.setHeader hd).mlen = s.mlen := rfl
@[simp] theorem State.setHeader_caplen (s : State) (hd : Header) : (s.setHeader hd).caplen = s.caplen := rfl
@[simp] theorem State.setHeader_replen (s : State) (hd : Header) : (s.setHeader hd).replen = s.replen := rfl
@[simp] theorem State.setHeader_hoff (s : State) (hd : Header) : (s.setHeader hd).hoff = s.hoff := rfl
@[simp] theorem State.setHeader_netid (s : State) (hd : Header) : (s.setHeader hd).netid = s.netid := rfl
@[simp] theorem State.setHeader_hintLo (s : State) (hd : Header) : (s.setHeader hd).hintLo = s.hintLo := rfl
@[simp] theorem State.setHeader_hintHi (s : State) (hd : Header) : (s.setHeader hd).hintHi = s.hintHi := rfl
@[simp] theorem State.setHeader_hintv (s : State) (hd : Header) : (s.setHeader hd).hintv = s.hintv := rfl
@[simp] theorem State.setHeader_label (s : State) (hd : Header) : (s.setHeader hd).label = s.label := rfl
@[simp] theorem State.setHeader_tag (s : State) (hd : Header) : (s.setHeader hd).tag = s.tag := rfl
@[simp] theorem State.setHeader_hdrCtrl (s : State) (hd : Header) : (s.setHeader hd).hdrCtrl = hd.ctrlWord := rfl
@[simp] theorem State.setHeader_hdrInfo (s : State) (hd : Header) : (s.setHeader hd).hdrInfo = hd.infoWord := rfl
@[simp] theorem State.setHeader_hdrFc (s : State) (hd : Header) : (s.setHeader hd).hdrFc = hd.fc := rfl
@[simp] theorem State.setHeader_hdrExtLo (s : State) (hd : Header) : (s.setHeader hd).hdrExtLo = hd.ext.extractLsb' 0 32 := rfl
@[simp] theorem State.setHeader_hdrExtHi (s : State) (hd : Header) : (s.setHeader hd).hdrExtHi = hd.ext.extractLsb' 32 32 := rfl
@[simp] theorem State.setHeader_hdrPos (s : State) (hd : Header) : (s.setHeader hd).hdrPos = hd.posWord := rfl
@[simp] theorem State.setHeader_result (s : State) (hd : Header) : (s.setHeader hd).result = s.result := rfl
@[simp] theorem State.setHeader_key (s : State) (hd : Header) : (s.setHeader hd).key = s.key := rfl
@[simp] theorem State.setHeader_nonce (s : State) (hd : Header) : (s.setHeader hd).nonce = s.nonce := rfl
@[simp] theorem State.setHeader_blk (s : State) (hd : Header) : (s.setHeader hd).blk = s.blk := rfl
@[simp] theorem State.setHeader_res (s : State) (hd : Header) : (s.setHeader hd).res = s.res := rfl
@[simp] theorem State.setHeader_mem (s : State) (hd : Header) : (s.setHeader hd).mem = s.mem := rfl
@[simp] theorem State.setHeader_globalKeys (s : State) (hd : Header) : (s.setHeader hd).globalKeys = s.globalKeys := rfl
@[simp] theorem State.setHeader_flows (s : State) (hd : Header) : (s.setHeader hd).flows = s.flows := rfl
@[simp] theorem State.setHeader_inReset (s : State) (hd : Header) : (s.setHeader hd).inReset = s.inReset := rfl
@[simp] theorem State.setHeader_inputs (s : State) (hd : Header) : (s.setHeader hd).inputs = s.inputs := rfl
@[simp] theorem State.setHeader_resp (s : State) (hd : Header) : (s.setHeader hd).resp = s.resp := rfl
@[simp] theorem State.setHeader_draws (s : State) (hd : Header) : (s.setHeader hd).draws = s.draws := rfl
@[simp] theorem State.setHeader_epoch (s : State) (hd : Header) : (s.setHeader hd).epoch = s.epoch := rfl

@[simp] theorem State.setHeader_alenN (s : State) (hd : Header) : (s.setHeader hd).alenN = s.alenN := rfl
@[simp] theorem State.setHeader_mlenN (s : State) (hd : Header) : (s.setHeader hd).mlenN = s.mlenN := rfl
@[simp] theorem State.setHeader_caplenN (s : State) (hd : Header) : (s.setHeader hd).caplenN = s.caplenN := rfl
@[simp] theorem State.setHeader_replenN (s : State) (hd : Header) : (s.setHeader hd).replenN = s.replenN := rfl
@[simp] theorem State.setHeader_hoffN (s : State) (hd : Header) : (s.setHeader hd).hoffN = s.hoffN := rfl
@[simp] theorem State.setHeader_hint (s : State) (hd : Header) : (s.setHeader hd).hint = s.hint := rfl
@[simp] theorem State.setHeader_memByte (s : State) (hd : Header) (a : Nat) : (s.setHeader hd).memByte a = s.memByte a := rfl
@[simp] theorem State.setHeader_bufByte (s : State) (hd : Header) (i : Nat) : (s.setHeader hd).bufByte i = s.bufByte i := rfl
@[simp] theorem State.setHeader_outByte (s : State) (hd : Header) (i : Nat) : (s.setHeader hd).outByte i = s.outByte i := rfl
@[simp] theorem State.setHeader_bufSlice (s : State) (hd : Header) (i k : Nat) : (s.setHeader hd).bufSlice i k = s.bufSlice i k := rfl
@[simp] theorem State.setHeader_busy (s : State) (hd : Header) : (s.setHeader hd).busy = s.busy := rfl

/-! ### an accepted CMD write -/

@[simp] theorem State.acceptCommand_seq (s : State) (w : Word) : (s.acceptCommand w).seq = .busy w := rfl
@[simp] theorem State.acceptCommand_done (s : State) (w : Word) : (s.acceptCommand w).done = false := rfl
@[simp] theorem State.acceptCommand_werr (s : State) (w : Word) : (s.acceptCommand w).werr = s.werr := rfl
@[simp] theorem State.acceptCommand_errCode (s : State) (w : Word) : (s.acceptCommand w).errCode = .ok := rfl
@[simp] theorem State.acceptCommand_ie (s : State) (w : Word) : (s.acceptCommand w).ie = s.ie := rfl
@[simp] theorem State.acceptCommand_defLevel (s : State) (w : Word) : (s.acceptCommand w).defLevel = s.defLevel := rfl
@[simp] theorem State.acceptCommand_ipol (s : State) (w : Word) : (s.acceptCommand w).ipol = s.ipol := rfl
@[simp] theorem State.acceptCommand_cmd (s : State) (w : Word) : (s.acceptCommand w).cmd = w := rfl
@[simp] theorem State.acceptCommand_alen (s : State) (w : Word) : (s.acceptCommand w).alen = s.alen := rfl
@[simp] theorem State.acceptCommand_mlen (s : State) (w : Word) : (s.acceptCommand w).mlen = s.mlen := rfl
@[simp] theorem State.acceptCommand_caplen (s : State) (w : Word) : (s.acceptCommand w).caplen = s.caplen := rfl
@[simp] theorem State.acceptCommand_replen (s : State) (w : Word) : (s.acceptCommand w).replen = s.replen := rfl
@[simp] theorem State.acceptCommand_hoff (s : State) (w : Word) : (s.acceptCommand w).hoff = s.hoff := rfl
@[simp] theorem State.acceptCommand_netid (s : State) (w : Word) : (s.acceptCommand w).netid = s.netid := rfl
@[simp] theorem State.acceptCommand_hintLo (s : State) (w : Word) : (s.acceptCommand w).hintLo = s.hintLo := rfl
@[simp] theorem State.acceptCommand_hintHi (s : State) (w : Word) : (s.acceptCommand w).hintHi = s.hintHi := rfl
@[simp] theorem State.acceptCommand_hintv (s : State) (w : Word) : (s.acceptCommand w).hintv = s.hintv := rfl
@[simp] theorem State.acceptCommand_label (s : State) (w : Word) : (s.acceptCommand w).label = s.label := rfl
@[simp] theorem State.acceptCommand_tag (s : State) (w : Word) : (s.acceptCommand w).tag = s.tag := rfl
@[simp] theorem State.acceptCommand_hdrCtrl (s : State) (w : Word) : (s.acceptCommand w).hdrCtrl = s.hdrCtrl := rfl
@[simp] theorem State.acceptCommand_hdrInfo (s : State) (w : Word) : (s.acceptCommand w).hdrInfo = s.hdrInfo := rfl
@[simp] theorem State.acceptCommand_hdrFc (s : State) (w : Word) : (s.acceptCommand w).hdrFc = s.hdrFc := rfl
@[simp] theorem State.acceptCommand_hdrExtLo (s : State) (w : Word) : (s.acceptCommand w).hdrExtLo = s.hdrExtLo := rfl
@[simp] theorem State.acceptCommand_hdrExtHi (s : State) (w : Word) : (s.acceptCommand w).hdrExtHi = s.hdrExtHi := rfl
@[simp] theorem State.acceptCommand_hdrPos (s : State) (w : Word) : (s.acceptCommand w).hdrPos = s.hdrPos := rfl
@[simp] theorem State.acceptCommand_result (s : State) (w : Word) : (s.acceptCommand w).result = s.result := rfl
@[simp] theorem State.acceptCommand_key (s : State) (w : Word) : (s.acceptCommand w).key = s.key := rfl
@[simp] theorem State.acceptCommand_nonce (s : State) (w : Word) : (s.acceptCommand w).nonce = s.nonce := rfl
@[simp] theorem State.acceptCommand_blk (s : State) (w : Word) : (s.acceptCommand w).blk = s.blk := rfl
@[simp] theorem State.acceptCommand_res (s : State) (w : Word) : (s.acceptCommand w).res = s.res := rfl
@[simp] theorem State.acceptCommand_mem (s : State) (w : Word) : (s.acceptCommand w).mem = s.mem := rfl
@[simp] theorem State.acceptCommand_globalKeys (s : State) (w : Word) : (s.acceptCommand w).globalKeys = s.globalKeys := rfl
@[simp] theorem State.acceptCommand_flows (s : State) (w : Word) : (s.acceptCommand w).flows = s.flows := rfl
@[simp] theorem State.acceptCommand_inReset (s : State) (w : Word) : (s.acceptCommand w).inReset = s.inReset := rfl
@[simp] theorem State.acceptCommand_inputs (s : State) (w : Word) : (s.acceptCommand w).inputs = s.inputs := rfl
@[simp] theorem State.acceptCommand_resp (s : State) (w : Word) : (s.acceptCommand w).resp = s.resp := rfl
@[simp] theorem State.acceptCommand_draws (s : State) (w : Word) : (s.acceptCommand w).draws = s.draws := rfl
@[simp] theorem State.acceptCommand_epoch (s : State) (w : Word) : (s.acceptCommand w).epoch = s.epoch := rfl

@[simp] theorem State.acceptCommand_alenN (s : State) (w : Word) : (s.acceptCommand w).alenN = s.alenN := rfl
@[simp] theorem State.acceptCommand_mlenN (s : State) (w : Word) : (s.acceptCommand w).mlenN = s.mlenN := rfl
@[simp] theorem State.acceptCommand_caplenN (s : State) (w : Word) : (s.acceptCommand w).caplenN = s.caplenN := rfl
@[simp] theorem State.acceptCommand_replenN (s : State) (w : Word) : (s.acceptCommand w).replenN = s.replenN := rfl
@[simp] theorem State.acceptCommand_hoffN (s : State) (w : Word) : (s.acceptCommand w).hoffN = s.hoffN := rfl
@[simp] theorem State.acceptCommand_hint (s : State) (w : Word) : (s.acceptCommand w).hint = s.hint := rfl
@[simp] theorem State.acceptCommand_memByte (s : State) (w : Word) (a : Nat) : (s.acceptCommand w).memByte a = s.memByte a := rfl
@[simp] theorem State.acceptCommand_bufByte (s : State) (w : Word) (i : Nat) : (s.acceptCommand w).bufByte i = s.bufByte i := rfl
@[simp] theorem State.acceptCommand_outByte (s : State) (w : Word) (i : Nat) : (s.acceptCommand w).outByte i = s.outByte i := rfl
@[simp] theorem State.acceptCommand_bufSlice (s : State) (w : Word) (i k : Nat) : (s.acceptCommand w).bufSlice i k = s.bufSlice i k := rfl

/-! ### a STATUS write -/

@[simp] theorem State.clearStatus_seq (s : State) (v : Word) : (s.clearStatus v).seq = s.seq := rfl
@[simp] theorem State.clearStatus_done (s : State) (v : Word) : (s.clearStatus v).done = (s.done && !v.getLsbD 1) := rfl
@[simp] theorem State.clearStatus_werr (s : State) (v : Word) : (s.clearStatus v).werr = (s.werr && !v.getLsbD 3) := rfl
@[simp] theorem State.clearStatus_errCode (s : State) (v : Word) : (s.clearStatus v).errCode = s.errCode := rfl
@[simp] theorem State.clearStatus_ie (s : State) (v : Word) : (s.clearStatus v).ie = s.ie := rfl
@[simp] theorem State.clearStatus_defLevel (s : State) (v : Word) : (s.clearStatus v).defLevel = s.defLevel := rfl
@[simp] theorem State.clearStatus_ipol (s : State) (v : Word) : (s.clearStatus v).ipol = s.ipol := rfl
@[simp] theorem State.clearStatus_cmd (s : State) (v : Word) : (s.clearStatus v).cmd = s.cmd := rfl
@[simp] theorem State.clearStatus_alen (s : State) (v : Word) : (s.clearStatus v).alen = s.alen := rfl
@[simp] theorem State.clearStatus_mlen (s : State) (v : Word) : (s.clearStatus v).mlen = s.mlen := rfl
@[simp] theorem State.clearStatus_caplen (s : State) (v : Word) : (s.clearStatus v).caplen = s.caplen := rfl
@[simp] theorem State.clearStatus_replen (s : State) (v : Word) : (s.clearStatus v).replen = s.replen := rfl
@[simp] theorem State.clearStatus_hoff (s : State) (v : Word) : (s.clearStatus v).hoff = s.hoff := rfl
@[simp] theorem State.clearStatus_netid (s : State) (v : Word) : (s.clearStatus v).netid = s.netid := rfl
@[simp] theorem State.clearStatus_hintLo (s : State) (v : Word) : (s.clearStatus v).hintLo = s.hintLo := rfl
@[simp] theorem State.clearStatus_hintHi (s : State) (v : Word) : (s.clearStatus v).hintHi = s.hintHi := rfl
@[simp] theorem State.clearStatus_hintv (s : State) (v : Word) : (s.clearStatus v).hintv = s.hintv := rfl
@[simp] theorem State.clearStatus_label (s : State) (v : Word) : (s.clearStatus v).label = s.label := rfl
@[simp] theorem State.clearStatus_tag (s : State) (v : Word) : (s.clearStatus v).tag = s.tag := rfl
@[simp] theorem State.clearStatus_hdrCtrl (s : State) (v : Word) : (s.clearStatus v).hdrCtrl = s.hdrCtrl := rfl
@[simp] theorem State.clearStatus_hdrInfo (s : State) (v : Word) : (s.clearStatus v).hdrInfo = s.hdrInfo := rfl
@[simp] theorem State.clearStatus_hdrFc (s : State) (v : Word) : (s.clearStatus v).hdrFc = s.hdrFc := rfl
@[simp] theorem State.clearStatus_hdrExtLo (s : State) (v : Word) : (s.clearStatus v).hdrExtLo = s.hdrExtLo := rfl
@[simp] theorem State.clearStatus_hdrExtHi (s : State) (v : Word) : (s.clearStatus v).hdrExtHi = s.hdrExtHi := rfl
@[simp] theorem State.clearStatus_hdrPos (s : State) (v : Word) : (s.clearStatus v).hdrPos = s.hdrPos := rfl
@[simp] theorem State.clearStatus_result (s : State) (v : Word) : (s.clearStatus v).result = s.result := rfl
@[simp] theorem State.clearStatus_key (s : State) (v : Word) : (s.clearStatus v).key = s.key := rfl
@[simp] theorem State.clearStatus_nonce (s : State) (v : Word) : (s.clearStatus v).nonce = s.nonce := rfl
@[simp] theorem State.clearStatus_blk (s : State) (v : Word) : (s.clearStatus v).blk = s.blk := rfl
@[simp] theorem State.clearStatus_res (s : State) (v : Word) : (s.clearStatus v).res = s.res := rfl
@[simp] theorem State.clearStatus_mem (s : State) (v : Word) : (s.clearStatus v).mem = s.mem := rfl
@[simp] theorem State.clearStatus_globalKeys (s : State) (v : Word) : (s.clearStatus v).globalKeys = s.globalKeys := rfl
@[simp] theorem State.clearStatus_flows (s : State) (v : Word) : (s.clearStatus v).flows = s.flows := rfl
@[simp] theorem State.clearStatus_inReset (s : State) (v : Word) : (s.clearStatus v).inReset = s.inReset := rfl
@[simp] theorem State.clearStatus_inputs (s : State) (v : Word) : (s.clearStatus v).inputs = s.inputs := rfl
@[simp] theorem State.clearStatus_resp (s : State) (v : Word) : (s.clearStatus v).resp = s.resp := rfl
@[simp] theorem State.clearStatus_draws (s : State) (v : Word) : (s.clearStatus v).draws = s.draws := rfl
@[simp] theorem State.clearStatus_epoch (s : State) (v : Word) : (s.clearStatus v).epoch = s.epoch := rfl

@[simp] theorem State.clearStatus_alenN (s : State) (v : Word) : (s.clearStatus v).alenN = s.alenN := rfl
@[simp] theorem State.clearStatus_mlenN (s : State) (v : Word) : (s.clearStatus v).mlenN = s.mlenN := rfl
@[simp] theorem State.clearStatus_caplenN (s : State) (v : Word) : (s.clearStatus v).caplenN = s.caplenN := rfl
@[simp] theorem State.clearStatus_replenN (s : State) (v : Word) : (s.clearStatus v).replenN = s.replenN := rfl
@[simp] theorem State.clearStatus_hoffN (s : State) (v : Word) : (s.clearStatus v).hoffN = s.hoffN := rfl
@[simp] theorem State.clearStatus_hint (s : State) (v : Word) : (s.clearStatus v).hint = s.hint := rfl
@[simp] theorem State.clearStatus_memByte (s : State) (v : Word) (a : Nat) : (s.clearStatus v).memByte a = s.memByte a := rfl
@[simp] theorem State.clearStatus_bufByte (s : State) (v : Word) (i : Nat) : (s.clearStatus v).bufByte i = s.bufByte i := rfl
@[simp] theorem State.clearStatus_outByte (s : State) (v : Word) (i : Nat) : (s.clearStatus v).outByte i = s.outByte i := rfl
@[simp] theorem State.clearStatus_bufSlice (s : State) (v : Word) (i k : Nat) : (s.clearStatus v).bufSlice i k = s.bufSlice i k := rfl
@[simp] theorem State.clearStatus_busy (s : State) (v : Word) : (s.clearStatus v).busy = s.busy := rfl

/-! ### an event taken from the queue -/

@[simp] theorem State.taking_seq (s : State) (rest : List HostEvent) : (s.taking rest).seq = s.seq := rfl
@[simp] theorem State.taking_done (s : State) (rest : List HostEvent) : (s.taking rest).done = s.done := rfl
@[simp] theorem State.taking_werr (s : State) (rest : List HostEvent) : (s.taking rest).werr = s.werr := rfl
@[simp] theorem State.taking_errCode (s : State) (rest : List HostEvent) : (s.taking rest).errCode = s.errCode := rfl
@[simp] theorem State.taking_ie (s : State) (rest : List HostEvent) : (s.taking rest).ie = s.ie := rfl
@[simp] theorem State.taking_defLevel (s : State) (rest : List HostEvent) : (s.taking rest).defLevel = s.defLevel := rfl
@[simp] theorem State.taking_ipol (s : State) (rest : List HostEvent) : (s.taking rest).ipol = s.ipol := rfl
@[simp] theorem State.taking_cmd (s : State) (rest : List HostEvent) : (s.taking rest).cmd = s.cmd := rfl
@[simp] theorem State.taking_alen (s : State) (rest : List HostEvent) : (s.taking rest).alen = s.alen := rfl
@[simp] theorem State.taking_mlen (s : State) (rest : List HostEvent) : (s.taking rest).mlen = s.mlen := rfl
@[simp] theorem State.taking_caplen (s : State) (rest : List HostEvent) : (s.taking rest).caplen = s.caplen := rfl
@[simp] theorem State.taking_replen (s : State) (rest : List HostEvent) : (s.taking rest).replen = s.replen := rfl
@[simp] theorem State.taking_hoff (s : State) (rest : List HostEvent) : (s.taking rest).hoff = s.hoff := rfl
@[simp] theorem State.taking_netid (s : State) (rest : List HostEvent) : (s.taking rest).netid = s.netid := rfl
@[simp] theorem State.taking_hintLo (s : State) (rest : List HostEvent) : (s.taking rest).hintLo = s.hintLo := rfl
@[simp] theorem State.taking_hintHi (s : State) (rest : List HostEvent) : (s.taking rest).hintHi = s.hintHi := rfl
@[simp] theorem State.taking_hintv (s : State) (rest : List HostEvent) : (s.taking rest).hintv = s.hintv := rfl
@[simp] theorem State.taking_label (s : State) (rest : List HostEvent) : (s.taking rest).label = s.label := rfl
@[simp] theorem State.taking_tag (s : State) (rest : List HostEvent) : (s.taking rest).tag = s.tag := rfl
@[simp] theorem State.taking_hdrCtrl (s : State) (rest : List HostEvent) : (s.taking rest).hdrCtrl = s.hdrCtrl := rfl
@[simp] theorem State.taking_hdrInfo (s : State) (rest : List HostEvent) : (s.taking rest).hdrInfo = s.hdrInfo := rfl
@[simp] theorem State.taking_hdrFc (s : State) (rest : List HostEvent) : (s.taking rest).hdrFc = s.hdrFc := rfl
@[simp] theorem State.taking_hdrExtLo (s : State) (rest : List HostEvent) : (s.taking rest).hdrExtLo = s.hdrExtLo := rfl
@[simp] theorem State.taking_hdrExtHi (s : State) (rest : List HostEvent) : (s.taking rest).hdrExtHi = s.hdrExtHi := rfl
@[simp] theorem State.taking_hdrPos (s : State) (rest : List HostEvent) : (s.taking rest).hdrPos = s.hdrPos := rfl
@[simp] theorem State.taking_result (s : State) (rest : List HostEvent) : (s.taking rest).result = s.result := rfl
@[simp] theorem State.taking_key (s : State) (rest : List HostEvent) : (s.taking rest).key = s.key := rfl
@[simp] theorem State.taking_nonce (s : State) (rest : List HostEvent) : (s.taking rest).nonce = s.nonce := rfl
@[simp] theorem State.taking_blk (s : State) (rest : List HostEvent) : (s.taking rest).blk = s.blk := rfl
@[simp] theorem State.taking_res (s : State) (rest : List HostEvent) : (s.taking rest).res = s.res := rfl
@[simp] theorem State.taking_mem (s : State) (rest : List HostEvent) : (s.taking rest).mem = s.mem := rfl
@[simp] theorem State.taking_globalKeys (s : State) (rest : List HostEvent) : (s.taking rest).globalKeys = s.globalKeys := rfl
@[simp] theorem State.taking_flows (s : State) (rest : List HostEvent) : (s.taking rest).flows = s.flows := rfl
@[simp] theorem State.taking_inReset (s : State) (rest : List HostEvent) : (s.taking rest).inReset = s.inReset := rfl
@[simp] theorem State.taking_inputs (s : State) (rest : List HostEvent) : (s.taking rest).inputs = rest := rfl
@[simp] theorem State.taking_resp (s : State) (rest : List HostEvent) : (s.taking rest).resp = none := rfl
@[simp] theorem State.taking_draws (s : State) (rest : List HostEvent) : (s.taking rest).draws = s.draws := rfl
@[simp] theorem State.taking_epoch (s : State) (rest : List HostEvent) : (s.taking rest).epoch = s.epoch := rfl

@[simp] theorem State.taking_alenN (s : State) (rest : List HostEvent) : (s.taking rest).alenN = s.alenN := rfl
@[simp] theorem State.taking_mlenN (s : State) (rest : List HostEvent) : (s.taking rest).mlenN = s.mlenN := rfl
@[simp] theorem State.taking_caplenN (s : State) (rest : List HostEvent) : (s.taking rest).caplenN = s.caplenN := rfl
@[simp] theorem State.taking_replenN (s : State) (rest : List HostEvent) : (s.taking rest).replenN = s.replenN := rfl
@[simp] theorem State.taking_hoffN (s : State) (rest : List HostEvent) : (s.taking rest).hoffN = s.hoffN := rfl
@[simp] theorem State.taking_hint (s : State) (rest : List HostEvent) : (s.taking rest).hint = s.hint := rfl
@[simp] theorem State.taking_memByte (s : State) (rest : List HostEvent) (a : Nat) : (s.taking rest).memByte a = s.memByte a := rfl
@[simp] theorem State.taking_bufByte (s : State) (rest : List HostEvent) (i : Nat) : (s.taking rest).bufByte i = s.bufByte i := rfl
@[simp] theorem State.taking_outByte (s : State) (rest : List HostEvent) (i : Nat) : (s.taking rest).outByte i = s.outByte i := rfl
@[simp] theorem State.taking_bufSlice (s : State) (rest : List HostEvent) (i k : Nat) : (s.taking rest).bufSlice i k = s.bufSlice i k := rfl
@[simp] theorem State.taking_busy (s : State) (rest : List HostEvent) : (s.taking rest).busy = s.busy := rfl

/-! ### a bus response -/

@[simp] theorem State.respond_seq (s : State) (e : Bool) (d : Word) : (s.respond e d).seq = s.seq := rfl
@[simp] theorem State.respond_done (s : State) (e : Bool) (d : Word) : (s.respond e d).done = s.done := rfl
@[simp] theorem State.respond_werr (s : State) (e : Bool) (d : Word) : (s.respond e d).werr = s.werr := rfl
@[simp] theorem State.respond_errCode (s : State) (e : Bool) (d : Word) : (s.respond e d).errCode = s.errCode := rfl
@[simp] theorem State.respond_ie (s : State) (e : Bool) (d : Word) : (s.respond e d).ie = s.ie := rfl
@[simp] theorem State.respond_defLevel (s : State) (e : Bool) (d : Word) : (s.respond e d).defLevel = s.defLevel := rfl
@[simp] theorem State.respond_ipol (s : State) (e : Bool) (d : Word) : (s.respond e d).ipol = s.ipol := rfl
@[simp] theorem State.respond_cmd (s : State) (e : Bool) (d : Word) : (s.respond e d).cmd = s.cmd := rfl
@[simp] theorem State.respond_alen (s : State) (e : Bool) (d : Word) : (s.respond e d).alen = s.alen := rfl
@[simp] theorem State.respond_mlen (s : State) (e : Bool) (d : Word) : (s.respond e d).mlen = s.mlen := rfl
@[simp] theorem State.respond_caplen (s : State) (e : Bool) (d : Word) : (s.respond e d).caplen = s.caplen := rfl
@[simp] theorem State.respond_replen (s : State) (e : Bool) (d : Word) : (s.respond e d).replen = s.replen := rfl
@[simp] theorem State.respond_hoff (s : State) (e : Bool) (d : Word) : (s.respond e d).hoff = s.hoff := rfl
@[simp] theorem State.respond_netid (s : State) (e : Bool) (d : Word) : (s.respond e d).netid = s.netid := rfl
@[simp] theorem State.respond_hintLo (s : State) (e : Bool) (d : Word) : (s.respond e d).hintLo = s.hintLo := rfl
@[simp] theorem State.respond_hintHi (s : State) (e : Bool) (d : Word) : (s.respond e d).hintHi = s.hintHi := rfl
@[simp] theorem State.respond_hintv (s : State) (e : Bool) (d : Word) : (s.respond e d).hintv = s.hintv := rfl
@[simp] theorem State.respond_label (s : State) (e : Bool) (d : Word) : (s.respond e d).label = s.label := rfl
@[simp] theorem State.respond_tag (s : State) (e : Bool) (d : Word) : (s.respond e d).tag = s.tag := rfl
@[simp] theorem State.respond_hdrCtrl (s : State) (e : Bool) (d : Word) : (s.respond e d).hdrCtrl = s.hdrCtrl := rfl
@[simp] theorem State.respond_hdrInfo (s : State) (e : Bool) (d : Word) : (s.respond e d).hdrInfo = s.hdrInfo := rfl
@[simp] theorem State.respond_hdrFc (s : State) (e : Bool) (d : Word) : (s.respond e d).hdrFc = s.hdrFc := rfl
@[simp] theorem State.respond_hdrExtLo (s : State) (e : Bool) (d : Word) : (s.respond e d).hdrExtLo = s.hdrExtLo := rfl
@[simp] theorem State.respond_hdrExtHi (s : State) (e : Bool) (d : Word) : (s.respond e d).hdrExtHi = s.hdrExtHi := rfl
@[simp] theorem State.respond_hdrPos (s : State) (e : Bool) (d : Word) : (s.respond e d).hdrPos = s.hdrPos := rfl
@[simp] theorem State.respond_result (s : State) (e : Bool) (d : Word) : (s.respond e d).result = s.result := rfl
@[simp] theorem State.respond_key (s : State) (e : Bool) (d : Word) : (s.respond e d).key = s.key := rfl
@[simp] theorem State.respond_nonce (s : State) (e : Bool) (d : Word) : (s.respond e d).nonce = s.nonce := rfl
@[simp] theorem State.respond_blk (s : State) (e : Bool) (d : Word) : (s.respond e d).blk = s.blk := rfl
@[simp] theorem State.respond_res (s : State) (e : Bool) (d : Word) : (s.respond e d).res = s.res := rfl
@[simp] theorem State.respond_mem (s : State) (e : Bool) (d : Word) : (s.respond e d).mem = s.mem := rfl
@[simp] theorem State.respond_globalKeys (s : State) (e : Bool) (d : Word) : (s.respond e d).globalKeys = s.globalKeys := rfl
@[simp] theorem State.respond_flows (s : State) (e : Bool) (d : Word) : (s.respond e d).flows = s.flows := rfl
@[simp] theorem State.respond_inReset (s : State) (e : Bool) (d : Word) : (s.respond e d).inReset = s.inReset := rfl
@[simp] theorem State.respond_inputs (s : State) (e : Bool) (d : Word) : (s.respond e d).inputs = s.inputs := rfl
@[simp] theorem State.respond_resp (s : State) (e : Bool) (d : Word) : (s.respond e d).resp = some { error := e, data := d } := rfl
@[simp] theorem State.respond_draws (s : State) (e : Bool) (d : Word) : (s.respond e d).draws = s.draws := rfl
@[simp] theorem State.respond_epoch (s : State) (e : Bool) (d : Word) : (s.respond e d).epoch = s.epoch := rfl

@[simp] theorem State.respond_alenN (s : State) (e : Bool) (d : Word) : (s.respond e d).alenN = s.alenN := rfl
@[simp] theorem State.respond_mlenN (s : State) (e : Bool) (d : Word) : (s.respond e d).mlenN = s.mlenN := rfl
@[simp] theorem State.respond_caplenN (s : State) (e : Bool) (d : Word) : (s.respond e d).caplenN = s.caplenN := rfl
@[simp] theorem State.respond_replenN (s : State) (e : Bool) (d : Word) : (s.respond e d).replenN = s.replenN := rfl
@[simp] theorem State.respond_hoffN (s : State) (e : Bool) (d : Word) : (s.respond e d).hoffN = s.hoffN := rfl
@[simp] theorem State.respond_hint (s : State) (e : Bool) (d : Word) : (s.respond e d).hint = s.hint := rfl
@[simp] theorem State.respond_memByte (s : State) (e : Bool) (d : Word) (a : Nat) : (s.respond e d).memByte a = s.memByte a := rfl
@[simp] theorem State.respond_bufByte (s : State) (e : Bool) (d : Word) (i : Nat) : (s.respond e d).bufByte i = s.bufByte i := rfl
@[simp] theorem State.respond_outByte (s : State) (e : Bool) (d : Word) (i : Nat) : (s.respond e d).outByte i = s.outByte i := rfl
@[simp] theorem State.respond_bufSlice (s : State) (e : Bool) (d : Word) (i k : Nat) : (s.respond e d).bufSlice i k = s.bufSlice i k := rfl
@[simp] theorem State.respond_busy (s : State) (e : Bool) (d : Word) : (s.respond e d).busy = s.busy := rfl

/-! ### the counting of draws -/

@[simp] theorem State.countDraw_seq (s : State) : s.countDraw.seq = s.seq := by unfold State.countDraw; split <;> rfl
@[simp] theorem State.countDraw_done (s : State) : s.countDraw.done = s.done := by unfold State.countDraw; split <;> rfl
@[simp] theorem State.countDraw_werr (s : State) : s.countDraw.werr = s.werr := by unfold State.countDraw; split <;> rfl
@[simp] theorem State.countDraw_errCode (s : State) : s.countDraw.errCode = s.errCode := by unfold State.countDraw; split <;> rfl
@[simp] theorem State.countDraw_ie (s : State) : s.countDraw.ie = s.ie := by unfold State.countDraw; split <;> rfl
@[simp] theorem State.countDraw_defLevel (s : State) : s.countDraw.defLevel = s.defLevel := by unfold State.countDraw; split <;> rfl
@[simp] theorem State.countDraw_ipol (s : State) : s.countDraw.ipol = s.ipol := by unfold State.countDraw; split <;> rfl
@[simp] theorem State.countDraw_cmd (s : State) : s.countDraw.cmd = s.cmd := by unfold State.countDraw; split <;> rfl
@[simp] theorem State.countDraw_alen (s : State) : s.countDraw.alen = s.alen := by unfold State.countDraw; split <;> rfl
@[simp] theorem State.countDraw_mlen (s : State) : s.countDraw.mlen = s.mlen := by unfold State.countDraw; split <;> rfl
@[simp] theorem State.countDraw_caplen (s : State) : s.countDraw.caplen = s.caplen := by unfold State.countDraw; split <;> rfl
@[simp] theorem State.countDraw_replen (s : State) : s.countDraw.replen = s.replen := by unfold State.countDraw; split <;> rfl
@[simp] theorem State.countDraw_hoff (s : State) : s.countDraw.hoff = s.hoff := by unfold State.countDraw; split <;> rfl
@[simp] theorem State.countDraw_netid (s : State) : s.countDraw.netid = s.netid := by unfold State.countDraw; split <;> rfl
@[simp] theorem State.countDraw_hintLo (s : State) : s.countDraw.hintLo = s.hintLo := by unfold State.countDraw; split <;> rfl
@[simp] theorem State.countDraw_hintHi (s : State) : s.countDraw.hintHi = s.hintHi := by unfold State.countDraw; split <;> rfl
@[simp] theorem State.countDraw_hintv (s : State) : s.countDraw.hintv = s.hintv := by unfold State.countDraw; split <;> rfl
@[simp] theorem State.countDraw_label (s : State) : s.countDraw.label = s.label := by unfold State.countDraw; split <;> rfl
@[simp] theorem State.countDraw_tag (s : State) : s.countDraw.tag = s.tag := by unfold State.countDraw; split <;> rfl
@[simp] theorem State.countDraw_hdrCtrl (s : State) : s.countDraw.hdrCtrl = s.hdrCtrl := by unfold State.countDraw; split <;> rfl
@[simp] theorem State.countDraw_hdrInfo (s : State) : s.countDraw.hdrInfo = s.hdrInfo := by unfold State.countDraw; split <;> rfl
@[simp] theorem State.countDraw_hdrFc (s : State) : s.countDraw.hdrFc = s.hdrFc := by unfold State.countDraw; split <;> rfl
@[simp] theorem State.countDraw_hdrExtLo (s : State) : s.countDraw.hdrExtLo = s.hdrExtLo := by unfold State.countDraw; split <;> rfl
@[simp] theorem State.countDraw_hdrExtHi (s : State) : s.countDraw.hdrExtHi = s.hdrExtHi := by unfold State.countDraw; split <;> rfl
@[simp] theorem State.countDraw_hdrPos (s : State) : s.countDraw.hdrPos = s.hdrPos := by unfold State.countDraw; split <;> rfl
@[simp] theorem State.countDraw_result (s : State) : s.countDraw.result = s.result := by unfold State.countDraw; split <;> rfl
@[simp] theorem State.countDraw_key (s : State) : s.countDraw.key = s.key := by unfold State.countDraw; split <;> rfl
@[simp] theorem State.countDraw_nonce (s : State) : s.countDraw.nonce = s.nonce := by unfold State.countDraw; split <;> rfl
@[simp] theorem State.countDraw_blk (s : State) : s.countDraw.blk = s.blk := by unfold State.countDraw; split <;> rfl
@[simp] theorem State.countDraw_res (s : State) : s.countDraw.res = s.res := by unfold State.countDraw; split <;> rfl
@[simp] theorem State.countDraw_mem (s : State) : s.countDraw.mem = s.mem := by unfold State.countDraw; split <;> rfl
@[simp] theorem State.countDraw_globalKeys (s : State) : s.countDraw.globalKeys = s.globalKeys := by unfold State.countDraw; split <;> rfl
@[simp] theorem State.countDraw_flows (s : State) : s.countDraw.flows = s.flows := by unfold State.countDraw; split <;> rfl
@[simp] theorem State.countDraw_inReset (s : State) : s.countDraw.inReset = s.inReset := by unfold State.countDraw; split <;> rfl
@[simp] theorem State.countDraw_inputs (s : State) : s.countDraw.inputs = s.inputs := by unfold State.countDraw; split <;> rfl
@[simp] theorem State.countDraw_resp (s : State) : s.countDraw.resp = s.resp := by unfold State.countDraw; split <;> rfl
@[simp] theorem State.countDraw_epoch (s : State) : s.countDraw.epoch = s.epoch := by unfold State.countDraw; split <;> rfl
@[simp] theorem State.countDraw_draws (s : State) : s.countDraw.draws = if s.busy then s.draws + 1 else s.draws := by
  unfold State.countDraw; split <;> rfl

/-! ### the reset input -/

@[simp] theorem State.resetTo_seq (s : State) (level : Bool) : (s.resetTo level).seq = State.reset.seq := rfl
@[simp] theorem State.resetTo_done (s : State) (level : Bool) : (s.resetTo level).done = State.reset.done := rfl
@[simp] theorem State.resetTo_werr (s : State) (level : Bool) : (s.resetTo level).werr = State.reset.werr := rfl
@[simp] theorem State.resetTo_errCode (s : State) (level : Bool) : (s.resetTo level).errCode = State.reset.errCode := rfl
@[simp] theorem State.resetTo_ie (s : State) (level : Bool) : (s.resetTo level).ie = State.reset.ie := rfl
@[simp] theorem State.resetTo_defLevel (s : State) (level : Bool) : (s.resetTo level).defLevel = State.reset.defLevel := rfl
@[simp] theorem State.resetTo_ipol (s : State) (level : Bool) : (s.resetTo level).ipol = State.reset.ipol := rfl
@[simp] theorem State.resetTo_cmd (s : State) (level : Bool) : (s.resetTo level).cmd = State.reset.cmd := rfl
@[simp] theorem State.resetTo_alen (s : State) (level : Bool) : (s.resetTo level).alen = State.reset.alen := rfl
@[simp] theorem State.resetTo_mlen (s : State) (level : Bool) : (s.resetTo level).mlen = State.reset.mlen := rfl
@[simp] theorem State.resetTo_caplen (s : State) (level : Bool) : (s.resetTo level).caplen = State.reset.caplen := rfl
@[simp] theorem State.resetTo_replen (s : State) (level : Bool) : (s.resetTo level).replen = State.reset.replen := rfl
@[simp] theorem State.resetTo_hoff (s : State) (level : Bool) : (s.resetTo level).hoff = State.reset.hoff := rfl
@[simp] theorem State.resetTo_netid (s : State) (level : Bool) : (s.resetTo level).netid = State.reset.netid := rfl
@[simp] theorem State.resetTo_hintLo (s : State) (level : Bool) : (s.resetTo level).hintLo = State.reset.hintLo := rfl
@[simp] theorem State.resetTo_hintHi (s : State) (level : Bool) : (s.resetTo level).hintHi = State.reset.hintHi := rfl
@[simp] theorem State.resetTo_hintv (s : State) (level : Bool) : (s.resetTo level).hintv = State.reset.hintv := rfl
@[simp] theorem State.resetTo_label (s : State) (level : Bool) : (s.resetTo level).label = State.reset.label := rfl
@[simp] theorem State.resetTo_tag (s : State) (level : Bool) : (s.resetTo level).tag = State.reset.tag := rfl
@[simp] theorem State.resetTo_hdrCtrl (s : State) (level : Bool) : (s.resetTo level).hdrCtrl = State.reset.hdrCtrl := rfl
@[simp] theorem State.resetTo_hdrInfo (s : State) (level : Bool) : (s.resetTo level).hdrInfo = State.reset.hdrInfo := rfl
@[simp] theorem State.resetTo_hdrFc (s : State) (level : Bool) : (s.resetTo level).hdrFc = State.reset.hdrFc := rfl
@[simp] theorem State.resetTo_hdrExtLo (s : State) (level : Bool) : (s.resetTo level).hdrExtLo = State.reset.hdrExtLo := rfl
@[simp] theorem State.resetTo_hdrExtHi (s : State) (level : Bool) : (s.resetTo level).hdrExtHi = State.reset.hdrExtHi := rfl
@[simp] theorem State.resetTo_hdrPos (s : State) (level : Bool) : (s.resetTo level).hdrPos = State.reset.hdrPos := rfl
@[simp] theorem State.resetTo_result (s : State) (level : Bool) : (s.resetTo level).result = State.reset.result := rfl
@[simp] theorem State.resetTo_key (s : State) (level : Bool) : (s.resetTo level).key = State.reset.key := rfl
@[simp] theorem State.resetTo_nonce (s : State) (level : Bool) : (s.resetTo level).nonce = State.reset.nonce := rfl
@[simp] theorem State.resetTo_blk (s : State) (level : Bool) : (s.resetTo level).blk = State.reset.blk := rfl
@[simp] theorem State.resetTo_res (s : State) (level : Bool) : (s.resetTo level).res = State.reset.res := rfl
@[simp] theorem State.resetTo_mem (s : State) (level : Bool) : (s.resetTo level).mem = State.reset.mem := rfl
@[simp] theorem State.resetTo_globalKeys (s : State) (level : Bool) : (s.resetTo level).globalKeys = State.reset.globalKeys := rfl
@[simp] theorem State.resetTo_flows (s : State) (level : Bool) : (s.resetTo level).flows = State.reset.flows := rfl
@[simp] theorem State.resetTo_inReset (s : State) (level : Bool) : (s.resetTo level).inReset = level := rfl
@[simp] theorem State.resetTo_inputs (s : State) (level : Bool) : (s.resetTo level).inputs = s.inputs := rfl
@[simp] theorem State.resetTo_resp (s : State) (level : Bool) : (s.resetTo level).resp = State.reset.resp := rfl
@[simp] theorem State.resetTo_draws (s : State) (level : Bool) : (s.resetTo level).draws = s.draws := rfl
@[simp] theorem State.resetTo_epoch (s : State) (level : Bool) : (s.resetTo level).epoch = s.epoch + 1 := rfl

/-! ### the ways a command ends -/

@[simp] theorem State.complete_eq (s : State) : s.complete = s.finish .ok := rfl
@[simp] theorem State.raise_eq (s : State) (e : ErrCode) : s.raise e = s.finish e := rfl
@[simp] theorem State.rejectWord_eq (s : State) : s.rejectWord = s.finish .illegalCommand := rfl
@[simp] theorem State.failFrame_eq (s : State) (e : ErrCode) (n : Nat) :
    s.failFrame e n = (s.setResult (resultWord .failed .noKey 0 n)).finish e := rfl
@[simp] theorem State.finish_busy (s : State) (e : ErrCode) : (s.finish e).busy = false := rfl
@[simp] theorem State.acceptCommand_busy (s : State) (w : Word) : (s.acceptCommand w).busy = true := rfl
theorem State.busy_eq_true_iff (s : State) : s.busy = true ↔ ∃ w, s.seq = .busy w := by
  unfold State.busy; split <;> simp_all
theorem State.busy_eq_false_iff (s : State) : s.busy = false ↔ s.seq = .idle := by
  unfold State.busy; split <;> simp_all

end Sys2Proof.Machine
end

