-- ==== Sys2Proof/Laws/Memory.lean ====
section
/-! SUPPORT. The memory of BUF and OUT: a read after a write, and that every operation keeps the canonical form. -/

namespace Sys2Proof.Machine

/-- A byte read after one byte is written. -/
theorem Memory.lookup_insert (m : Memory) (a b : Nat) (v : Byte) :
    Memory.lookup (Memory.insert m a v) b = if b = a then some v else Memory.lookup m b := by
  induction m with
  | nil => simp [Memory.insert, Memory.lookup]
  | cons c m ih =>
    obtain ⟨x, w⟩ := c
    simp only [Memory.insert]
    split
    · simp [Memory.lookup]
    · split
      · subst_vars; simp only [Memory.lookup]; split <;> rfl
      · rename_i h1 h2
        simp only [Memory.lookup, ih]
        split
        · rename_i h; rw [if_neg (by omega)]
        · rfl

/-- A byte read after a string is written: inside it the string's byte, elsewhere the old one. -/
theorem Memory.lookup_insertAll (m : Memory) (a b : Nat) (l : List Byte) :
    Memory.lookup (Memory.insertAll m a l) b =
      if a ≤ b ∧ b < a + l.length then some (l.getD (b - a) 0) else Memory.lookup m b := by
  induction l generalizing m a with
  | nil => simp [Memory.insertAll]
  | cons v l ih =>
    simp only [Memory.insertAll, ih, Memory.lookup_insert, List.length_cons]
    by_cases h : b = a
    · subst h; simp
    · by_cases h2 : a + 1 ≤ b ∧ b < a + 1 + l.length
      · rw [if_pos h2, if_pos (by omega)]
        obtain ⟨k, hk⟩ : ∃ k, b - a = k + 1 := ⟨b - a - 1, by omega⟩
        rw [hk, show b - (a + 1) = k by omega]; simp
      · rw [if_neg h2, if_neg h, if_neg (by omega)]

theorem Memory.risingFrom_insert (m : Memory) (x a : Nat) (v : Byte) (hx : x < a)
    (h : Memory.risingFrom x m = true) : Memory.risingFrom x (Memory.insert m a v) = true := by
  induction m generalizing x with
  | nil => simp [Memory.insert, Memory.risingFrom, hx]
  | cons c m ih =>
    obtain ⟨y, w⟩ := c
    simp only [Memory.risingFrom, Bool.and_eq_true, decide_eq_true_eq] at h
    simp only [Memory.insert]
    split
    · simp [Memory.risingFrom, h.2, *]
    · split
      · subst_vars; simp [Memory.risingFrom, hx, h.2]
      · simp only [Memory.risingFrom, Bool.and_eq_true, decide_eq_true_eq]
        exact ⟨h.1, ih y (by omega) h.2⟩

/-- Writing one byte keeps the addresses strictly rising. -/
theorem Memory.rising_insert (m : Memory) (a : Nat) (v : Byte) (h : Memory.rising m = true) :
    Memory.rising (Memory.insert m a v) = true := by
  cases m with
  | nil => rfl
  | cons c m =>
    obtain ⟨y, w⟩ := c
    simp only [Memory.rising] at h
    simp only [Memory.insert]
    split
    · simp [Memory.rising, Memory.risingFrom, *]
    · split
      · subst_vars; exact h
      · exact Memory.risingFrom_insert m y a v (by omega) h

theorem Memory.all_insert (p : Host.Cell → Bool) (m : Memory) (a : Nat) (v : Byte) (hp : p (a, v) = true)
    (h : m.all p = true) : (Memory.insert m a v).all p = true := by
  induction m with
  | nil => simp [Memory.insert, hp]
  | cons c m ih =>
    obtain ⟨y, w⟩ := c
    simp only [List.all_cons, Bool.and_eq_true] at h
    simp only [Memory.insert]
    split
    · simp only [List.all_cons, Bool.and_eq_true]; exact ⟨hp, h⟩
    · split
      · simp only [List.all_cons, Bool.and_eq_true]; exact ⟨hp, h.2⟩
      · simp only [List.all_cons, Bool.and_eq_true]; exact ⟨h.1, ih h.2⟩

/-- Writing a byte of BUF or OUT keeps the canonical form. -/
theorem Memory.wf_insert (m : Memory) (a : Nat) (v : Byte) (ha : inMemory a = true) (h : Memory.wf m = true) :
    Memory.wf (Memory.insert m a v) = true := by
  simp only [Memory.wf, Bool.and_eq_true] at h ⊢
  exact ⟨Memory.rising_insert m a v h.1, Memory.all_insert _ m a v ha h.2⟩

/-- Writing a string of bytes of BUF or OUT keeps the canonical form. -/
theorem Memory.wf_insertAll (m : Memory) (a : Nat) (l : List Byte)
    (ha : ∀ k, k < l.length → inMemory (a + k) = true) (h : Memory.wf m = true) :
    Memory.wf (Memory.insertAll m a l) = true := by
  induction l generalizing m a with
  | nil => exact h
  | cons v l ih =>
    refine ih _ _ (fun k hk => ?_) (Memory.wf_insert m a v (ha 0 (by simp)) h)
    have := ha (k + 1) (by simpa using hk)
    rwa [show a + 1 + k = a + (k + 1) by omega]

theorem inMemory_iff (a : Nat) :
    inMemory a = true ↔ (0x400 ≤ a ∧ a < 0x600) ∨ (0x800 ≤ a ∧ a < 0xA00) := by
  simp only [inMemory, Bool.or_eq_true, Bool.and_eq_true, decide_eq_true_eq]
  simp only [bufBase, outBase, Config.bufLen]

/-- A string that fits in OUT may be written there. -/
theorem State.wf_setOut (s : State) (b : List Byte) (hb : b.length ≤ Config.bufLen) (h : Memory.wf s.mem = true) :
    Memory.wf (s.setOut b).mem = true := by
  refine Memory.wf_insertAll _ _ _ (fun k hk => ?_) h
  have : Config.bufLen = 512 := rfl
  rw [inMemory_iff]; simp only [outBase]; omega

/-- A byte of BUF or OUT after a write to OUT. -/
theorem State.memByte_setOut (s : State) (b : List Byte) (a : Nat) :
    (s.setOut b).memByte a =
      if outBase ≤ a ∧ a < outBase + b.length then b.getD (a - outBase) 0 else s.memByte a := by
  simp only [State.memByte, State.setOut_mem, State.setOut_epoch, Memory.lookup_insertAll]
  split <;> simp

/-- A byte of OUT after a write to OUT. -/
theorem State.outByte_setOut (s : State) (b : List Byte) (i : Nat) :
    (s.setOut b).outByte i = if i < b.length then b.getD i 0 else s.outByte i := by
  simp only [State.outByte, State.memByte_setOut]
  by_cases h : i < b.length
  · rw [if_pos (by omega), if_pos h]; simp
  · rw [if_neg (by omega), if_neg h]

/-- A write to OUT changes no byte of BUF. -/
theorem State.bufByte_setOut (s : State) (b : List Byte) (i : Nat) (h : i < Config.bufLen) :
    (s.setOut b).bufByte i = s.bufByte i := by
  have hb : Config.bufLen = 512 := rfl
  simp only [State.bufByte, State.memByte_setOut]
  rw [if_neg (by simp only [bufBase, outBase]; omega)]

@[simp] theorem State.bufSlice_length (s : State) (i n : Nat) : (s.bufSlice i n).length = n := by
  simp [State.bufSlice]

theorem State.getD_bufSlice (s : State) (i n k : Nat) (h : k < n) : (s.bufSlice i n).getD k 0 = s.bufByte (i + k) := by
  simp [State.bufSlice, List.getD, h]

/-- Two states with the same bytes of BUF in a range have the same substring there. -/
theorem State.bufSlice_congr (s t : State) (i j n : Nat) (h : ∀ k, k < n → t.bufByte (j + k) = s.bufByte (i + k)) :
    t.bufSlice j n = s.bufSlice i n := by
  simp only [State.bufSlice]
  exact List.map_congr_left fun k hk => h k (by simpa using hk)

/-- The memory right after reset is in canonical form. -/
theorem State.wf_reset : Memory.wf State.reset.mem = true := rfl

end Sys2Proof.Machine
end

