-- ==== Sys2Proof/Laws/Bus.lean ====
section
/-! SUPPORT. The host port: the two forms of rule R212 agree, the address map region by region, what a register write and a
window write can change, and what one served access can do. -/

namespace Sys2Proof.Machine

/-! ### Widths and alignment (20_memory.md rule R212) -/

theorem widthBytes_pos (width : Width) : 0 < widthBytes width := by cases width <;> decide

theorem widthBytes_le (width : Width) : widthBytes width ≤ 4 := by cases width <;> decide

theorem inRegisterArea_iff (offset : BitVec 12) : inRegisterArea offset = true ↔ offset.toNat < 0x100 := by
  have h := offset.isLt
  rw [inRegisterArea, beq_iff_eq, ← BitVec.toNat_inj, BitVec.extractLsb'_toNat, Nat.shiftRight_eq_div_pow]
  change offset.toNat / 256 % 16 = 0 ↔ _
  omega

theorem lowBits_eq_zero_iff (offset : BitVec 12) (n : Nat) :
    (offset.extractLsb' 0 n == 0) = true ↔ offset.toNat % 2 ^ n = 0 := by
  rw [beq_iff_eq, ← BitVec.toNat_inj, BitVec.extractLsb'_toNat, Nat.shiftRight_zero]
  rfl

/-- The port allows an access exactly when it is well formed. -/
theorem busAllows_eq (width : Width) (offset : BitVec 12) :
    busAllows width offset.toNat = accessWellFormed width offset := by
  rw [Bool.eq_iff_iff]
  have hr := inRegisterArea_iff offset
  have h1 := lowBits_eq_zero_iff offset 1
  have h2 := lowBits_eq_zero_iff offset 2
  cases width <;> simp only [busAllows, accessWellFormed, widthBytes, Bool.and_eq_true, Bool.not_eq_true',
    ← Bool.not_eq_true, hr, h1, h2] <;> split <;> simp <;> omega

/-- An allowed access to the register area is a word access at a multiple of 4. -/
theorem busAllows_register (width : Width) (a : Nat) (ha : a < 0x100) (h : busAllows width a = true) :
    width = .word ∧ a % 4 = 0 := by
  simpa [busAllows, ha] using h

/-- An allowed window access is aligned to its width. -/
theorem busAllows_window (width : Width) (a : Nat) (ha : 0x100 ≤ a) (h : busAllows width a = true) :
    a % widthBytes width = 0 := by
  simpa [busAllows, Nat.not_lt.mpr ha] using h

/-! ### The address map (20_memory.md rule R202) -/

theorem regionOf_register (a : Nat) (h : a < 0x100) : regionOf a = .register := by
  rw [regionOf, if_pos h]

theorem regionOf_key (a : Nat) (h : 0x100 ≤ a) (h' : a < 0x110) : regionOf a = .key (a - 0x100) := by
  unfold regionOf; repeat' split
  all_goals first | rfl | omega

theorem regionOf_nonce (a : Nat) (h : 0x110 ≤ a) (h' : a < 0x11D) : regionOf a = .nonce (a - 0x110) := by
  unfold regionOf; repeat' split
  all_goals first | rfl | omega

theorem regionOf_blk (a : Nat) (h : 0x120 ≤ a) (h' : a < 0x130) : regionOf a = .blk (a - 0x120) := by
  unfold regionOf; repeat' split
  all_goals first | rfl | omega

theorem regionOf_res (a : Nat) (h : 0x130 ≤ a) (h' : a < 0x140) : regionOf a = .res (a - 0x130) := by
  unfold regionOf; repeat' split
  all_goals first | rfl | omega

theorem regionOf_buf (a : Nat) (h : 0x400 ≤ a) (h' : a < 0x600) : regionOf a = .buf (a - 0x400) := by
  have hb : bufBase = 0x400 := rfl
  have ho : outBase = 0x800 := rfl
  have hl : Config.bufLen = 512 := rfl
  unfold regionOf; repeat' split
  all_goals first | rfl | omega

theorem regionOf_out (a : Nat) (h : 0x800 ≤ a) (h' : a < 0xA00) : regionOf a = .out (a - 0x800) := by
  have hb : bufBase = 0x400 := rfl
  have ho : outBase = 0x800 := rfl
  have hl : Config.bufLen = 512 := rfl
  unfold regionOf; repeat' split
  all_goals first | rfl | omega

/-- The reserved offsets above the register area. -/
theorem regionOf_reserved (a : Nat)
    (h : (0x11D ≤ a ∧ a < 0x120) ∨ (0x140 ≤ a ∧ a < 0x400) ∨ (0x600 ≤ a ∧ a < 0x800) ∨ 0xA00 ≤ a) :
    regionOf a = .reserved := by
  have hb : bufBase = 0x400 := rfl
  have ho : outBase = 0x800 := rfl
  have hl : Config.bufLen = 512 := rfl
  unfold regionOf; repeat' split
  all_goals first | rfl | omega

/-- Every offset lies in exactly one region. -/
theorem region_cases (a : Nat) :
    a < 0x100 ∨ (0x100 ≤ a ∧ a < 0x110) ∨ (0x110 ≤ a ∧ a < 0x11D) ∨ (0x120 ≤ a ∧ a < 0x130) ∨ (0x130 ≤ a ∧ a < 0x140)
      ∨ (0x400 ≤ a ∧ a < 0x600) ∨ (0x800 ≤ a ∧ a < 0xA00)
      ∨ ((0x11D ≤ a ∧ a < 0x120) ∨ (0x140 ≤ a ∧ a < 0x400) ∨ (0x600 ≤ a ∧ a < 0x800) ∨ 0xA00 ≤ a) := by
  omega

/-- The offsets whose window byte the host may write: KEY, NONCE, BLK and BUF (10_state.md rule R123). -/
theorem writable_cases (a : Nat) (h : 0x100 ≤ a) :
    (0x100 ≤ a ∧ a < 0x110) ∨ (0x110 ≤ a ∧ a < 0x11D) ∨ (0x120 ≤ a ∧ a < 0x130) ∨ (0x400 ≤ a ∧ a < 0x600)
      ∨ ¬ (a < 0x11D ∨ (0x120 ≤ a ∧ a < 0x130) ∨ (0x400 ≤ a ∧ a < 0x600)) := by
  omega

/-- The window bytes a command may write: NONCE, RES and OUT (70_reset_and_hazards.md rule R1112). -/
theorem isResultByte_iff (a : Nat) :
    isResultByte a = true ↔
      (0x110 ≤ a ∧ a < 0x11D) ∨ (0x130 ≤ a ∧ a < 0x140) ∨ (0x800 ≤ a ∧ a < 0xA00) := by
  rcases region_cases a with h | h | h | h | h | h | h | h
  · simp only [isResultByte, regionOf_register a h]; simp; omega
  · simp only [isResultByte, regionOf_key a h.1 h.2]; simp; omega
  · simp only [isResultByte, regionOf_nonce a h.1 h.2]; simp; omega
  · simp only [isResultByte, regionOf_blk a h.1 h.2]; simp; omega
  · simp only [isResultByte, regionOf_res a h.1 h.2]; simp; omega
  · simp only [isResultByte, regionOf_buf a h.1 h.2]; simp; omega
  · simp only [isResultByte, regionOf_out a h.1 h.2]; simp; omega
  · simp only [isResultByte, regionOf_reserved a h]; simp; omega

/-- A reserved window byte reads as zero (20_memory.md rule R203). -/
theorem State.windowByte_reserved (s : State) (a : Nat)
    (h : (0x11D ≤ a ∧ a < 0x120) ∨ (0x140 ≤ a ∧ a < 0x400) ∨ (0x600 ≤ a ∧ a < 0x800) ∨ 0xA00 ≤ a) :
    s.windowByte a = 0 := by
  simp [State.windowByte, regionOf_reserved a h]

/-! ### Register writes -/

/-- Everything a register write can do: it starts a command (CMD), or it changes only configuration and operand
registers. -/
theorem State.writeRegister_cases (s : State) (a : Nat) (v : Word) :
    (a = 0x00C ∧ s.writeRegister a v = s.acceptCommand v)
    ∨ (a ≠ 0x00C ∧ s.writeRegister a v = { s with
        ie := (s.writeRegister a v).ie
        defLevel := (s.writeRegister a v).defLevel
        ipol := (s.writeRegister a v).ipol
        alen := (s.writeRegister a v).alen
        mlen := (s.writeRegister a v).mlen
        caplen := (s.writeRegister a v).caplen
        replen := (s.writeRegister a v).replen
        hoff := (s.writeRegister a v).hoff
        netid := (s.writeRegister a v).netid
        hintLo := (s.writeRegister a v).hintLo
        hintHi := (s.writeRegister a v).hintHi
        hintv := (s.writeRegister a v).hintv
        label := (s.writeRegister a v).label
        tag := (s.writeRegister a v).tag }) := by
  by_cases h : a = 0x00C
  · subst h; exact .inl ⟨rfl, rfl⟩
  · refine .inr ⟨h, ?_⟩
    unfold State.writeRegister
    split <;> first | rfl | exact absurd rfl h

/-- A write to a read-only register or to a reserved register offset changes nothing (10_state.md rule R100). -/
theorem State.writeRegister_ignored (s : State) (a : Nat) (v : Word) (h : a = 0 ∨ 0x03C ≤ a) :
    s.writeRegister a v = s := by
  unfold State.writeRegister
  split <;> first | rfl | omega

/-! ### Window writes -/

/-- Everything a window write can change. -/
theorem State.writeWindow_eq (s : State) (a : Nat) (l : List Byte) :
    s.writeWindow a l = { s with
      key := (s.writeWindow a l).key
      nonce := (s.writeWindow a l).nonce
      blk := (s.writeWindow a l).blk
      mem := (s.writeWindow a l).mem } := by
  induction l generalizing s a with
  | nil => rfl
  | cons v l ih =>
    have h2 := ih (s.writeWindowByte a v) (a + 1)
    simp only [State.writeWindow]
    rw [h2]
    unfold State.writeWindowByte
    split <;> rfl

/-- A window byte after one byte was written. -/
theorem State.windowByte_writeWindowByte (s : State) (a b : Nat) (v : Byte) (ha : 0x100 ≤ a) (hb : 0x100 ≤ b) :
    (s.writeWindowByte a v).windowByte b =
      if b = a ∧ (a < 0x11D ∨ (0x120 ≤ a ∧ a < 0x130) ∨ (0x400 ≤ a ∧ a < 0x600)) then v else s.windowByte b := by
  rcases writable_cases a ha with h | h | h | h | h
  · have hw : s.writeWindowByte a v = { s with key := s.key.set (a - 0x100) v } := by
      simp only [State.writeWindowByte, regionOf_key a h.1 h.2]
    rw [hw]
    rcases region_cases b with h' | h' | h' | h' | h' | h' | h' | h'
    · omega
    · simp only [State.windowByte, regionOf_key b h'.1 h'.2]
      rw [FixedList.get_set _ _ _ _ (by omega)]
      by_cases e : b = a
      · rw [if_pos (by omega), if_pos (by omega)]
      · rw [if_neg (by omega), if_neg (by omega)]
    · rw [if_neg (by omega)]; simp only [State.windowByte, regionOf_nonce b h'.1 h'.2]
    · rw [if_neg (by omega)]; simp only [State.windowByte, regionOf_blk b h'.1 h'.2]
    · rw [if_neg (by omega)]; simp only [State.windowByte, regionOf_res b h'.1 h'.2]
    · rw [if_neg (by omega)]; simp only [State.windowByte, regionOf_buf b h'.1 h'.2]; rfl
    · rw [if_neg (by omega)]; simp only [State.windowByte, regionOf_out b h'.1 h'.2]; rfl
    · rw [if_neg (by omega)]; simp only [State.windowByte, regionOf_reserved b h']
  · have hw : s.writeWindowByte a v = { s with nonce := s.nonce.set (a - 0x110) v } := by
      simp only [State.writeWindowByte, regionOf_nonce a h.1 h.2]
    rw [hw]
    rcases region_cases b with h' | h' | h' | h' | h' | h' | h' | h'
    · omega
    · rw [if_neg (by omega)]; simp only [State.windowByte, regionOf_key b h'.1 h'.2]
    · simp only [State.windowByte, regionOf_nonce b h'.1 h'.2]
      rw [FixedList.get_set _ _ _ _ (by omega)]
      by_cases e : b = a
      · rw [if_pos (by omega), if_pos (by omega)]
      · rw [if_neg (by omega), if_neg (by omega)]
    · rw [if_neg (by omega)]; simp only [State.windowByte, regionOf_blk b h'.1 h'.2]
    · rw [if_neg (by omega)]; simp only [State.windowByte, regionOf_res b h'.1 h'.2]
    · rw [if_neg (by omega)]; simp only [State.windowByte, regionOf_buf b h'.1 h'.2]; rfl
    · rw [if_neg (by omega)]; simp only [State.windowByte, regionOf_out b h'.1 h'.2]; rfl
    · rw [if_neg (by omega)]; simp only [State.windowByte, regionOf_reserved b h']
  · have hw : s.writeWindowByte a v = { s with blk := s.blk.set (a - 0x120) v } := by
      simp only [State.writeWindowByte, regionOf_blk a h.1 h.2]
    rw [hw]
    rcases region_cases b with h' | h' | h' | h' | h' | h' | h' | h'
    · omega
    · rw [if_neg (by omega)]; simp only [State.windowByte, regionOf_key b h'.1 h'.2]
    · rw [if_neg (by omega)]; simp only [State.windowByte, regionOf_nonce b h'.1 h'.2]
    · simp only [State.windowByte, regionOf_blk b h'.1 h'.2]
      rw [FixedList.get_set _ _ _ _ (by omega)]
      by_cases e : b = a
      · rw [if_pos (by omega), if_pos (by omega)]
      · rw [if_neg (by omega), if_neg (by omega)]
    · rw [if_neg (by omega)]; simp only [State.windowByte, regionOf_res b h'.1 h'.2]
    · rw [if_neg (by omega)]; simp only [State.windowByte, regionOf_buf b h'.1 h'.2]; rfl
    · rw [if_neg (by omega)]; simp only [State.windowByte, regionOf_out b h'.1 h'.2]; rfl
    · rw [if_neg (by omega)]; simp only [State.windowByte, regionOf_reserved b h']
  · have hw : s.writeWindowByte a v = { s with mem := Memory.insert s.mem (bufBase + (a - 0x400)) v } := by
      simp only [State.writeWindowByte, regionOf_buf a h.1 h.2]
    rw [hw]
    rcases region_cases b with h' | h' | h' | h' | h' | h' | h' | h'
    · omega
    · rw [if_neg (by omega)]; simp only [State.windowByte, regionOf_key b h'.1 h'.2]
    · rw [if_neg (by omega)]; simp only [State.windowByte, regionOf_nonce b h'.1 h'.2]
    · rw [if_neg (by omega)]; simp only [State.windowByte, regionOf_blk b h'.1 h'.2]
    · rw [if_neg (by omega)]; simp only [State.windowByte, regionOf_res b h'.1 h'.2]
    · simp only [State.windowByte, regionOf_buf b h'.1 h'.2, State.bufByte, State.memByte, Memory.lookup_insert, bufBase]
      by_cases e : b = a
      · rw [if_pos (by omega), if_pos (by omega)]; rfl
      · rw [if_neg (by omega), if_neg (by omega)]
    · rw [if_neg (by omega)]
      simp only [State.windowByte, regionOf_out b h'.1 h'.2, State.outByte, State.memByte, Memory.lookup_insert, bufBase,
        outBase]
      rw [if_neg (by omega)]
    · rw [if_neg (by omega)]; simp only [State.windowByte, regionOf_reserved b h']
  · have hw : s.writeWindowByte a v = s := by
      rcases region_cases a with h' | h' | h' | h' | h' | h' | h' | h'
      · omega
      · omega
      · omega
      · omega
      · simp only [State.writeWindowByte, regionOf_res a h'.1 h'.2]
      · omega
      · simp only [State.writeWindowByte, regionOf_out a h'.1 h'.2]
      · simp only [State.writeWindowByte, regionOf_reserved a h']
    rw [hw, if_neg (by omega)]

/-- A window byte after a string was written: inside it the string's byte where the host may write, elsewhere the old
one. -/
theorem State.windowByte_writeWindow (s : State) (a b : Nat) (l : List Byte) (ha : 0x100 ≤ a) (hb : 0x100 ≤ b) :
    (s.writeWindow a l).windowByte b =
      if (a ≤ b ∧ b < a + l.length) ∧ (b < 0x11D ∨ (0x120 ≤ b ∧ b < 0x130) ∨ (0x400 ≤ b ∧ b < 0x600))
      then l.getD (b - a) 0 else s.windowByte b := by
  induction l generalizing s a with
  | nil => simp only [State.writeWindow, List.length_nil]; rw [if_neg (by omega)]
  | cons v l ih =>
    simp only [State.writeWindow, List.length_cons]
    rw [ih _ _ (by omega), State.windowByte_writeWindowByte s a b v ha hb]
    by_cases e : b = a
    · subst e
      rw [if_neg (by omega)]
      simp only [Nat.sub_self, List.getD_cons_zero]
      congr 1
      simp
    · rw [if_neg (show ¬ (b = a ∧ _) by omega)]
      by_cases h : a + 1 ≤ b
      · obtain ⟨k, hk⟩ : ∃ k, b - a = k + 1 := ⟨b - a - 1, by omega⟩
        rw [hk, show b - (a + 1) = k by omega, List.getD_cons_succ]
        congr 1
        simp only [eq_iff_iff]; omega
      · rw [if_neg (by omega), if_neg (by omega)]

/-- A window write keeps the canonical form of the memory. -/
theorem State.wf_writeWindow (s : State) (a : Nat) (l : List Byte) (h : Memory.wf s.mem = true) :
    Memory.wf (s.writeWindow a l).mem = true := by
  induction l generalizing s a with
  | nil => exact h
  | cons v l ih =>
    refine ih _ _ ?_
    rcases region_cases a with h' | h' | h' | h' | h' | h' | h' | h'
    · simpa only [State.writeWindowByte, regionOf_register a h'] using h
    · simpa only [State.writeWindowByte, regionOf_key a h'.1 h'.2] using h
    · simpa only [State.writeWindowByte, regionOf_nonce a h'.1 h'.2] using h
    · simpa only [State.writeWindowByte, regionOf_blk a h'.1 h'.2] using h
    · simpa only [State.writeWindowByte, regionOf_res a h'.1 h'.2] using h
    · simp only [State.writeWindowByte, regionOf_buf a h'.1 h'.2]
      exact Memory.wf_insert _ _ _ (by rw [inMemory_iff]; simp only [bufBase]; omega) h
    · simpa only [State.writeWindowByte, regionOf_out a h'.1 h'.2] using h
    · simpa only [State.writeWindowByte, regionOf_reserved a h'] using h

/-- A window write changes no byte of OUT. -/
theorem State.outByte_writeWindow (s : State) (a : Nat) (l : List Byte) (i : Nat) (ha : 0x100 ≤ a)
    (hi : i < Config.bufLen) : (s.writeWindow a l).outByte i = s.outByte i := by
  have hb : Config.bufLen = 512 := rfl
  have h := State.windowByte_writeWindow s a (0x800 + i) l ha (by omega)
  rw [if_neg (by omega)] at h
  simpa [State.windowByte, regionOf_out (0x800 + i) (by omega) (by omega)] using h

/-! ### What one served access can do -/

/-- The response of a served access is not an error exactly when the access is allowed. -/
theorem State.serveRead_resp (s : State) (width : Width) (a : Nat) :
    (s.serveRead width a).resp = some
      { error := !busAllows width a, data := if busAllows width a then s.readData width a else 0 } := by
  unfold State.serveRead State.busError; split <;> simp_all

/-- A read leaves the block as it is (20_memory.md rule R215). -/
theorem State.serveRead_eq (s : State) (width : Width) (a : Nat) :
    s.serveRead width a = { s with resp := (s.serveRead width a).resp, draws := (s.serveRead width a).draws } := by
  unfold State.serveRead State.busError State.countDraw
  repeat' split
  all_goals rfl

/-- A write to STATUS is served at any time (10_state.md rule R103). -/
theorem State.serveWrite_status (s : State) (data : Word) :
    s.serveWrite .word 0x008 data = (s.clearStatus data).respond false 0 := rfl

/-- A write while BUSY is dropped (70_reset_and_hazards.md rule R1113). -/
theorem State.serveWrite_busy (s : State) (width : Width) (a : Nat) (data : Word) (h : busAllows width a = true)
    (ha : a ≠ 0x008) (hb : s.busy = true) :
    s.serveWrite width a data = ({ s with werr := true } : State).respond false 0 := by
  rw [State.serveWrite, if_pos h, State.applyWrite, if_neg ha, if_pos hb]

/-- A register write while idle. -/
theorem State.serveWrite_register (s : State) (width : Width) (a : Nat) (data : Word) (h : busAllows width a = true)
    (ha : a ≠ 0x008) (hb : s.busy = false) (hr : a < 0x100) :
    s.serveWrite width a data = (s.writeRegister a data).respond false 0 := by
  rw [State.serveWrite, if_pos h, State.applyWrite, if_neg ha, hb, if_neg (by simp), if_pos hr]

/-- A window write while idle. -/
theorem State.serveWrite_window (s : State) (width : Width) (a : Nat) (data : Word) (h : busAllows width a = true)
    (hb : s.busy = false) (hr : 0x100 ≤ a) :
    s.serveWrite width a data = (s.writeWindow a (leBytes (widthBytes width) data.toNat)).respond false 0 := by
  rw [State.serveWrite, if_pos h, State.applyWrite, if_neg (by omega), hb, if_neg (by simp), if_neg (by omega)]

/-- An access that the port does not allow (20_memory.md rule R213). -/
theorem State.serveWrite_error (s : State) (width : Width) (a : Nat) (data : Word) (h : busAllows width a = false) :
    s.serveWrite width a data = s.respond true 0 := by
  rw [State.serveWrite, h, if_neg (by simp)]; rfl

theorem State.serveRead_error (s : State) (width : Width) (a : Nat) (h : busAllows width a = false) :
    s.serveRead width a = s.respond true 0 := by
  rw [State.serveRead, h, if_neg (by simp)]; rfl

theorem State.serveRead_allowed (s : State) (width : Width) (a : Nat) (h : busAllows width a = true) :
    s.serveRead width a = s.countDraw.respond false (s.readData width a) := by
  rw [State.serveRead, if_pos h]

theorem State.countDraw_idle (s : State) (h : s.busy = false) : s.countDraw = s := by
  rw [State.countDraw, h, if_neg (by simp)]

/-- The data of a register read while idle. -/
theorem State.readData_register (s : State) (width : Width) (a : Nat) (ha : a < 0x100) (hb : s.busy = false) :
    s.readData width a = s.registerWord a := by
  simp [State.readData, ha, State.hostRegister, hb]

/-- The data of a window read while idle, as a number. -/
theorem State.readData_window (s : State) (width : Width) (a : Nat) (ha : 0x100 ≤ a) (hb : s.busy = false) :
    s.readData width a
      = BitVec.ofNat 32 (fromLE ((List.range (widthBytes width)).map fun k => s.windowByte (a + k))) := by
  simp [State.readData, Nat.not_lt.mpr ha, State.hostByte, hb]

/-- Everything a write can do: a bus error; a write to STATUS; a dropped write; a register write; a window write. -/
theorem State.serveWrite_cases (s : State) (width : Width) (a : Nat) (data : Word) :
    (busAllows width a = false ∧ s.serveWrite width a data = s.respond true 0)
    ∨ (a = 0x008 ∧ s.serveWrite width a data = (s.clearStatus data).respond false 0)
    ∨ (busAllows width a = true ∧ a ≠ 0x008 ∧ s.busy = true
        ∧ s.serveWrite width a data = ({ s with werr := true } : State).respond false 0)
    ∨ (busAllows width a = true ∧ a ≠ 0x008 ∧ s.busy = false ∧ a < 0x100 ∧ width = .word
        ∧ s.serveWrite width a data = (s.writeRegister a data).respond false 0)
    ∨ (busAllows width a = true ∧ s.busy = false ∧ 0x100 ≤ a
        ∧ s.serveWrite width a data = (s.writeWindow a (leBytes (widthBytes width) data.toNat)).respond false 0) := by
  unfold State.serveWrite State.applyWrite State.busError
  by_cases h : busAllows width a = true
  · by_cases h8 : a = 0x008
    · exact .inr (.inl ⟨h8, by rw [if_pos h, if_pos h8]⟩)
    · by_cases hb : s.busy = true
      · exact .inr (.inr (.inl ⟨h, h8, hb, by rw [if_pos h, if_neg h8, if_pos hb]⟩))
      · have hb' : s.busy = false := by simpa using hb
        by_cases hr : a < 0x100
        · refine .inr (.inr (.inr (.inl ⟨h, h8, hb', hr, (busAllows_register width a hr h).1, ?_⟩)))
          rw [if_pos h, if_neg h8, if_neg hb, if_pos hr]
        · refine .inr (.inr (.inr (.inr ⟨h, hb', by omega, ?_⟩)))
          rw [if_pos h, if_neg h8, if_neg hb, if_neg hr]
  · have h' : busAllows width a = false := by simpa using h
    exact .inl ⟨h', by rw [if_neg h]⟩

end Sys2Proof.Machine
end

