-- ==== Sys2Proof/Laws/Crypto.lean ====
section
/-! SUPPORT. The hash and the CCM* transform: lengths of their byte strings, the layout of the CCM* blocks, and the two ways
a decryption can end. -/

namespace Sys2Proof.Machine

/-! ### Encodings of integers -/

/-- `BE_2(v)` is two bytes, the high one first (00_scope.md rule R11). -/
theorem beBytes_two (v : Nat) : beBytes 2 v = [BitVec.ofNat 8 (v / 256), BitVec.ofNat 8 v] := rfl

/-! ### The Matyas-Meyer-Oseas padding (41_mmo_hash.md rule R501) -/

/-- The number of zeros is the least one that fills the last block. -/
theorem mmoZeros_spec (n : Nat) :
    (n + 1 + mmoZeros n + 2) % 16 = 0 ∧ ∀ y, y < mmoZeros n → (n + 1 + y + 2) % 16 ≠ 0 := by
  simp only [mmoZeros]; constructor
  · omega
  · intro y hy; omega

/-- The padded input is a whole number of blocks. -/
theorem mmoPad_length (input : List Byte) :
    (mmoPad input).length = input.length + 1 + mmoZeros input.length + 2 := by
  simp [mmoPad]; omega

theorem mmoPad_length_mod (input : List Byte) : (mmoPad input).length % 16 = 0 := by
  rw [mmoPad_length]; exact (mmoZeros_spec _).1

/-- `key ⊕ (b)^16` is the exclusive-or with a constant string (rule R505). -/
theorem padKey_eq (key : Key) (b : Byte) : padKey key b = xorBytes key.toList (List.replicate 16 b) := by
  have h : ∀ l : List Byte, l.map (· ^^^ b) = xorBytes l (List.replicate l.length b) := by
    intro l
    induction l with
    | nil => rfl
    | cons x l ih => simp only [List.map_cons, ih, xorBytes, List.length_cons, List.replicate_succ, List.zipWith_cons_cons]
  have := h key.toList
  rwa [key.length_eq] at this

/-! ### CCM* blocks (42_ccm_star.md rules R600 to R605) -/

/-- A CCM* block is its flag byte, the nonce and two bytes. -/
theorem ccmBlock_toList (flag : Byte) (nonce : Nonce) (v : Nat) :
    (ccmBlock flag nonce v).toList = [flag] ++ nonce.toList ++ beBytes 2 v :=
  FixedList.toList_ofList 16 _ (by simp)

@[simp] theorem keystream_length (key : Key) (nonce : Nonce) (n : Nat) : (keystream key nonce n).length = n := by
  have h : ∀ k, ((List.range k).flatMap fun i => (keystreamBlock key nonce (i + 1)).toList).length = 16 * k := by
    intro k
    induction k with
    | zero => rfl
    | succ k ih => rw [List.range_succ, List.flatMap_append, List.length_append, ih]; simp; omega
  simp only [keystream, List.length_take, h, blocksFor]; omega

/-- Byte j of the keystream is byte j mod 16 of S_(1 + j/16) (42_ccm_star.md rule R603). -/
theorem keystream_getD (key : Key) (nonce : Nonce) (n j : Nat) (h : j < n) :
    (keystream key nonce n).getD j 0 = (keystreamBlock key nonce (1 + j / 16)).get (j % 16) := by
  have hl : ∀ k, ((List.range k).flatMap fun i => (keystreamBlock key nonce (i + 1)).toList).length = 16 * k := by
    intro k
    induction k with
    | zero => rfl
    | succ k ih => rw [List.range_succ, List.flatMap_append, List.length_append, ih]; simp; omega
  have hg : ∀ k, j < 16 * k →
      ((List.range k).flatMap fun i => (keystreamBlock key nonce (i + 1)).toList).getD j 0
        = (keystreamBlock key nonce (1 + j / 16)).get (j % 16) := by
    intro k hk
    induction k with
    | zero => omega
    | succ k ih =>
      rw [List.range_succ, List.flatMap_append]
      by_cases hjk : j < 16 * k
      · rw [List.getD_append _ _ _ _ (by rw [hl]; exact hjk)]; exact ih hjk
      · rw [List.getD_append_right _ _ _ _ (by rw [hl]; omega), hl]
        simp only [List.flatMap_cons, List.flatMap_nil, List.append_nil]
        have e : j / 16 = k := by omega
        rw [show 1 + j / 16 = k + 1 by omega, show j - 16 * k = j % 16 by omega]
        rfl
  have ht : ∀ (l : List Byte), (l.take n).getD j 0 = l.getD j 0 := by
    intro l; simp [List.getD, h]
  rw [keystream, ht, hg]
  simp only [blocksFor]; omega

@[simp] theorem cbcMac_length (key : Key) (nonce : Nonce) (a m : List Byte) (mic : MicLen) :
    (cbcMac key nonce a m mic).length = micBytes mic := by
  have := micBytes_le mic
  simp [cbcMac]; omega

/-! ### The transform (42_ccm_star.md rules R607 and R608) -/

@[simp] theorem decryptTag_length (key : Key) (nonce : Nonce) (u : List Byte) (mic : MicLen)
    (h : u.length = micBytes mic) : (decryptTag key nonce u mic).length = micBytes mic := by
  have := micBytes_le mic
  simp [decryptTag, h]; omega

/-- Only the first M bytes of S_0 meet the MIC field. -/
theorem decryptTag_eq (key : Key) (nonce : Nonce) (u : List Byte) (mic : MicLen) (h : u.length = micBytes mic) :
    decryptTag key nonce u mic = xorBytes u ((keystreamBlock key nonce 0).toList.take (micBytes mic)) := by
  rw [decryptTag, xorBytes_take, ← h, List.take_left]

/-- Everything a decryption can do: without a MIC it succeeds; with one it succeeds exactly when the tags agree. The
plaintext is the ciphertext under the keystream. -/
theorem ccmDecrypt_eq (key : Key) (nonce : Nonce) (a c u : List Byte) (mic : MicLen) (h : u.length = micBytes mic) :
    ccmDecrypt key nonce a (c ++ u) mic =
      if mic = .m0 ∨ cbcMac key nonce a (xorBytes c (keystream key nonce c.length)) mic = decryptTag key nonce u mic
      then some (xorBytes c (keystream key nonce c.length)) else none := by
  have hl : (c ++ u).length - micBytes mic = c.length := by rw [List.length_append, h]; omega
  simp only [ccmDecrypt, hl, List.take_left, List.drop_left]
  by_cases hm : mic = .m0 <;> simp [hm]

/-- The plaintext of a successful decryption is as long as the ciphertext. -/
theorem ccmDecrypt_length (key : Key) (nonce : Nonce) (a cu m : List Byte) (mic : MicLen)
    (h : ccmDecrypt key nonce a cu mic = some m) : m.length = cu.length - micBytes mic := by
  simp only [ccmDecrypt] at h
  repeat' split at h
  all_goals first
    | (cases h; simp)
    | cases h

/-- Encryption is the message under the keystream, then the tag under S_0 (empty without a MIC). -/
theorem ccmEncrypt_eq (key : Key) (nonce : Nonce) (a m : List Byte) (mic : MicLen) :
    ccmEncrypt key nonce a m mic = xorBytes m (keystream key nonce m.length)
      ++ xorBytes (cbcMac key nonce a m mic) ((keystreamBlock key nonce 0).toList.take (micBytes mic)) := by
  simp only [ccmEncrypt]
  split
  · subst_vars; simp [cbcMac, xorBytes, micBytes]
  · rfl

@[simp] theorem ccmEncrypt_length (key : Key) (nonce : Nonce) (a m : List Byte) (mic : MicLen) :
    (ccmEncrypt key nonce a m mic).length = m.length + micBytes mic := by
  have := micBytes_le mic
  rw [ccmEncrypt_eq]; simp; omega

end Sys2Proof.Machine
end

