-- ==== Sys2Proof/Laws/KeyRing.lean ====
section
/-! SUPPORT. The key ring: what slot lookup, allocation, the cache write and the append of a record can do, and which keys
can be candidates. -/

namespace Sys2Proof.Machine

/-! ### Slots (44_key_ring.md rules R810 and R812) -/

theorem FlowTable.getElem?_toList (t : FlowTable) (i : Nat) (h : i < 8) : t.toList[i]? = some (t.get i) := by
  have hl : t.toList.length = 8 := t.length_eq
  rw [FixedList.get_eq_getElem t i h]; simp [hl, h]

/-- A valid slot's flow stands in the table, and every flow of the table stands in some slot. -/
theorem FlowTable.mem_iff (t : FlowTable) (f : Flow) : some f ∈ t.toList ↔ ∃ i, i < 8 ∧ t.get i = some f := by
  rw [List.mem_iff_getElem?]
  constructor
  · rintro ⟨i, hi⟩
    have h : i < 8 := by
      have := (List.getElem?_eq_some_iff.mp hi).1
      have hl : t.toList.length = 8 := t.length_eq
      omega
    exact ⟨i, h, by simpa [FlowTable.getElem?_toList t i h] using hi⟩
  · rintro ⟨i, h, hi⟩
    exact ⟨i, by rw [FlowTable.getElem?_toList t i h, hi]⟩

/-- Reading a slot after another one or the same was written. -/
theorem FlowTable.get_set (t : FlowTable) (i j : Nat) (x : Option Flow) (h : i < 8) :
    FixedList.get (t.set i x) j = if j = i then x else t.get j :=
  FixedList.get_set t i j x h

/-- `slot(n)` finds the first valid slot with netid n. -/
theorem FlowTable.slot_eq_some (t : FlowTable) (n : Half) (i : Nat) :
    FlowTable.slot t n = some i ↔
      i < 8 ∧ (∃ f, t.get i = some f ∧ f.netid = n) ∧ ∀ j, j < i → ∀ g, t.get j = some g → g.netid ≠ n := by
  have hl : t.toList.length = 8 := t.length_eq
  rw [FlowTable.slot, List.findIdx?_eq_some_iff_getElem]
  have key : ∀ j (hj : j < t.toList.length), t.toList[j] = t.get j := fun j hj =>
    (FixedList.get_eq_getElem t j (show j < 8 by omega)).symm
  constructor
  · rintro ⟨h, hp, hn⟩
    rw [key] at hp
    refine ⟨by omega, ?_, ?_⟩
    · cases hg : t.get i with
      | none => rw [hg] at hp; simp at hp
      | some f => rw [hg] at hp; exact ⟨f, rfl, by simpa using hp⟩
    · intro j hj g hg
      have := hn j hj
      rw [key, hg] at this
      simpa using this
  · rintro ⟨h, ⟨f, hf, hfn⟩, hn⟩
    refine ⟨by omega, ?_, ?_⟩
    · rw [key, hf]; simpa using hfn
    · intro j hj
      rw [key]
      cases hg : t.get j with
      | none => simp
      | some g => simpa using hn j hj g hg

/-- `slot(n)` finds none exactly when no valid slot has netid n. -/
theorem FlowTable.slot_eq_none (t : FlowTable) (n : Half) :
    FlowTable.slot t n = none ↔ ∀ i g, i < 8 → t.get i = some g → g.netid ≠ n := by
  rw [FlowTable.slot, List.findIdx?_eq_none_iff]
  constructor
  · intro h i g hi hg
    simpa using h (some g) ((FlowTable.mem_iff t g).mpr ⟨i, hi, hg⟩)
  · intro h x hx
    cases x with
    | none => rfl
    | some g =>
      obtain ⟨i, hi, hg⟩ := (FlowTable.mem_iff t g).mp hx
      simpa using h i g hi hg

/-- The free slot is the lowest invalid one. -/
theorem FlowTable.freeSlot_eq_some (t : FlowTable) (i : Nat) :
    FlowTable.freeSlot t = some i ↔ i < 8 ∧ t.get i = none ∧ ∀ j, j < i → t.get j ≠ none := by
  have hl : t.toList.length = 8 := t.length_eq
  rw [FlowTable.freeSlot, List.findIdx?_eq_some_iff_getElem]
  have key : ∀ j (hj : j < t.toList.length), t.toList[j] = t.get j := fun j hj =>
    (FixedList.get_eq_getElem t j (show j < 8 by omega)).symm
  constructor
  · rintro ⟨h, hp, hn⟩
    rw [key] at hp
    refine ⟨by omega, by simpa using hp, fun j hj => ?_⟩
    have := hn j hj
    rw [key] at this
    simpa using this
  · rintro ⟨h, hf, hn⟩
    refine ⟨by omega, by rw [key, hf]; rfl, fun j hj => ?_⟩
    rw [key]; simpa using hn j hj

/-- There is no free slot exactly when every slot is valid. -/
theorem FlowTable.freeSlot_eq_none (t : FlowTable) :
    FlowTable.freeSlot t = none ↔ ∀ i, i < 8 → t.get i ≠ none := by
  have hl : t.toList.length = 8 := t.length_eq
  rw [FlowTable.freeSlot, List.findIdx?_eq_none_iff]
  constructor
  · intro h i hi hg
    have := h (t.get i) (FixedList.get_mem t i hi)
    rw [hg] at this
    simp at this
  · intro h x hx
    obtain ⟨i, hi⟩ := List.mem_iff_getElem?.mp hx
    have hi8 : i < 8 := by
      have := (List.getElem?_eq_some_iff.mp hi).1
      omega
    rw [FlowTable.getElem?_toList t i hi8] at hi
    have := h i hi8
    cases hi
    simpa [Option.isSome_iff_ne_none] using this

/-- Everything `flowOf` can answer. -/
theorem FlowTable.flowOf_eq_some (t : FlowTable) (n : Half) (f : Flow) (h : FlowTable.flowOf t n = some f) :
    ∃ i, i < 8 ∧ FlowTable.slot t n = some i ∧ t.get i = some f ∧ f.netid = n := by
  simp only [FlowTable.flowOf] at h
  split at h
  · rename_i i hi
    obtain ⟨h8, ⟨g, hg, hgn⟩, -⟩ := (FlowTable.slot_eq_some t n i).mp hi
    rw [hg] at h; cases h
    exact ⟨i, h8, hi, hg, hgn⟩
  · cases h

theorem FlowTable.flowOf_eq_none (t : FlowTable) (n : Half) :
    FlowTable.flowOf t n = none ↔ FlowTable.slot t n = none := by
  constructor
  · intro h
    cases hs : FlowTable.slot t n with
    | none => rfl
    | some i =>
      obtain ⟨-, ⟨g, hg, -⟩, -⟩ := (FlowTable.slot_eq_some t n i).mp hs
      simp only [FlowTable.flowOf, hs, hg] at h
      cases h
  · intro h; simp only [FlowTable.flowOf, h]

/-- Everything an allocation can do: the slot that is there; the lowest invalid slot, made new; none. -/
theorem FlowTable.alloc_cases (t : FlowTable) (n : Half) :
    (∃ i f, i < 8 ∧ FlowTable.slot t n = some i ∧ t.get i = some f ∧ f.netid = n ∧ FlowTable.alloc t n = some (i, t))
    ∨ (∃ i, i < 8 ∧ FlowTable.slot t n = none ∧ FlowTable.freeSlot t = some i ∧ t.get i = none
        ∧ FlowTable.alloc t n = some (i, t.set i (some (newFlow n))))
    ∨ (FlowTable.slot t n = none ∧ FlowTable.freeSlot t = none ∧ FlowTable.alloc t n = none) := by
  cases hs : FlowTable.slot t n with
  | some i =>
    obtain ⟨h8, ⟨f, hf, hfn⟩, -⟩ := (FlowTable.slot_eq_some t n i).mp hs
    exact .inl ⟨i, f, h8, rfl, hf, hfn, by simp only [FlowTable.alloc, hs]⟩
  | none =>
    cases hf : FlowTable.freeSlot t with
    | some i =>
      obtain ⟨h8, hn, -⟩ := (FlowTable.freeSlot_eq_some t i).mp hf
      exact .inr (.inl ⟨i, h8, rfl, rfl, hn, by simp only [FlowTable.alloc, hs, hf]⟩)
    | none => exact .inr (.inr ⟨rfl, rfl, by simp only [FlowTable.alloc, hs, hf]⟩)

/-- The two commands that change one slot do it in one way: a function of the flow that is there, or of a new one. -/
theorem FlowTable.update_alloc_cases (t : FlowTable) (n : Half) (g : Flow → Flow) :
    let t' := match FlowTable.alloc t n with
      | some (i, u) => FlowTable.update u i g
      | none => t
    (∃ i f, i < 8 ∧ FlowTable.slot t n = some i ∧ t.get i = some f ∧ f.netid = n ∧ t' = t.set i (some (g f)))
    ∨ (∃ i, i < 8 ∧ FlowTable.slot t n = none ∧ FlowTable.freeSlot t = some i ∧ t.get i = none
        ∧ t' = t.set i (some (g (newFlow n))))
    ∨ (FlowTable.slot t n = none ∧ FlowTable.freeSlot t = none ∧ t' = t) := by
  intro t'
  rcases FlowTable.alloc_cases t n with ⟨i, f, h8, hs, hf, hn, ha⟩ | ⟨i, h8, hs, hfree, hf, ha⟩ | ⟨hs, hfree, ha⟩
  · refine .inl ⟨i, f, h8, hs, hf, hn, ?_⟩
    show (match FlowTable.alloc t n with | some (i, u) => FlowTable.update u i g | none => t) = _
    rw [ha]; simp only [FlowTable.update, hf]; rfl
  · refine .inr (.inl ⟨i, h8, hs, hfree, hf, ?_⟩)
    show (match FlowTable.alloc t n with | some (i, u) => FlowTable.update u i g | none => t) = _
    rw [ha]
    simp only [FlowTable.update, FlowTable.get_set _ _ _ _ h8]
    apply FixedList.ext; simp
  · refine .inr (.inr ⟨hs, hfree, ?_⟩)
    show (match FlowTable.alloc t n with | some (i, u) => FlowTable.update u i g | none => t) = _
    rw [ha]

/-- Everything the append of a record can do (rule R835). -/
theorem FlowTable.append_cases (t : FlowTable) (n : Half) (r : KeyRecord) :
    (∃ i f, i < 8 ∧ FlowTable.slot t n = some i ∧ t.get i = some f ∧ f.netid = n
        ∧ FlowTable.append t n r = t.set i (some { f with keys := f.keys ++ [r] }))
    ∨ (∃ i, i < 8 ∧ FlowTable.slot t n = none ∧ FlowTable.freeSlot t = some i ∧ t.get i = none
        ∧ FlowTable.append t n r = t.set i (some { netid := n, keys := [r], cache := FlowCache.empty }))
    ∨ (FlowTable.slot t n = none ∧ FlowTable.freeSlot t = none ∧ FlowTable.append t n r = t) :=
  FlowTable.update_alloc_cases t n fun f => { f with keys := f.keys ++ [r] }

/-- Everything the cache write can do (rule R822). -/
theorem FlowTable.cacheWrite_cases (t : FlowTable) (n : Half) (k : KeyId) (r : Key) :
    (∃ i f, i < 8 ∧ FlowTable.slot t n = some i ∧ t.get i = some f ∧ f.netid = n
        ∧ FlowTable.cacheWrite t n k r = t.set i (some { f with cache := f.cache.store k r }))
    ∨ (∃ i, i < 8 ∧ FlowTable.slot t n = none ∧ FlowTable.freeSlot t = some i ∧ t.get i = none
        ∧ FlowTable.cacheWrite t n k r
          = t.set i (some { netid := n, keys := [], cache := FlowCache.empty.store k r }))
    ∨ (FlowTable.slot t n = none ∧ FlowTable.freeSlot t = none ∧ FlowTable.cacheWrite t n k r = t) :=
  FlowTable.update_alloc_cases t n fun f => { f with cache := f.cache.store k r }

/-! ### The cache -/

/-- A cache entry after a store. -/
theorem FlowCache.entry_store (c : FlowCache) (k k' : KeyId) (r : Key) :
    (c.store k r).entry k' = if k' = k then some r else c.entry k' := by
  cases k <;> cases k' <;> rfl

@[simp] theorem FlowCache.entry_empty (k : KeyId) : FlowCache.empty.entry k = none := by cases k <;> rfl

/-! ### Netids stay distinct -/

/-- In terms of slots: no two valid slots have one netid. -/
theorem FlowTable.netids_nodup_iff (t : FlowTable) :
    (t.toList.filterMap (Option.map Flow.netid)).Nodup ↔
      ∀ i j f g, i < j → j < 8 → t.get i = some f → t.get j = some g → f.netid ≠ g.netid := by
  have hl : t.toList.length = 8 := t.length_eq
  have key : ∀ j (hj : j < t.toList.length), t.toList[j] = t.get j := fun j hj =>
    (FixedList.get_eq_getElem t j (show j < 8 by omega)).symm
  rw [List.Nodup, List.pairwise_filterMap, List.pairwise_iff_getElem]
  constructor
  · intro h i j f g hij hj hf hg
    refine h i j (by omega) (by omega) hij f.netid ?_ g.netid ?_
    · rw [key, hf]; rfl
    · rw [key, hg]; rfl
  · intro h i j hi hj hij a ha b hb
    rw [key] at ha hb
    cases hf : t.get i with
    | none => rw [hf] at ha; cases ha
    | some f =>
      cases hg : t.get j with
      | none => rw [hg] at hb; cases hb
      | some g =>
        rw [hf] at ha; rw [hg] at hb
        cases ha; cases hb
        exact h i j f g hij (by omega) hf hg

/-- Replacing a slot's flow by one with the same netid, or filling an invalid slot with a netid no slot has, keeps netids
distinct. -/
theorem FlowTable.netids_nodup_set (t : FlowTable) (i : Nat) (f : Flow) (h8 : i < 8)
    (hother : ∀ j g, j < 8 → j ≠ i → t.get j = some g → g.netid ≠ f.netid)
    (h : (t.toList.filterMap (Option.map Flow.netid)).Nodup) :
    (FixedList.toList (t.set i (some f)) |>.filterMap (Option.map Flow.netid)).Nodup := by
  rw [FlowTable.netids_nodup_iff] at h
  refine (FlowTable.netids_nodup_iff (t.set i (some f))).mpr fun a b x y hab hb hx hy => ?_
  rw [FlowTable.get_set _ _ _ _ h8] at hx hy
  split at hx
  · cases hx
    rw [if_neg (by omega)] at hy
    exact (hother b y hb (by omega) hy).symm
  · split at hy
    · cases hy; exact hother a x (by omega) (by omega) hx
    · exact h a b x y hab hb hx hy

/-- With distinct netids, the slot of a valid flow's netid is its own. -/
theorem FlowTable.slot_of_get (t : FlowTable) (i : Nat) (f : Flow) (h8 : i < 8) (hf : t.get i = some f)
    (h : (t.toList.filterMap (Option.map Flow.netid)).Nodup) : FlowTable.slot t f.netid = some i := by
  rw [FlowTable.netids_nodup_iff] at h
  exact (FlowTable.slot_eq_some t f.netid i).mpr ⟨h8, ⟨f, hf, rfl⟩, fun j hj g hg => h j i g f hj h8 hg hf⟩

theorem FlowTable.flowOf_of_get (t : FlowTable) (i : Nat) (f : Flow) (h8 : i < 8) (hf : t.get i = some f)
    (h : (t.toList.filterMap (Option.map Flow.netid)).Nodup) : FlowTable.flowOf t f.netid = some f := by
  simp only [FlowTable.flowOf, FlowTable.slot_of_get t i f h8 hf h, hf]

/-! ### Keys and candidates (rules R800 and R814) -/

theorem holdsKey_iff (l : List KeyRecord) (k : Key) : holdsKey l k = true ↔ k ∈ keysOf l := by
  simp only [holdsKey, keysOf, List.any_eq_true, beq_iff_eq, List.mem_map]

@[simp] theorem keysOf_append (l : List KeyRecord) (r : KeyRecord) : keysOf (l ++ [r]) = keysOf l ++ [r.key] := by
  simp [keysOf]

/-- Appending a key that is not there keeps keys distinct. -/
theorem keysOf_nodup_append (l : List KeyRecord) (r : KeyRecord) (h : (keysOf l).Nodup) (hr : r.key ∉ keysOf l) :
    (keysOf (l ++ [r])).Nodup := by
  rw [keysOf_append]
  exact List.nodup_append.mpr ⟨h, List.nodup_singleton _, fun a ha b hb e => by
    rw [List.mem_singleton] at hb; subst e; subst hb; exact hr ha⟩

theorem map_zipIdx_key (l : List KeyRecord) (src : KeySource) :
    (l.zipIdx.map fun p => ({ raw := p.1.key, source := src, index := p.2 } : Candidate)).map Candidate.raw = keysOf l := by
  simp only [List.map_map, keysOf]
  rw [show (Candidate.raw ∘ fun p : KeyRecord × Nat => { raw := p.1.key, source := src, index := p.2 })
    = KeyRecord.key ∘ Prod.fst from rfl, ← List.map_map, List.zipIdx_map_fst]

/-- The raw keys of the flow candidates are the flow's keys, the last one first. -/
theorem flowCandidates_raw (f : Flow) : (flowCandidates f).map Candidate.raw = (keysOf f.keys).reverse := by
  rw [flowCandidates, List.map_reverse, map_zipIdx_key]

/-- The raw keys of the global candidates are the global keys in order. -/
theorem globalCandidates_raw (g : List KeyRecord) : (globalCandidates g).map Candidate.raw = keysOf g :=
  map_zipIdx_key g .globalList

@[simp] theorem flowCandidates_length (f : Flow) : (flowCandidates f).length = f.keys.length := by
  simp [flowCandidates]

@[simp] theorem globalCandidates_length (g : List KeyRecord) : (globalCandidates g).length = g.length := by
  simp [globalCandidates]

theorem cacheCandidates_length_le (f : Flow) (k : KeyId) : (cacheCandidates f k).length ≤ 1 := by
  unfold cacheCandidates; split <;> simp

/-- The keys a frame may be tried with: the cached key, the flow's keys, the global keys. -/
theorem State.raw_mem_candidates (s : State) (k : KeyId) (n : Half) (r : Key) :
    r ∈ (s.candidates k n).map Candidate.raw ↔
      r ∈ keysOf s.globalKeys
      ∨ ∃ f, FlowTable.flowOf s.flows n = some f ∧ (f.cache.entry k = some r ∨ r ∈ keysOf f.keys) := by
  unfold State.candidates
  cases hf : FlowTable.flowOf s.flows n with
  | none => simp [globalCandidates_raw]
  | some f =>
    simp only [List.map_append, List.mem_append, globalCandidates_raw, flowCandidates_raw, List.mem_reverse]
    have hc : r ∈ (cacheCandidates f k).map Candidate.raw ↔ f.cache.entry k = some r := by
      unfold cacheCandidates
      cases f.cache.entry k <;> simp [eq_comm]
    rw [hc]
    simp only [Option.some.injEq, exists_eq_left']
    exact or_comm

/-- A slot's flow with its caches emptied. -/
theorem State.get_withoutCaches (s : State) (i : Nat) (h : i < 8) :
    s.withoutCaches.flows.get i = (s.flows.get i).map fun f => { f with cache := FlowCache.empty } := by
  have e := FlowTable.getElem?_toList s.withoutCaches.flows i h
  have e' : s.withoutCaches.flows.toList[i]?
      = (s.flows.toList[i]?).map (Option.map fun f => { f with cache := FlowCache.empty }) := List.getElem?_map
  rw [e', FlowTable.getElem?_toList s.flows i h] at e
  exact (Option.some.inj e).symm

/-- Emptying the caches moves no flow. -/
theorem State.flowOf_withoutCaches (s : State) (n : Half) :
    FlowTable.flowOf s.withoutCaches.flows n
      = (FlowTable.flowOf s.flows n).map fun f => { f with cache := FlowCache.empty } := by
  have hs : FlowTable.slot s.withoutCaches.flows n = FlowTable.slot s.flows n := by
    have hp : ∀ i g, i < 8 → s.withoutCaches.flows.get i = some g →
        ∃ f, s.flows.get i = some f ∧ f.netid = g.netid := by
      intro i g hi hg
      rw [State.get_withoutCaches s i hi] at hg
      cases hf : s.flows.get i with
      | none => rw [hf] at hg; cases hg
      | some f => rw [hf] at hg; cases hg; exact ⟨f, rfl, rfl⟩
    cases hs : FlowTable.slot s.flows n with
    | none =>
      rw [FlowTable.slot_eq_none] at hs ⊢
      intro i g hi hg
      obtain ⟨f, hf, hn⟩ := hp i g hi hg
      rw [← hn]; exact hs i f hi hf
    | some i =>
      rw [FlowTable.slot_eq_some] at hs ⊢
      obtain ⟨hi, ⟨f, hf, hn⟩, hlow⟩ := hs
      refine ⟨hi, ⟨{ f with cache := FlowCache.empty }, by rw [State.get_withoutCaches s i hi, hf]; rfl, hn⟩, ?_⟩
      intro j hj g hg
      obtain ⟨f', hf', hn'⟩ := hp j g (by omega) hg
      rw [← hn']; exact hlow j hj f' hf'
  simp only [FlowTable.flowOf, hs]
  cases h : FlowTable.slot s.flows n with
  | none => rfl
  | some i => exact State.get_withoutCaches s i ((FlowTable.slot_eq_some s.flows n i).mp h).1

/-- The flow a cache write leaves for its netid, where a slot can be had: its cache entry for the key kind is the key, and
its keys are the ones that were there. -/
theorem FlowTable.flowOf_cacheWrite (t : FlowTable) (n : Half) (k : KeyId) (r : Key)
    (h : ∃ j, j < 8 ∧ (t.get j = none ∨ ∃ f, t.get j = some f ∧ f.netid = n)) :
    ∃ f, FlowTable.flowOf (FlowTable.cacheWrite t n k r) n = some f ∧ f.cache.entry k = some r
      ∧ f.keys = ((FlowTable.flowOf t n).map Flow.keys).getD [] := by
  rcases FlowTable.cacheWrite_cases t n k r with ⟨i, f, h8, hs, hf, hn, e⟩ | ⟨i, h8, hs, hfree, hf, e⟩ | ⟨hs, hfree, e⟩
  · have hold : FlowTable.flowOf t n = some f := by simp only [FlowTable.flowOf, hs, hf]
    have hs' : FlowTable.slot (FlowTable.cacheWrite t n k r) n = some i := by
      rw [e]
      refine (FlowTable.slot_eq_some (t.set i _) n i).mpr
        ⟨h8, ⟨{ f with cache := f.cache.store k r }, by rw [FlowTable.get_set _ _ _ _ h8, if_pos rfl], hn⟩, ?_⟩
      intro j hj g hg
      rw [FlowTable.get_set _ _ _ _ h8, if_neg (by omega)] at hg
      exact ((FlowTable.slot_eq_some t n i).mp hs).2.2 j hj g hg
    refine ⟨{ f with cache := f.cache.store k r }, ?_, ?_, by rw [hold]; rfl⟩
    · simp only [FlowTable.flowOf, hs']
      rw [e, FlowTable.get_set _ _ _ _ h8, if_pos rfl]
    · rw [FlowCache.entry_store, if_pos rfl]
  · have hold : FlowTable.flowOf t n = none := (FlowTable.flowOf_eq_none t n).mpr hs
    have hs' : FlowTable.slot (FlowTable.cacheWrite t n k r) n = some i := by
      rw [e]
      refine (FlowTable.slot_eq_some (t.set i _) n i).mpr
        ⟨h8, ⟨_, by rw [FlowTable.get_set _ _ _ _ h8, if_pos rfl], rfl⟩, ?_⟩
      intro j hj g hg
      rw [FlowTable.get_set _ _ _ _ h8, if_neg (by omega)] at hg
      exact (FlowTable.slot_eq_none t n).mp hs j g (by omega) hg
    refine ⟨{ netid := n, keys := [], cache := FlowCache.empty.store k r }, ?_, ?_, by rw [hold]; rfl⟩
    · simp only [FlowTable.flowOf, hs']
      rw [e, FlowTable.get_set _ _ _ _ h8, if_pos rfl]
    · rw [FlowCache.entry_store, if_pos rfl]
  · obtain ⟨j, hj, hg | ⟨f, hg, hn⟩⟩ := h
    · exact absurd hg ((FlowTable.freeSlot_eq_none t).mp hfree j hj)
    · exact absurd hn ((FlowTable.slot_eq_none t n).mp hs j f hj hg)

end Sys2Proof.Machine
end

