-- ==== Sys2Proof/Laws/Frame.lean ====
section
/-! SUPPORT. The header parse, the trial loop and DECRYPT_FRAME: what each can answer, said once. -/

namespace Sys2Proof.Machine

/-! ### The parse (43_header_nonce.md rules R703 to R707) -/

/-- The control byte of the frame after the level patch (rule R702). -/
def State.patchedCtrl (s : State) : Byte := patchLevel (s.bufByte s.hoffN) s.defLevel

/-- Everything `parse` answers when it succeeds: its checks hold and the header's fields are these. -/
theorem parse_eq_ok (s : State) (hd : Header) (h : parse s = .ok hd) :
    s.caplenN ≤ Config.bufLen
    ∧ hd.payoff ≤ s.caplenN ∧ hd.payoff + hd.paylen + micBytes hd.mic = s.replenN
    ∧ hd.wire = s.bufByte s.hoffN ∧ hd.ctrl = s.patchedCtrl
    ∧ hd.payoff = s.hoffN + headerLength s.patchedCtrl
    ∧ hd.fc = BitVec.ofNat 32 (fromLE (s.bufSlice (s.hoffN + 1) 4))
    ∧ hd.ext = (if ctrlExtn s.patchedCtrl then BitVec.ofNat 64 (fromLE (s.bufSlice (s.hoffN + 5) 8)) else 0)
    ∧ hd.ksn = (if ctrlKsnp s.patchedCtrl then s.bufByte (s.hoffN + 5 + 8 * (ctrlExtn s.patchedCtrl).toNat) else 0) := by
  dsimp only [parse] at h
  rw [show patchLevel (s.bufByte s.hoffN) s.defLevel = s.patchedCtrl from rfl] at h
  by_cases h1 : s.caplenN > Config.bufLen
  · simp only [if_pos h1] at h; cases h
  by_cases h2 : s.hoffN + 1 > min s.caplenN s.replenN
  · simp only [if_neg h1, if_pos h2] at h; cases h
  by_cases h3 : s.hoffN + headerLength s.patchedCtrl > min s.caplenN s.replenN
  · simp only [if_neg h1, if_neg h2, if_pos h3] at h; cases h
  by_cases h4 : s.replenN < s.hoffN + headerLength s.patchedCtrl + micBytes (levelMic (ctrlLevel s.patchedCtrl))
  · simp only [if_neg h1, if_neg h2, if_neg h3, if_pos h4] at h; cases h
  simp only [if_neg h1, if_neg h2, if_neg h3, if_neg h4, Except.ok.injEq] at h
  subst h
  refine ⟨by omega, ?_, ?_, rfl, rfl, rfl, rfl, rfl, rfl⟩
  · dsimp only; omega
  · dsimp only [Header.mic, Header.level]; omega

/-- When its checks hold, `parse` answers this header. -/
theorem parse_ok (s : State) (h1 : s.caplenN ≤ Config.bufLen) (h2 : s.hoffN + headerLength s.patchedCtrl ≤ s.caplenN)
    (h3 : s.hoffN + headerLength s.patchedCtrl + micBytes (levelMic (ctrlLevel s.patchedCtrl)) ≤ s.replenN) :
    parse s = .ok
      { wire := s.bufByte s.hoffN
        ctrl := s.patchedCtrl
        fc := BitVec.ofNat 32 (fromLE (s.bufSlice (s.hoffN + 1) 4))
        ext := if ctrlExtn s.patchedCtrl then BitVec.ofNat 64 (fromLE (s.bufSlice (s.hoffN + 5) 8)) else 0
        ksn := if ctrlKsnp s.patchedCtrl then s.bufByte (s.hoffN + 5 + 8 * (ctrlExtn s.patchedCtrl).toNat) else 0
        payoff := s.hoffN + headerLength s.patchedCtrl
        paylen := s.replenN - (s.hoffN + headerLength s.patchedCtrl)
          - micBytes (levelMic (ctrlLevel s.patchedCtrl)) } := by
  have h4 : 5 ≤ headerLength s.patchedCtrl := by simp only [headerLength]; omega
  dsimp only [parse]
  rw [show patchLevel (s.bufByte s.hoffN) s.defLevel = s.patchedCtrl from rfl]
  rw [if_neg (by omega), if_neg (by omega), if_neg (by omega), if_neg (by omega)]

/-- The header is at least five bytes long. -/
theorem headerLength_ge (c : Byte) : 5 ≤ headerLength c := by simp only [headerLength]; omega

theorem parse_hoff_lt (s : State) (hd : Header) (h : parse s = .ok hd) : s.hoffN < hd.payoff := by
  obtain ⟨-, -, -, -, -, hp, -⟩ := parse_eq_ok s hd h
  have := headerLength_ge s.patchedCtrl
  omega

/-- The errors of the parse, and when each of them is reported (rule R703). -/
theorem parse_eq_error (s : State) (e : ErrCode) :
    parse s = .error e ↔
      (s.caplenN > Config.bufLen ∧ e = .frameTooLarge)
      ∨ (s.caplenN ≤ Config.bufLen ∧ e = .headerTooShort
        ∧ (min s.caplenN s.replenN < s.hoffN + 1
          ∨ min s.caplenN s.replenN < s.hoffN + headerLength s.patchedCtrl
          ∨ s.replenN < s.hoffN + headerLength s.patchedCtrl + micBytes (levelMic (ctrlLevel s.patchedCtrl)))) := by
  simp only [parse, State.patchedCtrl]
  repeat' split
  all_goals first
    | (constructor
       · intro h; cases h; first | exact .inl ⟨by assumption, rfl⟩ | exact .inr ⟨by omega, rfl, by omega⟩
       · rintro (⟨h1, rfl⟩ | ⟨h1, rfl, h2⟩) <;> first | rfl | omega)
    | (constructor
       · intro h; cases h
       · rintro (⟨h1, rfl⟩ | ⟨h1, rfl, h2⟩) <;> omega)

/-- The parse fails with FrameTooLarge or HeaderTooShort only. -/
theorem parse_error_code (s : State) (e : ErrCode) (h : parse s = .error e) :
    e = .frameTooLarge ∨ e = .headerTooShort := by
  rcases (parse_eq_error s e).mp h with h | h
  · exact .inl h.2
  · exact .inr h.2.1

/-- A parse that succeeds reads bytes of BUF, its four operand registers and DEFLEVEL only. -/
theorem parse_congr (s t : State) (hd : Header) (h : parse s = .ok hd) (hc : t.caplen = s.caplen)
    (hr : t.replen = s.replen) (hh : t.hoff = s.hoff) (hl : t.defLevel = s.defLevel)
    (hb : ∀ i, i < Config.bufLen → t.bufByte i = s.bufByte i) : parse t = .ok hd := by
  obtain ⟨h1, h2, h3, -, -, h4, -⟩ := parse_eq_ok s hd h
  have e1 : t.caplenN = s.caplenN := by simp only [State.caplenN, hc]
  have e2 : t.replenN = s.replenN := by simp only [State.replenN, hr]
  have e3 : t.hoffN = s.hoffN := by simp only [State.hoffN, hh]
  have e4 : ∀ i n, i + n ≤ Config.bufLen → t.bufSlice i n = s.bufSlice i n := fun i n hi =>
    State.bufSlice_congr s t i i n fun k hk => hb _ (by omega)
  have e5 : t.bufByte s.hoffN = s.bufByte s.hoffN := hb _ (by simp only [headerLength] at h4; omega)
  have e6 : t.bufSlice (s.hoffN + 1) 4 = s.bufSlice (s.hoffN + 1) 4 :=
    e4 _ _ (by simp only [headerLength] at h4; omega)
  have e7 : ctrlExtn s.patchedCtrl = true → t.bufSlice (s.hoffN + 5) 8 = s.bufSlice (s.hoffN + 5) 8 := fun hx =>
    e4 _ _ (by simp only [headerLength, hx, Bool.toNat_true] at h4; omega)
  have e8 : ctrlKsnp s.patchedCtrl = true → t.bufByte (s.hoffN + 5 + 8 * (ctrlExtn s.patchedCtrl).toNat)
      = s.bufByte (s.hoffN + 5 + 8 * (ctrlExtn s.patchedCtrl).toNat) := fun hk =>
    hb _ (by simp only [headerLength, hk, Bool.toNat_true] at h4; omega)
  have e9 : t.patchedCtrl = s.patchedCtrl := by simp only [State.patchedCtrl, e3, e5, hl]
  have hm : hd.mic = levelMic (ctrlLevel s.patchedCtrl) := by
    obtain ⟨-, -, -, -, hctrl, -⟩ := parse_eq_ok s hd h
    simp only [Header.mic, Header.level, hctrl]
  rw [hm] at h3
  have hs := parse_ok s h1 (by omega) (by omega)
  have ht := parse_ok t (by omega) (by rw [e1, e3, e9]; omega) (by rw [e2, e3, e9]; omega)
  rw [h, Except.ok.injEq] at hs
  rw [ht, hs, e2, e3, e9, e5, e6]
  have e10 : (if ctrlExtn s.patchedCtrl then BitVec.ofNat 64 (fromLE (t.bufSlice (s.hoffN + 5) 8)) else 0)
      = if ctrlExtn s.patchedCtrl then BitVec.ofNat 64 (fromLE (s.bufSlice (s.hoffN + 5) 8)) else 0 := by
    split
    · rename_i hx; rw [e7 hx]
    · rfl
  have e11 : (if ctrlKsnp s.patchedCtrl then t.bufByte (s.hoffN + 5 + 8 * (ctrlExtn s.patchedCtrl).toNat) else 0)
      = if ctrlKsnp s.patchedCtrl then s.bufByte (s.hoffN + 5 + 8 * (ctrlExtn s.patchedCtrl).toNat) else 0 := by
    split
    · rename_i hk; rw [e8 hk]
    · rfl
  rw [e10, e11]

/-! ### Fields of the header and of the result words (10_state.md rules R115, R116, R119 and R122) -/

/-- ENC is bit 2 of the patched control byte. -/
theorem Header.enc_eq (hd : Header) : hd.enc = hd.ctrl.getLsbD 2 := by
  simp [Header.enc, levelEncrypts, Header.level, ctrlLevel]

/-- M is selected by bits 1:0 of the patched control byte. -/
theorem Header.mic_eq (hd : Header) : hd.mic = micLenOfBits (hd.ctrl.extractLsb' 0 2) := by
  simp only [Header.mic, levelMic, Header.level, ctrlLevel]
  congr 1
  apply BitVec.eq_of_getLsbD_eq
  intro k hk
  simp [hk]

/-- Level 0 is the level that neither encrypts nor has a MIC. -/
theorem Header.level_eq_zero_iff (hd : Header) :
    hd.level = 0 ↔ hd.ctrl.getLsbD 2 = false ∧ hd.ctrl.extractLsb' 0 2 = 0 := by
  have h : ∀ l : BitVec 3, l = 0 ↔ l.getLsbD 2 = false ∧ l.extractLsb' 0 2 = 0 := by decide
  have h2 : (ctrlLevel hd.ctrl).extractLsb' 0 2 = hd.ctrl.extractLsb' 0 2 := by
    apply BitVec.eq_of_getLsbD_eq; intro k hk; simp [ctrlLevel, hk]
  rw [h, Header.level, h2]
  simp [ctrlLevel]

/-- EXTN is bit 5 of the control byte. -/
theorem Header.extn_eq (hd : Header) : hd.extn = hd.ctrl.getLsbD 5 := rfl

/-- HDR_CTRL[31:16] is 0. -/
theorem Header.ctrlWord_reserved (hd : Header) : hd.ctrlWord.extractLsb' 16 16 = 0 := by
  apply BitVec.eq_of_getLsbD_eq
  intro k hk
  simp only [Header.ctrlWord, BitVec.getLsbD_extractLsb', BitVec.getLsbD_append, hk]
  iterate 2 rw [if_neg (by omega)]
  simp

/-- HDR_CTRL[7:0] is the patched control byte. -/
theorem Header.ctrlWord_ctrl (hd : Header) : hd.ctrlWord.extractLsb' 0 8 = hd.ctrl := by
  apply BitVec.eq_of_getLsbD_eq
  intro k hk
  simp only [Header.ctrlWord, BitVec.getLsbD_extractLsb', BitVec.getLsbD_append, hk]
  rw [if_pos (by omega)]
  simp

/-- HDR_INFO[31:23] is 0. -/
theorem Header.infoWord_reserved (hd : Header) : hd.infoWord.extractLsb' 23 9 = 0 := by
  apply BitVec.eq_of_getLsbD_eq
  intro k hk
  simp only [Header.infoWord, BitVec.getLsbD_extractLsb', BitVec.getLsbD_append, hk]
  iterate 9 rw [if_neg (by omega)]
  simp

/-- HDR_INFO[4:3] is KEYID. -/
theorem Header.infoWord_keyId (hd : Header) : hd.infoWord.extractLsb' 3 2 = ctrlKeyCode hd.ctrl := by
  apply BitVec.eq_of_getLsbD_eq
  intro k hk
  simp only [Header.infoWord, BitVec.getLsbD_extractLsb', BitVec.getLsbD_append, hk]
  rw [if_neg (by omega), if_pos (by omega)]
  simp

/-- HDR_POS[31:16] is PAYLEN. -/
theorem Header.posWord_paylen (hd : Header) : hd.posWord.extractLsb' 16 16 = BitVec.ofNat 16 hd.paylen := by
  apply BitVec.eq_of_getLsbD_eq
  intro k hk
  simp only [Header.posWord, BitVec.getLsbD_extractLsb', BitVec.getLsbD_append, hk]
  rw [if_neg (by omega)]
  simp

/-- RESULT[1:0] is KIND. -/
theorem resultWord_kind (kind : ResultKind) (source : KeySource) (index trials : Nat) :
    (resultWord kind source index trials).extractLsb' 0 2 = kind.code := by
  apply BitVec.eq_of_getLsbD_eq
  intro k hk
  simp only [resultWord, BitVec.getLsbD_extractLsb', BitVec.getLsbD_append, hk]
  rw [if_pos (by omega)]
  simp

/-- RESULT[3:2] is KSRC. -/
theorem resultWord_source (kind : ResultKind) (source : KeySource) (index trials : Nat) :
    (resultWord kind source index trials).extractLsb' 2 2 = source.code := by
  apply BitVec.eq_of_getLsbD_eq
  intro k hk
  simp only [resultWord, BitVec.getLsbD_extractLsb', BitVec.getLsbD_append, hk]
  rw [if_neg (by omega), if_pos (by omega)]
  simp

/-- RESULT[7:4] is 0. -/
theorem resultWord_reserved (kind : ResultKind) (source : KeySource) (index trials : Nat) :
    (resultWord kind source index trials).extractLsb' 4 4 = 0 := by
  apply BitVec.eq_of_getLsbD_eq
  intro k hk
  simp only [resultWord, BitVec.getLsbD_extractLsb', BitVec.getLsbD_append, hk]
  iterate 2 rw [if_neg (by omega)]
  rw [if_pos (by omega)]
  simp

/-- RESULT[15:8] is KIDX. -/
theorem resultWord_index (kind : ResultKind) (source : KeySource) (index trials : Nat) :
    (resultWord kind source index trials).extractLsb' 8 8 = BitVec.ofNat 8 index := by
  apply BitVec.eq_of_getLsbD_eq
  intro k hk
  simp only [resultWord, BitVec.getLsbD_extractLsb', BitVec.getLsbD_append, hk]
  iterate 3 rw [if_neg (by omega)]
  rw [if_pos (by omega)]
  simp; congr 1; omega

/-- RESULT[31:16] is TRIALS. -/
theorem resultWord_trials (kind : ResultKind) (source : KeySource) (index trials : Nat) :
    (resultWord kind source index trials).extractLsb' 16 16 = BitVec.ofNat 16 trials := by
  apply BitVec.eq_of_getLsbD_eq
  intro k hk
  simp only [resultWord, BitVec.getLsbD_extractLsb', BitVec.getLsbD_append, hk]
  iterate 4 rw [if_neg (by omega)]
  simp; congr 1; omega

/-- RESULT as a sum of its fields (10_state.md rule R122). -/
theorem resultWord_eq (kind : ResultKind) (source : KeySource) (index trials : Nat) :
    resultWord kind source index trials =
      BitVec.ofNat 32 (kind.code.toNat + 4 * source.code.toNat + 256 * (index % 256) + 65536 * trials) := by
  apply BitVec.eq_of_toNat_eq
  have h2 := kind.code.isLt
  have h3 := source.code.isLt
  have h4 : index % 2 ^ 8 < 2 ^ 8 := Nat.mod_lt _ (by decide)
  have h5 : (0 : Nat) % 2 ^ 4 < 2 ^ 4 := by decide
  simp only [resultWord, BitVec.toNat_append, BitVec.toNat_ofNat]
  rw [← Nat.shiftLeft_add_eq_or_of_lt h2, ← Nat.shiftLeft_add_eq_or_of_lt h3, ← Nat.shiftLeft_add_eq_or_of_lt h5,
    ← Nat.shiftLeft_add_eq_or_of_lt h4]
  simp only [Nat.shiftLeft_eq]
  omega

/-! ### The trial loop (44_key_ring.md rule R820) -/

/-- The loop stops at the first candidate whose trial succeeds, having made one trial for each up to it. -/
theorem tryCandidates_eq_some (f : Candidate → Option (List Byte)) (l : List Candidate) (n k : Nat) (c : Candidate)
    (m : List Byte) :
    tryCandidates f l n = (some (c, m), k) ↔
      ∃ before after, l = before ++ c :: after ∧ (∀ d ∈ before, f d = none) ∧ f c = some m
        ∧ k = n + before.length + 1 := by
  induction l generalizing n with
  | nil => simp [tryCandidates]
  | cons d l ih =>
    simp only [tryCandidates]
    cases hd : f d with
    | some m' =>
      constructor
      · intro h; cases h; exact ⟨[], l, rfl, by simp, hd, rfl⟩
      · rintro ⟨before, after, hl, hb, hc, hk⟩
        cases before with
        | nil =>
          simp only [List.nil_append, List.cons.injEq] at hl
          obtain ⟨rfl, rfl⟩ := hl
          rw [hd] at hc; cases hc
          simp only [hk]; rfl
        | cons x before =>
          simp only [List.cons_append, List.cons.injEq] at hl
          obtain ⟨rfl, -⟩ := hl
          rw [hb d (by simp)] at hd; cases hd
    | none =>
      show tryCandidates f l (n + 1) = _ ↔ _
      rw [ih]
      constructor
      · rintro ⟨before, after, hl, hb, hc, hk⟩
        refine ⟨d :: before, after, by rw [hl]; rfl, ?_, hc, by simp only [List.length_cons]; omega⟩
        intro x hx
        rcases List.mem_cons.mp hx with rfl | hx
        · exact hd
        · exact hb x hx
      · rintro ⟨before, after, hl, hb, hc, hk⟩
        cases before with
        | nil =>
          simp only [List.nil_append, List.cons.injEq] at hl
          obtain ⟨rfl, rfl⟩ := hl
          rw [hd] at hc; cases hc
        | cons x before =>
          simp only [List.cons_append, List.cons.injEq] at hl
          obtain ⟨rfl, hl⟩ := hl
          exact ⟨before, after, hl, fun y hy => hb y (by simp [hy]), hc, by
            simp only [List.length_cons] at hk; omega⟩

/-- The loop finds nothing exactly when every trial fails; it has then made one for each candidate. -/
theorem tryCandidates_eq_none (f : Candidate → Option (List Byte)) (l : List Candidate) (n k : Nat) :
    tryCandidates f l n = (none, k) ↔ (∀ d ∈ l, f d = none) ∧ k = n + l.length := by
  induction l generalizing n with
  | nil => simp [tryCandidates, eq_comm]
  | cons d l ih =>
    simp only [tryCandidates]
    cases hd : f d with
    | some m' => simp [hd]
    | none =>
      show tryCandidates f l (n + 1) = _ ↔ _
      rw [ih]
      simp only [List.forall_mem_cons, hd, true_and, List.length_cons]
      constructor <;> rintro ⟨h1, h2⟩ <;> exact ⟨h1, by omega⟩

/-- Whether the loop finds a key depends only on which raw keys are among the candidates, when a trial does. -/
theorem tryCandidates_isSome (f : Candidate → Option (List Byte)) (l : List Candidate) (n : Nat) :
    (tryCandidates f l n).1.isSome = true ↔ ∃ d ∈ l, (f d).isSome = true := by
  induction l generalizing n with
  | nil => simp [tryCandidates]
  | cons d l ih =>
    simp only [tryCandidates]
    cases hd : f d with
    | some m' => simp [hd]
    | none =>
      show (tryCandidates f l (n + 1)).1.isSome = true ↔ _
      rw [ih]; simp [hd]

/-! ### The strings of a frame (45_frame_decrypt.md rules R903 to R905) -/

@[simp] theorem State.framePayload_length (s : State) (hd : Header) : (s.framePayload hd).length = hd.paylen := by
  simp [State.framePayload]

@[simp] theorem State.frameMic_length (s : State) (hd : Header) : (s.frameMic hd).length = micBytes hd.mic := by
  simp [State.frameMic]

/-- The associated data of a parsed frame is as long as everything before its payload. -/
theorem State.frameAad_length (s : State) (hd : Header) (h : s.hoffN < hd.payoff) :
    (s.frameAad hd).length = hd.payoff := by
  simp [State.frameAad]; omega

/-- The check on the associated data never fires for a captured frame (42_ccm_star.md rule R609). -/
theorem State.transformAad_fits (s : State) (hd : Header) (h : parse s = .ok hd) (hc : s.replenN ≤ s.caplenN) :
    aadTooLong (s.transformAad hd).length = false := by
  obtain ⟨h1, h2, h3, -⟩ := parse_eq_ok s hd h
  have h4 := State.frameAad_length s hd (parse_hoff_lt s hd h)
  have hb : Config.bufLen = 512 := rfl
  refine aadTooLong_of_le _ ?_
  unfold State.transformAad
  split
  · rw [h4]; omega
  · rw [List.length_append, h4, State.framePayload_length]; omega

/-- A trial of a captured frame reads bytes of BUF and HOFF only. -/
theorem State.tryKey_congr (s t : State) (hd : Header) (n : Nonce) (c : Candidate) (h : parse s = .ok hd)
    (hc : s.replenN ≤ s.caplenN) (hh : t.hoff = s.hoff) (hb : ∀ i, i < Config.bufLen → t.bufByte i = s.bufByte i) :
    t.tryKey hd n c = s.tryKey hd n c := by
  obtain ⟨h1, h2, h3, -⟩ := parse_eq_ok s hd h
  have h4 := parse_hoff_lt s hd h
  have e3 : t.hoffN = s.hoffN := by simp only [State.hoffN, hh]
  have e4 : ∀ i n, i + n ≤ Config.bufLen → t.bufSlice i n = s.bufSlice i n := fun i n hi =>
    State.bufSlice_congr s t i i n fun k hk => hb _ (by omega)
  have e5 : t.framePayload hd = s.framePayload hd := e4 _ _ (by omega)
  have e6 : t.frameMic hd = s.frameMic hd := e4 _ _ (by omega)
  have e7 : t.frameAad hd = s.frameAad hd := by
    simp only [State.frameAad, e3]
    rw [e4 _ _ (show 0 + s.hoffN ≤ Config.bufLen by omega),
      e4 _ _ (show s.hoffN + 1 + (hd.payoff - s.hoffN - 1) ≤ Config.bufLen by omega)]
  simp only [State.tryKey, State.transformAad, State.transformInput, e5, e6, e7]

/-- A trial depends on the candidate's raw key alone. -/
theorem State.tryKey_raw (s : State) (hd : Header) (n : Nonce) (c d : Candidate) (h : c.raw = d.raw) :
    s.tryKey hd n c = s.tryKey hd n d := by
  simp only [State.tryKey, h]

/-- What a successful trial commits to OUT is as long as the payload. -/
theorem State.committed_length (s : State) (hd : Header) (n : Nonce) (c : Candidate) (m : List Byte)
    (h : s.tryKey hd n c = some m) : (if hd.enc then m else s.framePayload hd).length = hd.paylen := by
  split
  · rename_i he
    have := ccmDecrypt_length _ _ _ _ _ _ h
    simp only [State.transformInput, he, if_true, List.length_append, State.framePayload_length,
      State.frameMic_length] at this
    omega
  · simp

/-! ### DECRYPT_FRAME (45_frame_decrypt.md rule R900) -/

/-- The state in which the trials run: the HDR registers and NONCE are written. -/
def State.trialState (s : State) (hd : Header) (src : BitVec 64) : State :=
  (s.setHeader hd).setNonce (buildNonce src hd.fc hd.ctrl)

@[simp] theorem State.trialState_candidates (s : State) (hd : Header) (src : BitVec 64) (k : KeyId) (n : Half) :
    (s.trialState hd src).candidates k n = s.candidates k n := rfl

@[simp] theorem State.trialState_tryKey (s : State) (hd : Header) (src : BitVec 64) (n : Nonce) (c : Candidate) :
    (s.trialState hd src).tryKey hd n c = s.tryKey hd n c := rfl

/-- What a successful trial commits, written out. -/
theorem State.commitFrame_eq (s : State) (hd : Header) (src : BitVec 64) (c : Candidate) (m : List Byte) (n : Nat) :
    (s.trialState hd src).commitFrame hd c m n = { s.setHeader hd with
      nonce := buildNonce src hd.fc hd.ctrl
      mem := Memory.insertAll s.mem outBase (if hd.enc then m else s.framePayload hd)
      res := c.raw
      result := resultWord hd.verifiedKind c.source c.index n
      flows := FlowTable.cacheWrite s.flows s.netid hd.keyId c.raw
      seq := .idle
      done := true
      errCode := .ok } := by
  have e1 : (s.trialState hd src).framePayload hd = s.framePayload hd := rfl
  have e2 : (s.trialState hd src).netid = s.netid := rfl
  have e3 : (s.trialState hd src).flows = s.flows := rfl
  unfold State.commitFrame
  rw [e1, e2, e3]
  apply State.ext <;> simp [State.trialState]

/-- Everything DECRYPT_FRAME can do, in the order of its checks, each state written out. -/
theorem execDecryptFrame_cases (s : State) :
    (∃ e, parse s = .error e ∧ execDecryptFrame s = .next { s with
        result := resultWord .failed .noKey 0 0, seq := .idle, done := true, errCode := e })
    ∨ ∃ hd, parse s = .ok hd ∧
      ((s.caplenN < s.replenN ∧ execDecryptFrame s = .next { s.setHeader hd with
          result := resultWord .failed .noKey 0 0, seq := .idle, done := true, errCode := .truncatedCiphertext })
      ∨ (s.replenN ≤ s.caplenN ∧ s.skipsAuth hd = true ∧ execDecryptFrame s = .next { s.setHeader hd with
          mem := Memory.insertAll s.mem outBase (s.framePayload hd)
          result := resultWord .integrityOnly .noKey 0 0, seq := .idle, done := true, errCode := .ok })
      ∨ (s.replenN ≤ s.caplenN ∧ s.skipsAuth hd = false ∧ s.resolveSource hd.extn hd.ext = none
          ∧ execDecryptFrame s = .next { s.setHeader hd with
            result := resultWord .failed .noKey 0 0, seq := .idle, done := true, errCode := .unknownSource })
      ∨ ∃ src, s.replenN ≤ s.caplenN ∧ s.skipsAuth hd = false ∧ s.resolveSource hd.extn hd.ext = some src ∧
        ((∃ before after c m, s.candidates hd.keyId s.netid = before ++ c :: after
            ∧ (∀ d ∈ before, s.tryKey hd (buildNonce src hd.fc hd.ctrl) d = none)
            ∧ s.tryKey hd (buildNonce src hd.fc hd.ctrl) c = some m
            ∧ execDecryptFrame s = .next { s.setHeader hd with
              nonce := buildNonce src hd.fc hd.ctrl
              mem := Memory.insertAll s.mem outBase (if hd.enc then m else s.framePayload hd)
              res := c.raw
              result := resultWord hd.verifiedKind c.source c.index (before.length + 1)
              flows := FlowTable.cacheWrite s.flows s.netid hd.keyId c.raw
              seq := .idle
              done := true
              errCode := .ok })
        ∨ ((∀ d ∈ s.candidates hd.keyId s.netid, s.tryKey hd (buildNonce src hd.fc hd.ctrl) d = none)
            ∧ execDecryptFrame s = .next { s.setHeader hd with
              nonce := buildNonce src hd.fc hd.ctrl
              result := resultWord .failed .noKey 0 (s.candidates hd.keyId s.netid).length
              seq := .idle
              done := true
              errCode := .authFailure }))) := by
  cases hp : parse s with
  | error e => exact .inl ⟨e, rfl, by simp only [execDecryptFrame, hp]; rfl⟩
  | ok hd =>
    refine .inr ⟨hd, rfl, ?_⟩
    have he : execDecryptFrame s = .next ((s.setHeader hd).processFrame hd) := by simp only [execDecryptFrame, hp]
    have e1 : (s.setHeader hd).caplenN = s.caplenN := rfl
    have e2 : (s.setHeader hd).replenN = s.replenN := rfl
    have e3 : (s.setHeader hd).skipsAuth hd = s.skipsAuth hd := rfl
    have e4 : (s.setHeader hd).resolveSource hd.extn hd.ext = s.resolveSource hd.extn hd.ext := rfl
    unfold State.processFrame at he
    rw [e1, e2, e3, e4] at he
    by_cases hc : s.caplenN < s.replenN
    · rw [if_pos hc] at he
      exact .inl ⟨hc, he⟩
    · rw [if_neg hc] at he
      have hc' : s.replenN ≤ s.caplenN := by omega
      by_cases hs : s.skipsAuth hd = true
      · rw [if_pos hs] at he
        exact .inr (.inl ⟨hc', hs, he⟩)
      · rw [if_neg hs] at he
        have hs' : s.skipsAuth hd = false := by simpa using hs
        cases hr : s.resolveSource hd.extn hd.ext with
        | none =>
          simp only [hr] at he
          exact .inr (.inr (.inl ⟨hc', hs', rfl, he⟩))
        | some src =>
          simp only [hr] at he
          refine .inr (.inr (.inr ⟨src, hc', hs', rfl, ?_⟩))
          have hfit := s.transformAad_fits hd hp hc'
          have e5 : ((s.setHeader hd).setNonce (buildNonce src hd.fc hd.ctrl)).transformAad hd = s.transformAad hd := rfl
          unfold State.tryFrame at he
          rw [e5, hfit, if_neg (by simp)] at he
          have e6 : ((s.setHeader hd).setNonce (buildNonce src hd.fc hd.ctrl)).candidates hd.keyId
              ((s.setHeader hd).setNonce (buildNonce src hd.fc hd.ctrl)).netid = s.candidates hd.keyId s.netid := rfl
          have e7 : ((s.setHeader hd).setNonce (buildNonce src hd.fc hd.ctrl)).tryKey hd (buildNonce src hd.fc hd.ctrl)
              = s.tryKey hd (buildNonce src hd.fc hd.ctrl) := rfl
          rw [e6, e7] at he
          cases ht : tryCandidates (s.tryKey hd (buildNonce src hd.fc hd.ctrl)) (s.candidates hd.keyId s.netid) 0 with
          | mk found trials =>
            rw [ht] at he
            cases found with
            | none =>
              obtain ⟨h1, h2⟩ := (tryCandidates_eq_none _ _ _ _).mp ht
              rw [Nat.zero_add] at h2
              rw [h2] at he
              exact .inr ⟨h1, he⟩
            | some p =>
              obtain ⟨c, m⟩ := p
              obtain ⟨before, after, h1, h2, h3, h4⟩ := (tryCandidates_eq_some _ _ _ _ _ _).mp ht
              rw [Nat.zero_add] at h4
              rw [h4] at he
              exact .inl ⟨before, after, c, m, h1, h2, h3, by rw [he]; exact congrArg _ (s.commitFrame_eq hd src c m _)⟩

end Sys2Proof.Machine
end

