-- ==== Sys2Proof/Laws/PerInstr.lean ====
section
/-! SUPPORT. A statement about every command as syntax, with one lemma for each: what the fields of its command word hold
(30_encoding.md rules R300 and R310). -/

namespace Sys2Proof.Laws

/-- The OP column of rule R310. -/
def opcode : Instr → BitVec 8
  | .nop => 0x00
  | .aesEnc => 0x01
  | .mmoHash => 0x02
  | .keyedHash _ => 0x03
  | .ccmDec _ => 0x04
  | .ccmEnc _ => 0x05
  | .parseHdr => 0x06
  | .buildNonce => 0x07
  | .decryptFrame => 0x08
  | .regKey => 0x09
  | .addGkey _ => 0x0A
  | .lookupLabel => 0x0B
  | .sessionReset => 0x0C

/-- The IMM8 field of a command: KEYED_HASH's byte, and 0 for every other command. -/
def immediate : Instr → Byte
  | .keyedHash imm8 => imm8
  | _ => 0

/-- The MICSEL field of a command: the MIC length of CCM_DEC and CCM_ENC, and 0 for every other command. -/
def micSelector : Instr → BitVec 2
  | .ccmDec mic => micLenBits mic
  | .ccmEnc mic => micLenBits mic
  | _ => 0

/-- The REV field of a command: ADD_GKEY's flag, and 0 for every other command. -/
def reversal : Instr → BitVec 1
  | .addGkey rev => BitVec.ofBool rev
  | _ => 0

/-- The command word of a well-formed command holds its opcode and its operands, each in its own field, and 0 in every
other bit. -/
def EncodeFields.Statement (i : Instr) : Prop :=
  i.wellFormed = true ∧ fieldOp (encode i) = opcode i ∧ fieldImm8 (encode i) = immediate i
    ∧ fieldMicsel (encode i) = micSelector i ∧ fieldRev (encode i) = reversal i ∧ fieldReserved (encode i) = 0

/-- The fields of a word put together from its fields. -/
theorem commandWord_fields (op : BitVec 8) (imm8 : Byte) (micsel : BitVec 2) (rev : BitVec 1) :
    fieldOp (commandWord op imm8 micsel rev) = op ∧ fieldImm8 (commandWord op imm8 micsel rev) = imm8
      ∧ fieldMicsel (commandWord op imm8 micsel rev) = micsel ∧ fieldRev (commandWord op imm8 micsel rev) = rev
      ∧ fieldReserved (commandWord op imm8 micsel rev) = 0 := by
  refine ⟨?_, ?_, ?_, ?_, ?_⟩ <;>
    simp only [commandWord, fieldOp, fieldImm8, fieldMicsel, fieldRev, fieldReserved] <;>
    apply BitVec.eq_of_getLsbD_eq <;> intro k hk <;>
    simp only [BitVec.getLsbD_extractLsb', BitVec.getLsbD_append, hk, decide_true, Bool.true_and]
  · rw [if_pos (by omega), Nat.zero_add]
  · rw [if_neg (by omega), if_pos (by omega)]; congr 1; omega
  · rw [if_neg (by omega), if_neg (by omega), if_pos (by omega)]; congr 1; omega
  · rw [if_neg (by omega), if_neg (by omega), if_neg (by omega), if_pos (by omega)]; congr 1; omega
  · rw [if_neg (by omega), if_neg (by omega), if_neg (by omega), if_neg (by omega)]; simp

theorem EncodeFields.nop : EncodeFields.Statement .nop :=
  ⟨rfl, commandWord_fields _ _ _ _⟩

theorem EncodeFields.aesEnc : EncodeFields.Statement .aesEnc :=
  ⟨rfl, commandWord_fields _ _ _ _⟩

theorem EncodeFields.mmoHash : EncodeFields.Statement .mmoHash :=
  ⟨rfl, commandWord_fields _ _ _ _⟩

theorem EncodeFields.keyedHash (imm8 : Byte) : EncodeFields.Statement (.keyedHash imm8) :=
  ⟨rfl, commandWord_fields _ _ _ _⟩

theorem EncodeFields.ccmDec (mic : MicLen) : EncodeFields.Statement (.ccmDec mic) :=
  ⟨rfl, commandWord_fields _ _ _ _⟩

theorem EncodeFields.ccmEnc (mic : MicLen) : EncodeFields.Statement (.ccmEnc mic) :=
  ⟨rfl, commandWord_fields _ _ _ _⟩

theorem EncodeFields.parseHdr : EncodeFields.Statement .parseHdr :=
  ⟨rfl, commandWord_fields _ _ _ _⟩

theorem EncodeFields.buildNonce : EncodeFields.Statement .buildNonce :=
  ⟨rfl, commandWord_fields _ _ _ _⟩

theorem EncodeFields.decryptFrame : EncodeFields.Statement .decryptFrame :=
  ⟨rfl, commandWord_fields _ _ _ _⟩

theorem EncodeFields.regKey : EncodeFields.Statement .regKey :=
  ⟨rfl, commandWord_fields _ _ _ _⟩

theorem EncodeFields.addGkey (rev : Bool) : EncodeFields.Statement (.addGkey rev) :=
  ⟨rfl, commandWord_fields _ _ _ _⟩

theorem EncodeFields.lookupLabel : EncodeFields.Statement .lookupLabel :=
  ⟨rfl, commandWord_fields _ _ _ _⟩

theorem EncodeFields.sessionReset : EncodeFields.Statement .sessionReset :=
  ⟨rfl, commandWord_fields _ _ _ _⟩

end Sys2Proof.Laws
end

