-- ==== Sys2Proof/Laws/Step.lean ====
section
/-! SUPPORT. The end of a command and the step: every command answers a next state of one shape, and a step does one of a
few things. -/

namespace Sys2Proof.Machine

/-! ### Commands -/

/-- Everything a command may change: results, the key store and STATUS (10_state.md rule R143). -/
def EndsFrom (s t : State) : Prop :=
  t = { s with
    hdrCtrl := t.hdrCtrl
    hdrInfo := t.hdrInfo
    hdrFc := t.hdrFc
    hdrExtLo := t.hdrExtLo
    hdrExtHi := t.hdrExtHi
    hdrPos := t.hdrPos
    nonce := t.nonce
    res := t.res
    result := t.result
    mem := t.mem
    globalKeys := t.globalKeys
    flows := t.flows
    seq := .idle
    done := true
    errCode := t.errCode }

theorem EndsFrom.finish (s : State) (e : ErrCode) : EndsFrom s (s.finish e) := rfl

/-- Every command answers a next state, which has ended. -/
theorem exec_ends (i : Instr) (s : State) : ∃ t, exec i s = .next t ∧ EndsFrom s t := by
  cases i with
  | nop => exact ⟨_, rfl, rfl⟩
  | aesEnc => exact ⟨_, rfl, rfl⟩
  | mmoHash => simp only [exec, execMmoHash]; split <;> exact ⟨_, rfl, rfl⟩
  | keyedHash imm8 => exact ⟨_, rfl, rfl⟩
  | ccmDec mic =>
    simp only [exec, execCcmDec]
    split
    · exact ⟨_, rfl, rfl⟩
    · split <;> exact ⟨_, rfl, rfl⟩
  | ccmEnc mic => simp only [exec, execCcmEnc]; split <;> exact ⟨_, rfl, rfl⟩
  | parseHdr => simp only [exec, execParseHdr]; split <;> exact ⟨_, rfl, rfl⟩
  | buildNonce => simp only [exec, execBuildNonce]; split <;> exact ⟨_, rfl, rfl⟩
  | decryptFrame =>
    rcases execDecryptFrame_cases s with ⟨e, -, h⟩ | ⟨hd, -, ⟨-, h⟩ | ⟨-, -, h⟩ | ⟨-, -, -, h⟩
      | ⟨src, -, -, -, ⟨b, a, c, m, -, -, -, h⟩ | ⟨-, h⟩⟩⟩
    all_goals exact ⟨_, h, rfl⟩
  | regKey =>
    simp only [exec, execRegKey]
    repeat' split
    all_goals exact ⟨_, rfl, rfl⟩
  | addGkey rev =>
    simp only [exec, execAddGkey]
    repeat' split
    all_goals exact ⟨_, rfl, rfl⟩
  | lookupLabel =>
    simp only [exec, execLookupLabel]
    repeat' split
    all_goals exact ⟨_, rfl, rfl⟩
  | sessionReset => exact ⟨_, rfl, rfl⟩

/-- If a command answers next t, then t has ended. -/
theorem exec_next (i : Instr) (s t : State) (h : exec i s = .next t) : EndsFrom s t := by
  obtain ⟨u, hu, he⟩ := exec_ends i s
  rw [hu] at h; cases h; exact he

/-! ### The completion of the running command (70_reset_and_hazards.md rule R1110) -/

theorem runCommand_idle (s : State) (h : s.seq = .idle) : runCommand s = .next s := by simp only [runCommand, h]

theorem runCommand_legal (s : State) (w : Word) (i : Instr) (h : s.seq = .busy w) (hd : decode w = .ok i) :
    runCommand s = exec i s := by
  simp only [runCommand, h, hd]

theorem runCommand_illegal (s : State) (w : Word) (e : DecodeError) (h : s.seq = .busy w) (hd : decode w = .error e) :
    runCommand s = .next (s.finish .illegalCommand) := by
  simp only [runCommand, h, hd]; rfl

/-- Everything the completion event can do. -/
theorem runCommand_cases (s : State) :
    (s.seq = .idle ∧ runCommand s = .next s)
    ∨ (∃ w i, s.seq = .busy w ∧ decode w = .ok i ∧ runCommand s = exec i s)
    ∨ (∃ w e, s.seq = .busy w ∧ decode w = .error e ∧ runCommand s = .next (s.finish .illegalCommand)) := by
  cases hs : s.seq with
  | idle => exact .inl ⟨rfl, runCommand_idle s hs⟩
  | busy w =>
    cases hd : decode w with
    | ok i => exact .inr (.inl ⟨w, i, rfl, hd, runCommand_legal s w i hs hd⟩)
    | error e => exact .inr (.inr ⟨w, e, rfl, hd, runCommand_illegal s w e hs hd⟩)

/-- The completion event answers a next state, in which no command is running; what it may change is what a command may. -/
theorem runCommand_next (s : State) : ∃ t, runCommand s = .next t ∧ t.seq = .idle ∧ (t = s ∨ EndsFrom s t) := by
  rcases runCommand_cases s with ⟨hs, h⟩ | ⟨w, i, hs, hd, h⟩ | ⟨w, e, hs, hd, h⟩
  · exact ⟨s, h, hs, .inl rfl⟩
  · obtain ⟨t, ht, he⟩ := exec_ends i s
    have hseq : t.seq = .idle := by rw [he]
    exact ⟨t, by rw [h, ht], hseq, .inr he⟩
  · exact ⟨_, h, rfl, .inr rfl⟩

/-! ### Events and steps -/

theorem step_nil (s : State) (h : s.inputs = []) :
    step s = if s.inReset then .next (s.taking []) else runCommand (s.taking []) := by
  simp only [step, h]

theorem step_cons (s : State) (e : HostEvent) (rest : List HostEvent) (h : s.inputs = e :: rest) :
    step s = serveEvent e (s.taking rest) := by
  simp only [step, h]

/-- With reset released, a read is served. -/
theorem step_read (s : State) (width : Width) (offset : BitVec 12) (rest : List HostEvent) (hr : s.inReset = false)
    (h : s.inputs = .read width offset :: rest) :
    step s = .next ((s.taking rest).serveRead width offset.toNat) := by
  rw [step_cons s _ rest h]; simp [serveEvent, hr]

/-- With reset released, a write is served. -/
theorem step_write (s : State) (width : Width) (offset : BitVec 12) (data : Word) (rest : List HostEvent)
    (hr : s.inReset = false) (h : s.inputs = .write width offset data :: rest) :
    step s = .next ((s.taking rest).serveWrite width offset.toNat data) := by
  rw [step_cons s _ rest h]; simp [serveEvent, hr]

/-- With reset released, the completion event ends the running command. -/
theorem step_complete (s : State) (rest : List HostEvent) (hr : s.inReset = false) (h : s.inputs = .complete :: rest) :
    step s = runCommand (s.taking rest) := by
  rw [step_cons s _ rest h]; simp [serveEvent, hr]

/-- Asserting reset acts in every state. -/
theorem step_assertReset (s : State) (rest : List HostEvent) (h : s.inputs = .assertReset :: rest) :
    step s = .next ((s.taking rest).resetTo true) := by
  rw [step_cons s _ rest h]; rfl

/-- Releasing reset acts when it is asserted. -/
theorem step_releaseReset (s : State) (rest : List HostEvent) (h : s.inputs = .releaseReset :: rest) :
    step s = .next (if s.inReset then (s.taking rest).resetTo false else s.taking rest) := by
  rw [step_cons s _ rest h]; rfl

/-- Everything a step can do. -/
theorem step_cases (s : State) :
    ∃ rest, (s.inputs = [] ∧ rest = [] ∨ ∃ e, s.inputs = e :: rest) ∧
      ((s.inReset = true ∧ (∀ e, s.inputs = e :: rest → e ≠ .assertReset ∧ e ≠ .releaseReset)
          ∧ step s = .next (s.taking rest))
      ∨ (s.inReset = false ∧ (s.inputs = [] ∨ s.inputs = .complete :: rest) ∧ step s = runCommand (s.taking rest))
      ∨ (s.inReset = false ∧ ∃ width offset, s.inputs = .read width offset :: rest
          ∧ step s = .next ((s.taking rest).serveRead width offset.toNat))
      ∨ (s.inReset = false ∧ ∃ width offset data, s.inputs = .write width offset data :: rest
          ∧ step s = .next ((s.taking rest).serveWrite width offset.toNat data))
      ∨ (s.inputs = .assertReset :: rest ∧ step s = .next ((s.taking rest).resetTo true))
      ∨ (s.inReset = true ∧ s.inputs = .releaseReset :: rest ∧ step s = .next ((s.taking rest).resetTo false))
      ∨ (s.inReset = false ∧ s.inputs = .releaseReset :: rest ∧ step s = .next (s.taking rest))) := by
  cases hi : s.inputs with
  | nil =>
    refine ⟨[], .inl ⟨rfl, rfl⟩, ?_⟩
    rw [step_nil s hi]
    cases h : s.inReset with
    | true => exact .inl ⟨rfl, nofun, by simp⟩
    | false => exact .inr (.inl ⟨rfl, .inl rfl, by simp⟩)
  | cons e rest =>
    refine ⟨rest, .inr ⟨e, rfl⟩, ?_⟩
    rw [step_cons s e rest hi]
    cases h : s.inReset with
    | true =>
      cases e with
      | read width offset =>
        exact .inl ⟨rfl, fun e he => by cases he; exact ⟨nofun, nofun⟩, by simp [serveEvent, h]⟩
      | write width offset data =>
        exact .inl ⟨rfl, fun e he => by cases he; exact ⟨nofun, nofun⟩, by simp [serveEvent, h]⟩
      | complete => exact .inl ⟨rfl, fun e he => by cases he; exact ⟨nofun, nofun⟩, by simp [serveEvent, h]⟩
      | assertReset => exact .inr (.inr (.inr (.inr (.inl ⟨rfl, rfl⟩))))
      | releaseReset => exact .inr (.inr (.inr (.inr (.inr (.inl ⟨rfl, rfl, by simp [serveEvent, h]⟩)))))
    | false =>
      cases e with
      | read width offset => exact .inr (.inr (.inl ⟨rfl, width, offset, rfl, by simp [serveEvent, h]⟩))
      | write width offset data =>
        exact .inr (.inr (.inr (.inl ⟨rfl, width, offset, data, rfl, by simp [serveEvent, h]⟩)))
      | complete => exact .inr (.inl ⟨rfl, .inr rfl, by simp [serveEvent, h]⟩)
      | assertReset => exact .inr (.inr (.inr (.inr (.inl ⟨rfl, rfl⟩))))
      | releaseReset => exact .inr (.inr (.inr (.inr (.inr (.inr ⟨rfl, rfl, by simp [serveEvent, h]⟩)))))

/-- A step takes the event it serves from the queue. -/
theorem step_inputs (s t : State) (h : step s = .next t) : t.inputs = s.inputs.tail := by
  obtain ⟨rest, hrest, hc⟩ := step_cases s
  have ht : s.inputs.tail = rest := by rcases hrest with ⟨h1, h2⟩ | ⟨e, h1⟩ <;> simp [*]
  rw [ht]
  have hw : ∀ width a data, ((s.taking rest).serveWrite width a data).inputs = rest := by
    intro width a data
    rcases State.serveWrite_cases (s.taking rest) width a data with ⟨-, e⟩ | ⟨-, e⟩ | ⟨-, -, -, e⟩ | ⟨-, -, -, -, -, e⟩
      | ⟨-, -, -, e⟩
    · rw [e]; rfl
    · rw [e]; rfl
    · rw [e]; rfl
    · rw [e]
      rcases (s.taking rest).writeRegister_cases a data with ⟨-, e'⟩ | ⟨-, e'⟩ <;> rw [e'] <;> rfl
    · rw [e, State.writeWindow_eq]; rfl
  rcases hc with ⟨-, -, e⟩ | ⟨-, -, e⟩ | ⟨-, w, o, -, e⟩ | ⟨-, w, o, d, -, e⟩ | ⟨-, e⟩ | ⟨-, -, e⟩ | ⟨-, -, e⟩
  · rw [e] at h; cases h; rfl
  · obtain ⟨u, hu, -, hx⟩ := runCommand_next (s.taking rest)
    rw [e, hu] at h; cases h
    rcases hx with rfl | hx
    · rfl
    · rw [hx]; rfl
  · rw [e] at h; cases h; rw [State.serveRead_eq]; rfl
  · rw [e] at h; cases h; exact hw _ _ _
  · rw [e] at h; cases h; rfl
  · rw [e] at h; cases h; rfl
  · rw [e] at h; cases h; rfl

end Sys2Proof.Machine
end

