-- ==== Sys2Proof/Laws/Work.lean ====
section
/-! SUPPORT. The counting run of 70_reset_and_hazards.md rule R1121: for each counted function the value it gives, which is
that of the model's own function, and the number of its cipher calls. -/

namespace Sys2Proof.Machine

variable {α β : Type}

@[simp] theorem Counted.value_pure (a : α) : (Counted.pure a).value = a := rfl
@[simp] theorem Counted.calls_pure (a : α) : (Counted.pure a).calls = 0 := rfl
@[simp] theorem Counted.value_bind (c : Counted α) (f : α → Counted β) : (c.bind f).value = (f c.value).value := rfl
@[simp] theorem Counted.calls_bind (c : Counted α) (f : α → Counted β) :
    (c.bind f).calls = c.calls + (f c.value).calls := rfl
@[simp] theorem Counted.value_map (f : α → β) (c : Counted α) : (c.map f).value = f c.value := rfl
@[simp] theorem Counted.calls_map (f : α → β) (c : Counted α) : (c.map f).calls = c.calls := rfl
@[simp] theorem countedAes_value (k : Key) (x : Block) : (countedAes k x).value = aes k x := rfl
@[simp] theorem countedAes_calls (k : Key) (x : Block) : (countedAes k x).calls = 1 := rfl

/-- A counted chain gives the fold of its steps' values. -/
theorem countedChain_value (f : Block → Block → Counted Block) (l : List Block) (h : Block) :
    (countedChain f l h).value = l.foldl (fun x p => (f x p).value) h := by
  induction l generalizing h with
  | nil => rfl
  | cons p l ih => simp [countedChain, ih]

/-- A chain whose every step makes one call makes one for each block. -/
theorem countedChain_calls (f : Block → Block → Counted Block) (hf : ∀ x p, (f x p).calls = 1) (l : List Block) (h : Block) :
    (countedChain f l h).calls = l.length := by
  induction l generalizing h with
  | nil => rfl
  | cons p l ih => simp [countedChain, ih, hf]; omega

@[simp] theorem countedMmoHash_value (input : List Byte) : (countedMmoHash input).value = mmoHash input := by
  rw [countedMmoHash, countedChain_value]; rfl

@[simp] theorem countedMmoHash_calls (input : List Byte) : (countedMmoHash input).calls = (input.length + 3 + 15) / 16 := by
  rw [countedMmoHash, countedChain_calls _ fun _ _ => rfl, blocksOf_length, mmoPad_length]
  simp only [mmoZeros]; omega

@[simp] theorem padKey_length (key : Key) (b : Byte) : (padKey key b).length = 16 := by simp [padKey]

@[simp] theorem countedKeyedHash_value (key : Key) (b : Byte) : (countedKeyedHash key b).value = keyedHash key b := by
  simp [countedKeyedHash, keyedHash]

@[simp] theorem countedKeyedHash_calls (key : Key) (b : Byte) : (countedKeyedHash key b).calls = 5 := by
  simp [countedKeyedHash]

theorem countedKeystreamBlocks_value (key : Key) (nonce : Nonce) (l : List Nat) :
    (countedKeystreamBlocks key nonce l).value = l.flatMap fun i => (keystreamBlock key nonce i).toList := by
  induction l with
  | nil => rfl
  | cons i l ih => simp [countedKeystreamBlocks, ih, keystreamBlock]

theorem countedKeystreamBlocks_calls (key : Key) (nonce : Nonce) (l : List Nat) :
    (countedKeystreamBlocks key nonce l).calls = l.length := by
  induction l with
  | nil => rfl
  | cons i l ih => simp [countedKeystreamBlocks, ih]; omega

@[simp] theorem countedKeystream_value (key : Key) (nonce : Nonce) (n : Nat) :
    (countedKeystream key nonce n).value = keystream key nonce n := by
  simp [countedKeystream, countedKeystreamBlocks_value, keystream, List.flatMap_map]

@[simp] theorem countedKeystream_calls (key : Key) (nonce : Nonce) (n : Nat) :
    (countedKeystream key nonce n).calls = (n + 15) / 16 := by
  simp [countedKeystream, countedKeystreamBlocks_calls, blocksFor]

@[simp] theorem countedCbcMac_value (key : Key) (nonce : Nonce) (a m : List Byte) (mic : MicLen) :
    (countedCbcMac key nonce a m mic).value = cbcMac key nonce a m mic := by
  simp only [countedCbcMac, Counted.value_map, Counted.value_bind, countedChain_value]; rfl

theorem pad16_length (x : List Byte) : (pad16 x).length = 16 * ((x.length + 15) / 16) := by
  simp only [pad16, List.length_append, List.length_replicate]; omega

theorem authBlocks_length (a m : List Byte) :
    (authBlocks a m).length = (if a.length = 0 then 0 else (2 + a.length + 15) / 16) + (m.length + 15) / 16 := by
  rw [authBlocks, blocksOf_length, List.length_append, pad16_length]
  by_cases h : a.length = 0
  · rw [authA, if_neg (by omega), if_pos h]; simp only [List.length_nil]; omega
  · rw [authA, if_pos (by omega), if_neg h, pad16_length, List.length_append, beBytes_length]; omega

@[simp] theorem countedCbcMac_calls (key : Key) (nonce : Nonce) (a m : List Byte) (mic : MicLen) :
    (countedCbcMac key nonce a m mic).calls =
      1 + ((if a.length = 0 then 0 else (2 + a.length + 15) / 16) + (m.length + 15) / 16) := by
  rw [countedCbcMac, Counted.calls_map, Counted.calls_bind, countedChain_calls _ fun _ _ => rfl, authBlocks_length]; rfl

@[simp] theorem countedDecryptTag_value (key : Key) (nonce : Nonce) (u : List Byte) (mic : MicLen) :
    (countedDecryptTag key nonce u mic).value = decryptTag key nonce u mic := rfl

@[simp] theorem countedDecryptTag_calls (key : Key) (nonce : Nonce) (u : List Byte) (mic : MicLen) :
    (countedDecryptTag key nonce u mic).calls = 1 := rfl

@[simp] theorem countedCcmDecrypt_value (key : Key) (nonce : Nonce) (a cu : List Byte) (mic : MicLen) :
    (countedCcmDecrypt key nonce a cu mic).value = ccmDecrypt key nonce a cu mic := by
  rw [countedCcmDecrypt, Counted.value_bind, ccmDecrypt, countedKeystream_value]
  split <;> simp

/-- The calls of one CCM* transform over `la` bytes of associated data and `lm` bytes of message, with an M-byte MIC
(rule R1121). -/
def transformCalls (la lm m : Nat) : Nat :=
  if m = 0 then (lm + 15) / 16
  else 1 + (lm + 15) / 16 + 1 + ((if la = 0 then 0 else (2 + la + 15) / 16) + (lm + 15) / 16)

theorem countedCcmDecrypt_calls (key : Key) (nonce : Nonce) (a cu : List Byte) (mic : MicLen) :
    (countedCcmDecrypt key nonce a cu mic).calls = transformCalls a.length (cu.length - micBytes mic) (micBytes mic) := by
  rw [countedCcmDecrypt, Counted.calls_bind, countedKeystream_calls, countedKeystream_value]
  by_cases h : mic = .m0
  · rw [if_pos h, transformCalls, if_pos ((micBytes_eq_zero_iff mic).2 h)]; rfl
  · rw [if_neg h, transformCalls, if_neg (mt (micBytes_eq_zero_iff mic).1 h)]
    simp only [Counted.calls_bind, Counted.calls_map, countedDecryptTag_calls, countedCbcMac_calls, xorBytes_length,
      keystream_length, List.length_take]
    have : min (min (cu.length - micBytes mic) cu.length) (cu.length - micBytes mic) = cu.length - micBytes mic := by omega
    rw [this]; omega

@[simp] theorem countedCcmEncrypt_value (key : Key) (nonce : Nonce) (a m : List Byte) (mic : MicLen) :
    (countedCcmEncrypt key nonce a m mic).value = ccmEncrypt key nonce a m mic := by
  rw [countedCcmEncrypt, Counted.value_bind, ccmEncrypt, countedKeystream_value]
  split
  · rfl
  · simp [keystreamBlock]

theorem countedCcmEncrypt_calls (key : Key) (nonce : Nonce) (a m : List Byte) (mic : MicLen) :
    (countedCcmEncrypt key nonce a m mic).calls = transformCalls a.length m.length (micBytes mic) := by
  rw [countedCcmEncrypt, Counted.calls_bind, countedKeystream_calls]
  by_cases h : mic = .m0
  · rw [if_pos h, transformCalls, if_pos ((micBytes_eq_zero_iff mic).2 h)]; rfl
  · rw [if_neg h, transformCalls, if_neg (mt (micBytes_eq_zero_iff mic).1 h)]
    simp only [Counted.calls_bind, Counted.calls_map, countedAes_calls, countedCbcMac_calls]; omega

@[simp] theorem countedTrialKey_value (r : Key) (k : KeyId) : (countedTrialKey r k).value = trialKey r k := by
  cases k <;> simp [countedTrialKey, trialKey]

/-- Deriving a trial key takes 5 calls for KEYID 2 and 3, and none for 0 and 1. -/
theorem countedTrialKey_calls (r : Key) (k : KeyId) : (countedTrialKey r k).calls = if 2 ≤ k.code.toNat then 5 else 0 := by
  cases k <;> simp [countedTrialKey, KeyId.code]

@[simp] theorem State.countedTryKey_value (s : State) (hd : Header) (n : Nonce) (c : Candidate) :
    (s.countedTryKey hd n c).value = s.tryKey hd n c := by
  simp [State.countedTryKey, State.tryKey]

/-- The calls of one trial of a frame. -/
def State.trialCalls (s : State) (hd : Header) : Nat :=
  (if 2 ≤ hd.keyId.code.toNat then 5 else 0)
    + transformCalls (s.transformAad hd).length ((s.transformInput hd).length - micBytes hd.mic) (micBytes hd.mic)

theorem State.countedTryKey_calls (s : State) (hd : Header) (n : Nonce) (c : Candidate) :
    (s.countedTryKey hd n c).calls = s.trialCalls hd := by
  rw [State.countedTryKey, Counted.calls_bind, countedTrialKey_calls, countedCcmDecrypt_calls]; rfl

theorem countedTryCandidates_value (f : Candidate → Counted (Option (List Byte))) (l : List Candidate) (n : Nat) :
    (countedTryCandidates f l n).value = tryCandidates (fun c => (f c).value) l n := by
  induction l generalizing n with
  | nil => rfl
  | cons c l ih =>
    simp only [countedTryCandidates, tryCandidates, Counted.value_bind]
    cases (f c).value <;> simp [ih]

/-- The loop makes as many trials as it reports, each with the calls of one trial. -/
theorem countedTryCandidates_calls (f : Candidate → Counted (Option (List Byte))) (k : Nat) (hf : ∀ c, (f c).calls = k)
    (l : List Candidate) (n : Nat) :
    n ≤ (tryCandidates (fun c => (f c).value) l n).2
      ∧ (countedTryCandidates f l n).calls = ((tryCandidates (fun c => (f c).value) l n).2 - n) * k := by
  induction l generalizing n with
  | nil => simp [tryCandidates, countedTryCandidates]
  | cons c l ih =>
    simp only [countedTryCandidates, tryCandidates, Counted.calls_bind, hf]
    cases (f c).value with
    | some m => simp
    | none =>
      obtain ⟨h1, h2⟩ := ih (n + 1)
      refine ⟨Nat.le_of_succ_le h1, ?_⟩
      rw [h2]
      obtain ⟨d, hd⟩ := Nat.exists_eq_add_of_le h1
      rw [hd, Nat.add_sub_cancel_left, Nat.add_assoc, Nat.add_sub_cancel_left, Nat.add_mul, Nat.one_mul]

@[simp] theorem State.countedTryFrame_value (s : State) (hd : Header) (n : Nonce) :
    (s.countedTryFrame hd n).value = s.tryFrame hd n := by
  have h : (fun c => (s.countedTryKey hd n c).value) = s.tryKey hd n := funext fun c => s.countedTryKey_value hd n c
  rw [State.countedTryFrame, State.tryFrame]
  split
  · rfl
  · rcases ht : tryCandidates (s.tryKey hd n) (s.candidates hd.keyId s.netid) 0 with ⟨_ | ⟨c, m⟩, k⟩ <;>
      simp only [Counted.value_map, countedTryCandidates_value, h, ht]

@[simp] theorem State.countedProcessFrame_value (s : State) (hd : Header) :
    (s.countedProcessFrame hd).value = s.processFrame hd := by
  rw [State.countedProcessFrame]
  split
  · rfl
  · next h =>
    rw [not_or] at h
    rw [State.processFrame, if_neg h.1, if_neg h.2]
    cases s.resolveSource hd.extn hd.ext with
    | none => rfl
    | some src => simp

end Sys2Proof.Machine
end

