-- ==== Sys2Proof/Tests/Slice0.lean ====
section
/-! SUPPORT. The model's own tests. The expected values come from the spec: the encodings of 30_encoding.md, the vectors and
programs of 95_test_vectors.md, which each test names. The last part shows, for every statement with hypotheses, a
concrete state that meets them. -/

namespace Sys2Proof.Tests

open Sys2Proof.Machine

/-! ### Helpers -/

/-- The state after an outcome (every outcome of this block is a next state). -/
def after : Host.Outcome State Fault Refusal → State
  | .next t => t
  | .fault _ => State.reset
  | .refused _ => State.reset

theorem exec_after (i : Instr) (s : State) : exec i s = .next (after (exec i s)) := by
  obtain ⟨t, h, -⟩ := exec_ends i s
  rw [h]
  rfl

/-- A reset block with one event to serve. -/
def idleWith (e : HostEvent) : State := { State.reset with inputs := [e] }

/-- A block that runs the command of a word, with one event to serve. -/
def busyWith (w : Word) (e : HostEvent) : State := { State.reset with cmd := w, seq := .busy w, inputs := [e] }

/-- A state with bytes written from a block offset on, and nothing else written. -/
def writing (base : Nat) (l : List Byte) (s : State) : State :=
  { s with mem := l.zipIdx.map fun p => (base + p.2, p.1) }

/-- A key of 16 equal bytes. -/
def filled (b : Byte) : Key := .replicate 16 b

/-- A key record without label and tag. -/
def bare (k : Key) : KeyRecord := { key := k, label := 0, tag := 0 }

/-- The bytes first, first + 1, ... -/
def counting (first n : Nat) : List Byte := (List.range n).map fun i => BitVec.ofNat 8 (first + i)

/-- The key 00 01 .. 0F. -/
def countingKey : Key := .ofList 16 (counting 0 16)

/-- A flow table whose slot 0 alone is valid. -/
def oneFlow (f : Flow) : FlowTable := (State.reset.flows).set 0 (some f)

/-! ### Well-formedness: an ill-formed access for each check of rule R212 -/

theorem test_byte_access_to_a_register_is_ill_formed : accessWellFormed .byte 0x004 = false := by decide

theorem test_half_access_to_a_register_is_ill_formed : accessWellFormed .half 0x006 = false := by decide

theorem test_odd_half_access_is_ill_formed : accessWellFormed .half 0x401 = false := by decide

theorem test_misaligned_word_access_is_ill_formed : accessWellFormed .word 0x402 = false := by decide

theorem test_misaligned_register_access_is_ill_formed :
    (HostEvent.write .word 0x00E 0).wellFormed = false ∧ (HostEvent.read .half 0x403).wellFormed = false := by decide

/-! ### Decoding: the word of each command, bit by bit from rule R300 and the table of rule R310 -/

theorem test_decode_nop : decode 0b0000000000000_0_00_00000000_00000000#32 = .ok .nop := by decide

theorem test_decode_aesEnc : decode 0b0000000000000_0_00_00000000_00000001#32 = .ok .aesEnc := by decide

theorem test_decode_mmoHash : decode 0b0000000000000_0_00_00000000_00000010#32 = .ok .mmoHash := by decide

theorem test_decode_keyedHash : decode 0b0000000000000_0_00_10100101_00000011#32 = .ok (.keyedHash 0xA5) := by decide

theorem test_decode_ccmDec : decode 0b0000000000000_0_01_00000000_00000100#32 = .ok (.ccmDec .m4)
    ∧ decode 0b0000000000000_0_00_00000000_00000100#32 = .ok (.ccmDec .m0) := by decide

theorem test_decode_ccmEnc : decode 0b0000000000000_0_10_00000000_00000101#32 = .ok (.ccmEnc .m8)
    ∧ decode 0b0000000000000_0_11_00000000_00000101#32 = .ok (.ccmEnc .m16) := by decide

theorem test_decode_parseHdr : decode 0b0000000000000_0_00_00000000_00000110#32 = .ok .parseHdr := by decide

theorem test_decode_buildNonce : decode 0b0000000000000_0_00_00000000_00000111#32 = .ok .buildNonce := by decide

theorem test_decode_decryptFrame : decode 0b0000000000000_0_00_00000000_00001000#32 = .ok .decryptFrame := by decide

theorem test_decode_regKey : decode 0b0000000000000_0_00_00000000_00001001#32 = .ok .regKey := by decide

theorem test_decode_addGkey : decode 0b0000000000000_1_00_00000000_00001010#32 = .ok (.addGkey true)
    ∧ decode 0b0000000000000_0_00_00000000_00001010#32 = .ok (.addGkey false) := by decide

theorem test_decode_lookupLabel : decode 0b0000000000000_0_00_00000000_00001011#32 = .ok .lookupLabel := by decide

theorem test_decode_sessionReset : decode 0b0000000000000_0_00_00000000_00001100#32 = .ok .sessionReset := by decide

/-- The illegal words of vector V7 (95_test_vectors.md §3.7). -/
theorem test_decode_refuses_the_illegal_words :
    decode 0x0000000D = .error .unassignedOpcode ∧ decode 0x000000FF = .error .unassignedOpcode
    ∧ decode 0x00080000 = .error .reservedBits ∧ decode 0x00010001 = .error .micselNotUsed
    ∧ decode 0x0004000B = .error .revNotUsed ∧ decode 0x00000108 = .error .imm8NotUsed
    ∧ decode 0x8000000C = .error .reservedBits ∧ decode 0x00000102 = .error .imm8NotUsed := by decide

theorem test_decodeTableWord : decodeTableWord 32 0x00030004 = some (.ccmDec .m16) ∧ decodeTableWord 32 0x0000000D = none := by
  decide

/-- The step after `withFetchWord` runs the word's command as the first one after reset. -/
theorem test_withFetchWord : (after (step (State.reset.withFetchWord 32 0x0000000B))).errCode = .notFound
    ∧ (after (step (State.reset.withFetchWord 32 0x00000000))).statusWord = 0x00000002 := by decide

/-! ### The port and the status (95_test_vectors.md §3.7 to §3.9) -/

theorem test_reset_reads :
    (after (step (idleWith (.read .word 0x000)))).resp = some { error := false, data := 0x5A534543 }
    ∧ (after (step (idleWith (.read .word 0x004)))).resp = some { error := false, data := 0x0000000A }
    ∧ (after (step (idleWith (.read .word 0x05C)))).resp = some { error := false, data := 0x00000200 }
    ∧ (after (step (idleWith (.read .word 0x060)))).resp = some { error := false, data := 0x00080810 } := by decide

theorem test_write_to_CTRL_keeps_its_fields : (after (step (idleWith (.write .word 0x004 0xFFFFFFFF)))).ctrlWord = 0x0000001F := by
  decide

theorem test_write_to_MLEN_takes_16_bits : (after (step (idleWith (.write .word 0x014 0x12345678)))).mlen = 0x5678 := by decide

theorem test_write_to_RES_is_ignored : (after (step (idleWith (.write .word 0x130 0xFFFFFFFF)))).res = filled 0 := by decide

theorem test_write_while_busy_is_dropped : (after (step (busyWith 0 (.write .word 0x404 0x11111111)))).statusWord = 0x00000009
    ∧ (after (step (busyWith 0 (.write .word 0x404 0x11111111)))).mem = [] := by decide

theorem test_misaligned_write_while_busy_is_a_bus_error :
    (after (step (busyWith 0 (.write .word 0x402 0)))).statusWord = 0x00000001
    ∧ (after (step (busyWith 0 (.write .word 0x402 0)))).resp = some { error := true, data := 0 } := by decide

theorem test_window_write_is_little_endian : (after (step (idleWith (.write .word 0x400 0xCDEFABA5)))).mem =
    [(0x400, 0xA5), (0x401, 0xAB), (0x402, 0xEF), (0x403, 0xCD)] := by decide

theorem test_window_read_is_little_endian :
    (after (step (writing 0x400 [0xA5, 0xAB, 0xEF, 0xCD] (idleWith (.read .half 0x402))))).resp =
      some { error := false, data := 0x0000CDEF } := by decide

/-- ERRCODE survives the clearing of DONE (95_test_vectors.md §3.7). -/
theorem test_status_write_keeps_ERRCODE :
    (after (step { idleWith (.write .word 0x008 2) with done := true, errCode := .authFailure })).statusWord = 0x00000504 := by
  decide

/-- An illegal word completes with STATUS = 0x00000606 (vector V7). -/
theorem test_illegal_word_completes : (after (step (busyWith 0x0000000D .complete))).statusWord = 0x00000606 := by decide

/-! ### AES-128 and the hashes (95_test_vectors.md §1, §2.3, §3.1 and §3.2) -/

/-- FIPS-197 Appendix C.1. -/
theorem test_aesEnc_of_FIPS_C1 :
    (after (exec .aesEnc { State.reset with
      key := countingKey
      blk := .ofList 16 [0x00, 0x11, 0x22, 0x33, 0x44, 0x55, 0x66, 0x77, 0x88, 0x99, 0xAA, 0xBB, 0xCC, 0xDD, 0xEE, 0xFF] })).res
      = .ofList 16 [0x69, 0xC4, 0xE0, 0xD8, 0x6A, 0x7B, 0x04, 0x30, 0xD8, 0xCD, 0xB7, 0x80, 0x70, 0xB4, 0xC5, 0x5A] := by
  decide +kernel

/-- FIPS-197 Appendix B, by the model's cipher and by the one of the formulas. -/
theorem test_aes_of_FIPS_B :
    let k : Key := .ofList 16 [0x2B, 0x7E, 0x15, 0x16, 0x28, 0xAE, 0xD2, 0xA6, 0xAB, 0xF7, 0x15, 0x88, 0x09, 0xCF, 0x4F, 0x3C]
    let x : Block := .ofList 16 [0x32, 0x43, 0xF6, 0xA8, 0x88, 0x5A, 0x30, 0x8D, 0x31, 0x31, 0x98, 0xA2, 0xE0, 0x37, 0x07, 0x34]
    let y : Block := .ofList 16 [0x39, 0x25, 0x84, 0x1D, 0x02, 0xDC, 0x09, 0xFB, 0xDC, 0x11, 0x85, 0x97, 0x19, 0x6A, 0x0B, 0x32]
    aes k x = y ∧ Reference.aes k x = y := by decide +kernel

/-- The digest of the empty string (41_mmo_hash.md rule R510's example). -/
theorem test_mmoHash_of_nothing :
    (after (exec .mmoHash State.reset)).res
      = .ofList 16 [0xBA, 0xD7, 0x8E, 0x72, 0x6C, 0x1E, 0xC0, 0x2B, 0x7E, 0xBF, 0xE9, 0x2B, 0x23, 0xD9, 0xEC, 0x34] := by
  decide +kernel

/-- The digest of 14 bytes, whose padding starts a second block (§3.2). -/
theorem test_mmoHash_of_14_bytes :
    (after (exec .mmoHash (writing 0x400 (counting 0 14) { State.reset with alen := 14 }))).res
      = .ofList 16 [0xD2, 0xD9, 0x87, 0xAF, 0x39, 0x2A, 0x74, 0xAA, 0x23, 0x50, 0xBE, 0x20, 0x25, 0x3B, 0x9E, 0x18] := by
  decide +kernel

/-- KEYED_HASH of the key C0 .. CF with 0x02 (program P2). -/
theorem test_keyedHash_of_P2 :
    (after (exec (.keyedHash 0x02) { State.reset with key := .ofList 16 (counting 0xC0 16) })).res
      = .ofList 16 [0xCD, 0x8C, 0xE9, 0xC3, 0x66, 0x08, 0xB7, 0x76, 0x46, 0x08, 0x71, 0x36, 0x16, 0xE8, 0x16, 0xD0] := by
  decide +kernel

/-- KEYED_HASH of the key 00 01 .. 0F with 0xFF (§3.2). -/
theorem test_keyedHash_with_FF :
    (after (exec (.keyedHash 0xFF) { State.reset with key := countingKey })).res
      = .ofList 16 [0x54, 0xB8, 0xA7, 0x81, 0xAD, 0x9E, 0xDC, 0xEB, 0xC7, 0x9D, 0x3A, 0xB6, 0xD2, 0x9E, 0x44, 0x46] := by
  decide +kernel

/-! ### CCM* (95_test_vectors.md §2.7 and §3.3) -/

/-- The setting of vector V1: KEY = 0^16, NONCE = 00 .. 0C, ALEN = 0, MLEN = 4, and some bytes in BUF. -/
def v1 (bytes : List Byte) : State :=
  writing 0x400 bytes { State.reset with nonce := .ofList 13 (counting 0 13), mlen := 4 }

/-- Vector V1, step 3. -/
theorem test_ccmEnc_of_V1 :
    (after (exec (.ccmEnc .m4) (v1 [0xDE, 0xAD, 0xBE, 0xEF]))).mem.drop 4 =
      [(0x800, 0x32), (0x801, 0xF9), (0x802, 0x69), (0x803, 0x27), (0x804, 0x54), (0x805, 0x32), (0x806, 0x6C), (0x807, 0x44)]
    := by decide +kernel

/-- A tag under associated data without a message: a = A0 A1 A2, M = 8 (§3.3). -/
theorem test_ccmEnc_of_associated_data_alone :
    (after (exec (.ccmEnc .m8) (writing 0x400 [0xA0, 0xA1, 0xA2] { State.reset with
      key := countingKey, nonce := .ofList 13 (counting 0 13), alen := 3 }))).mem.drop 3 =
      [(0x800, 0x5A), (0x801, 0x03), (0x802, 0x15), (0x803, 0xCC), (0x804, 0x6B), (0x805, 0xDE), (0x806, 0xE1), (0x807, 0xC2)]
    := by decide +kernel

/-- Vector V1, step 1. -/
theorem test_ccmDec_of_V1 :
    (after (exec (.ccmDec .m4) (v1 [0x32, 0xF9, 0x69, 0x27, 0x54, 0x32, 0x6C, 0x44]))).mem.drop 8 =
      [(0x800, 0xDE), (0x801, 0xAD), (0x802, 0xBE), (0x803, 0xEF)] := by decide +kernel

/-- Vector V1, step 2: one wrong MIC bit. -/
theorem test_ccmDec_of_a_wrong_tag :
    (after (exec (.ccmDec .m4) (v1 [0x32, 0xF9, 0x69, 0x27, 0x54, 0x32, 0x6C, 0x45]))).statusWord = 0x00000506 := by
  decide +kernel

/-! ### Header and nonce (95_test_vectors.md §3.4) -/

/-- The frame of program P3. -/
def p3Frame : List Byte :=
  [0x08, 0x02, 0xFF, 0xFF, 0x00, 0x00, 0x1E, 0x0A, 0x28, 0x02, 0x01, 0x00, 0x00, 0x77, 0x66, 0x55, 0x44, 0x33, 0x22, 0x11,
    0x00, 0x07, 0x39, 0x7A, 0x3E, 0x23, 0x58, 0x56, 0x5E, 0xB4, 0x4F]

/-- The setting of program P3, with the keys of NETID's flow. -/
def p3 (keys : List Key) (cache : FlowCache) : State :=
  writing 0x400 p3Frame { State.reset with
    netid := 0x1A62
    caplen := 31
    replen := 31
    hoff := 8
    flows := oneFlow { netid := 0x1A62, keys := keys.map bare, cache := cache } }

theorem test_parseHdr_of_P3 :
    let t := after (exec .parseHdr (p3 [] FlowCache.empty))
    t.hdrCtrl = 0x0000282D ∧ t.hdrInfo = 0x002407AD ∧ t.hdrFc = 0x00000102 ∧ t.hdrExtLo = 0x44556677
      ∧ t.hdrExtHi = 0x00112233 ∧ t.hdrPos = 0x00050016 := by decide +kernel

/-- A header of 12 bytes where 13 are announced (§3.4, boundary cases). -/
theorem test_parseHdr_of_a_short_header :
    (after (exec .parseHdr (writing 0x400 [0x20, 0, 0, 0, 0, 0, 0, 0, 0, 0, 0, 0] { State.reset with
      caplen := 12, replen := 12 }))).errCode = .headerTooShort := by decide +kernel

/-- BUILD_NONCE after the P3 header. -/
theorem test_buildNonce_of_P3 :
    (after (exec .buildNonce { State.reset with
      hdrCtrl := 0x0000282D, hdrInfo := 0x002407AD, hdrFc := 0x102, hdrExtLo := 0x44556677, hdrExtHi := 0x00112233 })).nonce
      = .ofList 13 [0x77, 0x66, 0x55, 0x44, 0x33, 0x22, 0x11, 0x00, 0x02, 0x01, 0x00, 0x00, 0x2D] := by decide +kernel

/-- BUILD_NONCE with the hint, control byte 0x00 of the family table. -/
theorem test_buildNonce_with_the_hint :
    (after (exec .buildNonce { State.reset with
      hdrCtrl := 0x05, hdrInfo := 0x00640005, hdrFc := 0x01020304, hintLo := 0xCAFEF00D, hintHi := 0x0BADBEEF, hintv := true })).nonce
      = .ofList 13 [0x0D, 0xF0, 0xFE, 0xCA, 0xEF, 0xBE, 0xAD, 0x0B, 0x04, 0x03, 0x02, 0x01, 0x05] := by decide +kernel

/-! ### The key ring (95_test_vectors.md §3.5) -/

/-- REG_KEY into the lowest free slot (vector V4, step 5): KCOUNT counts the slot. -/
theorem test_regKey_allocates_a_slot :
    let t := after (exec .regKey { State.reset with netid := 0x100, key := filled 0x80 })
    t.kcountWord = 0x00000100 ∧ t.flows.get 0 = some { netid := 0x100, keys := [bare (filled 0x80)], cache := FlowCache.empty } := by
  decide +kernel

/-- REG_KEY into a flow with 8 keys (vector V4, step 8). -/
theorem test_regKey_into_a_full_flow :
    (after (exec .regKey { State.reset with
      netid := 0x100
      key := filled 0xA0
      flows := oneFlow
        { netid := 0x100
          keys := (counting 0x90 8).map fun b => bare (filled b)
          cache := FlowCache.empty } })).errCode = .ringFull := by decide +kernel

/-- ADD_GKEY rev of 0F 0E .. 00 where 00 .. 0F is stored (program P5): a duplicate. -/
theorem test_addGkey_rev_of_a_duplicate :
    let t := after (exec (.addGkey true) { State.reset with
      key := .ofList 16 (counting 0 16).reverse, globalKeys := [bare countingKey] })
    t.kcountWord = 0x00000001 ∧ t.errCode = .ok := by decide +kernel

/-- ADD_GKEY into a full list (vector V4, step 2). -/
theorem test_addGkey_into_a_full_list :
    let t := after (exec (.addGkey false) { State.reset with
      key := filled 0xEE, globalKeys := (counting 1 16).map fun b => bare (filled b) })
    t.kcountWord = 0x00000010 ∧ t.errCode = .ringFull := by decide +kernel

/-- LOOKUP_LABEL of 0x42 and of 0x43 (program P5). -/
theorem test_lookupLabel_of_P5 :
    let s := { State.reset with globalKeys := [{ key := countingKey, label := 0x42, tag := 0 }] }
    (after (exec .lookupLabel { s with label := 0x42 })).res = countingKey
      ∧ (after (exec .lookupLabel { s with label := 0x43 })).errCode = .notFound := by decide +kernel

/-- SESSION_RESET (program P5): KCOUNT reads 0. -/
theorem test_sessionReset_empties_the_store :
    (after (exec .sessionReset { p3 [countingKey] FlowCache.empty with globalKeys := [bare countingKey] })).kcountWord = 0 := by
  decide +kernel

/-- NOP: STATUS reads 0x00000002 (§3.8). -/
theorem test_nop_sets_DONE : (after (exec .nop State.reset)).statusWord = 0x00000002 := by decide

/-! ### DECRYPT_FRAME (95_test_vectors.md §3.6) -/

/-- Program P3, step 1: the oldest of three keys verifies, as the third trial. -/
theorem test_decryptFrame_of_P3 :
    let t := after (exec .decryptFrame (p3 [filled 0x11, filled 0x22, filled 0x33] FlowCache.empty))
    t.result = 0x0003000A ∧ t.res = filled 0x11
      ∧ t.mem.drop 31 = [(0x800, 1), (0x801, 2), (0x802, 3), (0x803, 4), (0x804, 5)] := by decide +kernel

/-- The setting of program P4, step 6: a frame with a MIC and no encryption, DEFLEVEL = 2, one global key, the source given by
the hint. -/
def p4 (lastByte : Byte) : State :=
  writing 0x400 [0x00, 0x07, 0x00, 0x00, 0x00, 0xCA, 0xFE, 0x40, 0x1C, 0x57, 0x00, 0xAC, 0x0E, 0x98, lastByte] { State.reset with
    defLevel := 2
    caplen := 15
    replen := 15
    hintLo := 0xA5A6A7A8
    hintHi := 0xA1A2A3A4
    hintv := true
    globalKeys := [bare (.ofList 16 (counting 0x40 16))] }

theorem test_decryptFrame_of_P4 :
    let t := after (exec .decryptFrame (p4 0xE4))
    t.result = 0x0001000D ∧ t.kcountWord = 0x00000101 ∧ t.mem.drop 15 = [(0x800, 0xCA), (0x801, 0xFE)] := by decide +kernel

/-- The counts of AES calls that the spec gives: vector V1 at M = 4 and M = 0 (§3.3), MMO_HASH of 512 bytes (§3.2), KEYED_HASH
(rule R1121). -/
theorem test_aesCalls :
    aesCalls (.ccmEnc .m4) (v1 [0xDE, 0xAD, 0xBE, 0xEF]) = 4 ∧ aesCalls (.ccmEnc .m0) (v1 [0xDE, 0xAD, 0xBE, 0xEF]) = 1
      ∧ aesCalls .mmoHash { State.reset with alen := 512 } = 33 ∧ aesCalls (.keyedHash 0) State.reset = 5 := by decide +kernel

/-- Program P3, step 1: three trials of 6 calls (S_0, one keystream block, B0, two blocks of 2 + 22 bytes, one of 5). -/
theorem test_aesCalls_of_P3 :
    aesCalls .decryptFrame (p3 [filled 0x11, filled 0x22, filled 0x33] FlowCache.empty) = 3 * 6 := by decide +kernel

/-! ### A state that meets the hypotheses of each statement -/

theorem step_after (s : State) : step s = .next (after (step s)) := by
  have h : ∃ t, step s = .next t := by
    obtain ⟨rest, -, h | h | ⟨-, w, o, -, h⟩ | ⟨-, w, o, d, -, h⟩ | h | h | h⟩ := step_cases s
    · exact ⟨_, h.2.2⟩
    · obtain ⟨t, ht, -⟩ := runCommand_next (s.taking rest)
      exact ⟨t, h.2.2.trans ht⟩
    · exact ⟨_, h⟩
    · exact ⟨_, h⟩
    · exact ⟨_, h.2⟩
    · exact ⟨_, h.2.2⟩
    · exact ⟨_, h.2.2⟩
  obtain ⟨t, h⟩ := h
  rw [h]
  rfl

/-- A key store with one global key, labelled, and one flow that has a key of its own and two cached keys. -/
def storeFlow : Flow :=
  { netid := 0x1A62
    keys := [bare (filled 0x22)]
    cache := { link := some (filled 0x11), network := some (filled 0x22), transport := none, load := none } }

def stored (inputs : List HostEvent) : State :=
  { p3 [] FlowCache.empty with
    globalKeys := [{ key := filled 0x11, label := 7, tag := 9 }]
    flows := oneFlow storeFlow
    inputs := inputs }

theorem stored_inv (inputs : List HostEvent) : (stored inputs).Inv where
  memory := by show Memory.wf (stored []).mem = true; decide
  globalBounded := by show (stored []).globalKeys.length ≤ 16; decide
  globalDistinct := by show (keysOf (stored []).globalKeys).Nodup; decide
  flowsGood := by
    intro f hf
    have hf' : some f = some storeFlow ∨ some f = none := by
      have : some f ∈ (some storeFlow :: List.replicate 7 none) := hf
      simp only [List.mem_cons, List.mem_replicate] at this
      tauto
    obtain rfl : f = storeFlow := by simpa using hf'
    refine ⟨by decide, by decide, ?_⟩
    intro k r h
    cases k
    · have : some (filled 0x11) = some r := h
      cases this
      exact Or.inr (show filled 0x11 ∈ keysOf (stored []).globalKeys by decide)
    · have : some (filled 0x22) = some r := h
      cases this
      exact Or.inl (by decide)
    · cases (h : none = some r)
    · cases (h : none = some r)
  netidsDistinct := by
    show ((stored []).flows.toList.filterMap (Option.map Flow.netid)).Nodup
    decide
  hdrCtrlReserved := by show (stored []).hdrCtrl.extractLsb' 16 16 = 0; decide
  hdrInfoReserved := by show (stored []).hdrInfo.extractLsb' 23 9 = 0; decide
  resultReserved := by show (stored []).result.extractLsb' 4 4 = 0; decide
  trialsBounded := by show ((stored []).result.extractLsb' 16 16).toNat ≤ 25; decide
  busyClean := by intro w h; cases (h : Sequencer.idle = .busy w)
  resetIdle := by intro h; cases (h : false = true)

theorem witness_DecodeInvertsEncode : (Instr.addGkey true).wellFormed = true := by decide

theorem witness_EncodeInvertsDecode : decode 0x0000FF03 = .ok (.keyedHash 0xFF) := by decide

theorem witness_IllegalWordsAreExactlyTheListed :
    decode 0x0000000D = .error .unassignedOpcode
    ∧ (let s := idleWith (.write .word 0x00C 0x0D);
      s.inReset = false ∧ s.seq = .idle ∧ s.inputs = .write .word 0x00C 0x0D :: [])
    ∧ (let s := busyWith 0x0D .complete;
      s.inReset = false ∧ s.seq = .busy 0x0D ∧ s.inputs = .complete :: []) := by decide

theorem witness_StepRunsTheDecodedCommand :
    decode 0x00030004 = .ok (.ccmDec .m16) ∧ (Instr.ccmDec .m16).wellFormed = true
    ∧ (let s := busyWith 0x00030004 .complete;
      s.inReset = false ∧ s.seq = .busy 0x00030004 ∧ s.inputs = .complete :: [])
    ∧ (let s := { busyWith 0x00030004 .complete with inputs := [] };
      s.inReset = false ∧ s.seq = .busy 0x00030004 ∧ s.inputs = []) := by decide

theorem witness_CommandWriteStartsTheCommand :
    let s := idleWith (.write .word 0x00C 0x09)
    s.inReset = false ∧ s.seq = .idle ∧ s.inputs = .write .word 0x00C 0x09 :: [] := by decide

/-- A dropped write at the lowest and the highest offset, and the write to STATUS. -/
theorem witness_WritesWhileBusyAreDropped :
    (let s := busyWith 1 (.write .word 0x000 5);
      s.inReset = false ∧ s.busy = true ∧ accessWellFormed .word 0x000 = true ∧ s.inputs = .write .word 0x000 5 :: [])
    ∧ (let s := busyWith 1 (.write .byte 0xFFF 5);
      s.inReset = false ∧ s.busy = true ∧ accessWellFormed .byte 0xFFF = true ∧ s.inputs = .write .byte 0xFFF 5 :: [])
    ∧ (let s := busyWith 1 (.write .word 0x008 2);
      s.inReset = false ∧ s.busy = true ∧ accessWellFormed .word 0x008 = true ∧ s.inputs = .write .word 0x008 2 :: []) := by
  decide

theorem witness_EveryStartedCommandEnds : (busyWith 8 .complete).inReset = true → (busyWith 8 .complete).seq = .idle := by decide

theorem witness_CommandsLeaveTheirInputsUnchanged :
    ∃ t, exec .regKey (stored []) = .next t := ⟨_, exec_after _ _⟩

theorem witness_ErrorsCommitNothing :
    ∃ t, Instr.lookupLabel ≠ .decryptFrame ∧ exec .lookupLabel State.reset = .next t ∧ t.errCode ≠ .ok :=
  ⟨_, by decide, exec_after _ _, by decide⟩

/-- The six clauses on an event in their order, the last one twice, and the empty queue. -/
theorem witness_ErrCodeKeepsTheLastOutcome :
    (∃ t, step (idleWith (.write .word 0x008 2)) = .next t)
    ∧ (∃ t, step (idleWith (.write .word 0x00C 1)) = .next t
      ∧ (idleWith (.write .word 0x00C 1)).inReset = false ∧ (idleWith (.write .word 0x00C 1)).seq = .idle)
    ∧ (∃ t, step (busyWith 8 (.write .word 0x00C 1)) = .next t ∧ (busyWith 8 (.write .word 0x00C 1)).busy = true)
    ∧ (∃ t, step (idleWith .complete) = .next t ∧ (idleWith .complete).seq = .idle)
    ∧ (∃ t, step (idleWith .assertReset) = .next t)
    ∧ (∃ t, step { idleWith .releaseReset with inReset := true } = .next t)
    ∧ (∃ t, step (idleWith .releaseReset) = .next t ∧ (idleWith .releaseReset).inReset = false)
    ∧ (∃ t, step State.reset = .next t ∧ State.reset.inputs = [] ∧ State.reset.seq = .idle) :=
  ⟨⟨_, step_after _⟩, ⟨_, step_after _, by decide⟩, ⟨_, step_after _, by decide⟩, ⟨_, step_after _, by decide⟩,
    ⟨_, step_after _⟩, ⟨_, step_after _⟩, ⟨_, step_after _, by decide⟩, ⟨_, step_after _, by decide⟩⟩

theorem witness_BusErrorsAreExactlyTheIllFormedAccesses :
    (let s := idleWith (.read .byte 0x0FF);
      s.inReset = false ∧ s.inputs = .read .byte 0x0FF :: [] ∧ accessWellFormed .byte 0x0FF = false)
    ∧ (let s := busyWith 1 (.write .half 0xFFF 3);
      s.inReset = false ∧ s.inputs = .write .half 0xFFF 3 :: [] ∧ accessWellFormed .half 0xFFF = false)
    ∧ (let s := idleWith (.read .byte 0x100);
      s.inReset = false ∧ s.inputs = .read .byte 0x100 :: [] ∧ accessWellFormed .byte 0x100 = true)
    ∧ (let s := busyWith 1 (.write .word 0xFFC 3);
      s.inReset = false ∧ s.inputs = .write .word 0xFFC 3 :: [] ∧ accessWellFormed .word 0xFFC = true) := by decide

theorem witness_ReadsHaveNoSideEffects :
    ∃ t, (busyWith 1 (.read .word 0x130)).inputs = .read .word 0x130 :: [] ∧ step (busyWith 1 (.read .word 0x130)) = .next t :=
  ⟨_, rfl, step_after _⟩

/-- The registers at both ends of the list, and one whose value is not constant. -/
theorem witness_RegisterReadsGiveTheirFields :
    ∀ p ∈ ([(0x000, 0x5A534543), (0x020, 8), (0x060, 0x00080810)] : List (BitVec 12 × Nat)),
      let s := stored [.read .word p.1]
      s.inReset = false ∧ s.seq = .idle
      ∧ p ∈ ([
        (0x000, 0x5A534543),
        (0x004, s.ie.toNat + 2 * s.defLevel.toNat + 16 * s.ipol.toNat),
        (0x008, 2 * s.done.toNat + 4 * (decide (s.errCode ≠ .ok)).toNat + 8 * s.werr.toNat + 256 * s.errCode.code.toNat),
        (0x00C, s.cmd.toNat), (0x010, s.alen.toNat), (0x014, s.mlen.toNat), (0x018, s.caplen.toNat),
        (0x01C, s.replen.toNat), (0x020, s.hoff.toNat), (0x024, s.netid.toNat), (0x028, s.hintLo.toNat),
        (0x02C, s.hintHi.toNat), (0x030, s.hintv.toNat), (0x034, s.label.toNat), (0x038, s.tag.toNat),
        (0x040, s.hdrCtrl.toNat), (0x044, s.hdrInfo.toNat), (0x048, s.hdrFc.toNat), (0x04C, s.hdrExtLo.toNat),
        (0x050, s.hdrExtHi.toNat), (0x054, s.hdrPos.toNat), (0x058, s.result.toNat), (0x05C, 0x00000200),
        (0x060, 0x00080810)] : List (BitVec 12 × Nat))
      ∧ s.inputs = .read .word p.1 :: [] := by decide

theorem witness_KcountCountsTheKeyStore :
    let s := stored [.read .word 0x064]
    s.Inv ∧ s.inReset = false ∧ s.seq = .idle ∧ s.inputs = .read .word 0x064 :: [] :=
  ⟨stored_inv _, rfl, rfl, rfl⟩

theorem witness_RegisterWritesSetTheirFields : State.reset.inReset = false ∧ State.reset.seq = .idle := by decide

/-- Both ends of each range of offsets, for writes and for reads. -/
theorem witness_ReservedAndReadOnlyLocations :
    (∀ p ∈ ([(.word, 0x000), (.word, 0x03C), (.word, 0x0FC), (.byte, 0x11D), (.byte, 0x11F), (.byte, 0x130), (.half, 0x3FE),
        (.byte, 0x600), (.byte, 0xFFF)] : List (Width × BitVec 12)),
      accessWellFormed p.1 p.2 = true
      ∧ (p.2.toNat = 0x000 ∨ (0x03C ≤ p.2.toNat ∧ p.2.toNat < 0x100)
        ∨ (0x11D ≤ p.2.toNat ∧ p.2.toNat < 0x120) ∨ (0x130 ≤ p.2.toNat ∧ p.2.toNat < 0x400) ∨ 0x600 ≤ p.2.toNat)
      ∧ (idleWith (.write p.1 p.2 1)).inReset = false ∧ (idleWith (.write p.1 p.2 1)).seq = .idle)
    ∧ (∀ p ∈ ([(.word, 0x03C), (.word, 0x068), (.word, 0x0FC), (.byte, 0x11D), (.byte, 0x11F), (.byte, 0x140), (.byte, 0x3FF),
        (.half, 0x600), (.byte, 0x7FF), (.word, 0xA00), (.byte, 0xFFF)] : List (Width × BitVec 12)),
      accessWellFormed p.1 p.2 = true
      ∧ (p.2.toNat = 0x03C ∨ (0x068 ≤ p.2.toNat ∧ p.2.toNat < 0x100)
        ∨ (0x11D ≤ p.2.toNat ∧ p.2.toNat < 0x120) ∨ (0x140 ≤ p.2.toNat ∧ p.2.toNat < 0x400)
        ∨ (0x600 ≤ p.2.toNat ∧ p.2.toNat < 0x800) ∨ 0xA00 ≤ p.2.toNat)
      ∧ (busyWith 1 (.read p.1 p.2)).inReset = false) := by decide

theorem witness_WindowWritesAreLittleEndian :
    (let s := idleWith (.write .word 0x11C 0x01020304);
      s.inReset = false ∧ s.seq = .idle ∧ accessWellFormed .word 0x11C = true ∧ 0x100 ≤ (0x11C : BitVec 12).toNat
        ∧ s.inputs = .write .word 0x11C 0x01020304 :: [])
    ∧ (let s := idleWith (.write .byte 0x5FF 0x04);
      s.inReset = false ∧ s.seq = .idle ∧ accessWellFormed .byte 0x5FF = true ∧ 0x100 ≤ (0x5FF : BitVec 12).toNat
        ∧ s.inputs = .write .byte 0x5FF 0x04 :: []) := by decide

theorem witness_WindowReadsAreLittleEndian :
    (let s := idleWith (.read .word 0x100);
      s.inReset = false ∧ s.seq = .idle ∧ accessWellFormed .word 0x100 = true ∧ 0x100 ≤ (0x100 : BitVec 12).toNat
        ∧ s.inputs = .read .word 0x100 :: [])
    ∧ (let s := idleWith (.read .half 0xFFE);
      s.inReset = false ∧ s.seq = .idle ∧ accessWellFormed .half 0xFFE = true ∧ 0x100 ≤ (0xFFE : BitVec 12).toNat
        ∧ s.inputs = .read .half 0xFFE :: []) := by decide

/-- Registers, both ends of the three windows at each width, STATUS, and both ends of what reads as while idle. -/
theorem witness_ReadsWhileBusyOfResultsAreDraws :
    ∀ p ∈ ([(.word, 0x040), (.word, 0x064), (.word, 0x130), (.byte, 0x13F), (.half, 0x110), (.word, 0x11C), (.byte, 0x11C),
        (.byte, 0x800), (.half, 0x9FE), (.word, 0x008), (.word, 0x000), (.word, 0x060), (.byte, 0x100), (.word, 0x5FC)] :
        List (Width × BitVec 12)),
      (busyWith 1 (.read p.1 p.2)).inReset = false ∧ (busyWith 1 (.read p.1 p.2)).busy = true
        ∧ accessWellFormed p.1 p.2 = true
        ∧ (busyWith 1 (.read p.1 p.2)).inputs = .read p.1 p.2 :: []
        ∧ ∃ t, step (busyWith 1 (.read p.1 p.2)) = .next t := by
  intro p h
  refine ⟨rfl, rfl, ?_, rfl, _, step_after _⟩
  revert p
  decide

theorem witness_HostAccessesLeaveResultsUnchanged :
    (∃ t, step (stored [.write .word 0x130 5]) = .next t) ∧ (∃ t, step (stored [.read .word 0x130]) = .next t) :=
  ⟨⟨_, step_after _⟩, ⟨_, step_after _⟩⟩

theorem witness_WindowLiesAtItsBase : Config.zsecBase + 4096 < Config.zsecBase ∨ Config.zsecBase + 4096 ≤ Config.zsecBase + 4096 :=
  Or.inr (Nat.le_refl _)

theorem witness_IrqFollowsDone :
    (∃ t, (idleWith (.write .word 0x00C 2)).inReset = false ∧ (idleWith (.write .word 0x00C 2)).seq = .idle
      ∧ step (idleWith (.write .word 0x00C 2)) = .next t)
    ∧ (∃ t, (busyWith 1 (.write .word 0x008 2)).inReset = false ∧ (2 : Word).getLsbD 1 = true
      ∧ step (busyWith 1 (.write .word 0x008 2)) = .next t) :=
  ⟨⟨_, rfl, rfl, step_after _⟩, ⟨_, rfl, by decide, step_after _⟩⟩

/-- ALEN at 0, at the bound and above it. -/
theorem witness_MmoHashResult :
    State.reset.alen.toNat ≤ 512 ∧ ({ State.reset with alen := 512 } : State).alen.toNat ≤ 512
    ∧ 512 < ({ State.reset with alen := 513 } : State).alen.toNat := by decide

/-- Three regions at the bound without a tag, a tag that matches, one that does not, and regions that do not fit. -/
theorem witness_CcmDecResult :
    (let s := { State.reset with alen := 512 };
      s.alen.toNat + s.mlen.toNat + micBytes .m0 ≤ 512)
    ∧ (let s := v1 [0x32, 0xF9, 0x69, 0x27, 0x54, 0x32, 0x6C, 0x44];
      s.alen.toNat + s.mlen.toNat + micBytes .m4 ≤ 512
      ∧ cbcMac s.key s.nonce (s.bufSlice 0 s.alen.toNat)
          (xorBytes (s.bufSlice s.alen.toNat s.mlen.toNat) (keystream s.key s.nonce s.mlen.toNat)) .m4
        = xorBytes (s.bufSlice (s.alen.toNat + s.mlen.toNat) (micBytes .m4))
          ((keystreamBlock s.key s.nonce 0).toList.take (micBytes .m4)))
    ∧ (let s := v1 [0x32, 0xF9, 0x69, 0x27, 0x54, 0x32, 0x6C, 0x45];
      s.alen.toNat + s.mlen.toNat + micBytes .m4 ≤ 512 ∧ MicLen.m4 ≠ .m0
      ∧ cbcMac s.key s.nonce (s.bufSlice 0 s.alen.toNat)
          (xorBytes (s.bufSlice s.alen.toNat s.mlen.toNat) (keystream s.key s.nonce s.mlen.toNat)) .m4
        ≠ xorBytes (s.bufSlice (s.alen.toNat + s.mlen.toNat) (micBytes .m4))
          ((keystreamBlock s.key s.nonce 0).toList.take (micBytes .m4)))
    ∧ (let s := { State.reset with alen := 500, mlen := 9 };
      512 < s.alen.toNat + s.mlen.toNat + micBytes .m4) := by decide +kernel

/-- Input and output at the bound, and one above it in turn. -/
theorem witness_CcmEncResult :
    (let s := { State.reset with alen := 16, mlen := 496 };
      s.alen.toNat + s.mlen.toNat ≤ 512 ∧ s.mlen.toNat + micBytes .m16 ≤ 512)
    ∧ (let s := { State.reset with alen := 17, mlen := 496 };
      512 < s.alen.toNat + s.mlen.toNat)
    ∧ (let s := { State.reset with alen := 0, mlen := 497 };
      512 < s.mlen.toNat + micBytes .m16) := by decide

theorem witness_CcmRoundTripThroughTheBlock :
    ∃ t u : State,
      (v1 [0xDE, 0xAD, 0xBE, 0xEF]).alen.toNat + (v1 [0xDE, 0xAD, 0xBE, 0xEF]).mlen.toNat + micBytes .m4 ≤ 512
      ∧ exec (.ccmEnc .m4) (v1 [0xDE, 0xAD, 0xBE, 0xEF]) = .next t
      ∧ u.key = (v1 []).key ∧ u.nonce = (v1 []).nonce ∧ u.alen = (v1 []).alen ∧ u.mlen = (v1 []).mlen
      ∧ (∀ j, j < (v1 []).alen.toNat → u.bufByte j = (v1 [0xDE, 0xAD, 0xBE, 0xEF]).bufByte j)
      ∧ (∀ j, j < (v1 []).mlen.toNat + micBytes .m4 → u.bufByte ((v1 []).alen.toNat + j) = t.outByte j) :=
  ⟨_, v1 [0x32, 0xF9, 0x69, 0x27, 0x54, 0x32, 0x6C, 0x44], by decide, exec_after _ _, by decide, by decide, by decide,
    by decide, by decide, by decide +kernel⟩

/-- A header of 13 bytes that ends with the frame, at level 4. -/
def shortFrame (level : BitVec 3) (captured : Half) : State :=
  writing 0x400 [0x20, 0, 0, 0, 0, 0, 0, 0, 0, 0, 0, 0, 0] { State.reset with
    defLevel := level, caplen := captured, replen := 13 }

theorem witness_ParseHdrDecodesTheHeader :
    (let s := shortFrame 4 13;
      let wire := (s.bufByte s.hoff.toNat).toNat;
      let payoff := s.hoff.toNat + 5 + 8 * (wire / 32 % 2) + (if wire / 8 % 4 = 1 then 1 else 0);
      s.caplen.toNat ≤ 512 ∧ payoff ≤ s.caplen.toNat ∧ payoff + 0 ≤ s.replen.toNat)
    ∧ (let s := p3 [] FlowCache.empty;
      let wire := (s.bufByte s.hoff.toNat).toNat;
      let payoff := s.hoff.toNat + 5 + 8 * (wire / 32 % 2) + (if wire / 8 % 4 = 1 then 1 else 0);
      s.caplen.toNat ≤ 512 ∧ payoff ≤ s.caplen.toNat ∧ payoff + 4 ≤ s.replen.toNat) := by decide

/-- A capture over the buffer, no control byte, too few header bytes, and no room for the MIC. -/
theorem witness_ParseHdrErrors :
    512 < (shortFrame 4 513).caplen.toNat
    ∧ (let s := { shortFrame 4 13 with hoff := 13 };
      s.caplen.toNat ≤ 512 ∧ min s.caplen.toNat s.replen.toNat < s.hoff.toNat + 1)
    ∧ (let s := shortFrame 4 12;
      let wire := (s.bufByte s.hoff.toNat).toNat;
      s.caplen.toNat ≤ 512
        ∧ min s.caplen.toNat s.replen.toNat
          < s.hoff.toNat + 5 + 8 * (wire / 32 % 2) + (if wire / 8 % 4 = 1 then 1 else 0))
    ∧ (let s := shortFrame 5 13;
      let wire := (s.bufByte s.hoff.toNat).toNat;
      s.caplen.toNat ≤ 512
        ∧ s.replen.toNat < s.hoff.toNat + 5 + 8 * (wire / 32 % 2) + (if wire / 8 % 4 = 1 then 1 else 0) + 4) := by decide

theorem witness_BuildNonceResult :
    ({ State.reset with hdrInfo := 0x00240025 } : State).hdrInfo.getLsbD 5 = true
    ∧ (let s := { State.reset with hdrInfo := 0x00640005, hintv := true };
      s.hdrInfo.getLsbD 5 = false ∧ s.hintv = true)
    ∧ State.reset.hdrInfo.getLsbD 5 = false ∧ State.reset.hintv = false := by decide

/-- The frame of program P3 and its step 3: the level bits of the control byte are 0 and 3. -/
theorem witness_WireLevelBitsAreIgnored :
    ∃ s s' t t' : State, (Instr.decryptFrame = .parseHdr ∨ Instr.decryptFrame = .decryptFrame) ∧ s.hoff.toNat < 512
      ∧ s' = { s with mem := s'.mem } ∧ s'.mem ≠ s.mem
      ∧ (∀ a, a ≠ bufBase + s.hoff.toNat → s'.memByte a = s.memByte a)
      ∧ (s'.bufByte s.hoff.toNat).extractLsb' 3 5 = (s.bufByte s.hoff.toNat).extractLsb' 3 5
      ∧ exec .decryptFrame s = .next t ∧ exec .decryptFrame s' = .next t' := by
  refine ⟨p3 [filled 0x11] FlowCache.empty,
    { p3 [filled 0x11] FlowCache.empty with mem := Memory.insert (p3 [filled 0x11] FlowCache.empty).mem 0x408 0x2B },
    _, _, Or.inr rfl, by decide, rfl, by decide, ?_, by decide, exec_after _ _, exec_after _ _⟩
  intro a ha
  have ha' : a ≠ 0x408 := ha
  simp only [State.memByte, Memory.lookup_insert, if_neg ha']

/-- The key listed, a full list, and room. -/
theorem witness_RegKeyIntoAnAllocatedFlow :
    (∃ (s : State) (f : Flow), s.Inv ∧ s.flows.get 0 = some f ∧ f.netid = s.netid ∧ f.keys.length < 8 ∧ s.key ∉ keysOf f.keys)
    ∧ (let f := storeFlow; filled 0x22 ∈ keysOf f.keys)
    ∧ (let f : Flow := { storeFlow with keys := (counting 0x90 8).map fun b => bare (filled b) };
      f.keys.length = 8 ∧ filled 0xA0 ∉ keysOf f.keys) :=
  ⟨⟨stored [], storeFlow, stored_inv _, rfl, rfl, by decide, by decide⟩, by decide, by decide⟩

/-- The first slot free, the last slot free, and none free. -/
theorem witness_RegKeyAllocatesTheLowestFreeSlot :
    let full : FlowTable := .ofList 8 ((counting 1 8).map fun b => some { storeFlow with netid := b.setWidth 16 })
    (∀ j < 8, State.reset.flows.get j = none)
    ∧ ((full.set 7 none).get 7 = none ∧ ∀ k < 7, (full.set 7 none).get k ≠ none)
    ∧ (∀ j < 8, full.get j ≠ none ∧ (full.get j).map Flow.netid ≠ some 0) := by decide

/-- A reversed key with room, a duplicate, and a full list. -/
theorem witness_AddGkeyResult :
    (let s := { State.reset with key := countingKey };
      let k : Key := .ofList 16 (counting 0 16).reverse;
      (∀ i, i < 16 → k.get i = if true then s.key.get (15 - i) else s.key.get i) ∧ k ∉ keysOf s.globalKeys
        ∧ s.globalKeys.length < 16)
    ∧ (let s := { stored [] with key := filled 0x11 };
      (∀ i, i < 16 → (filled 0x11).get i = if false then s.key.get (15 - i) else s.key.get i)
        ∧ filled 0x11 ∈ keysOf s.globalKeys)
    ∧ (let s := { State.reset with key := filled 0xEE, globalKeys := (counting 1 16).map fun b => bare (filled b) };
      (∀ i, i < 16 → (filled 0xEE).get i = if false then s.key.get (15 - i) else s.key.get i)
        ∧ filled 0xEE ∉ keysOf s.globalKeys ∧ s.globalKeys.length = 16) := by decide

theorem witness_LookupLabelResult :
    (let s := { stored [] with label := 7 };
      let r : KeyRecord := { key := filled 0x11, label := 7, tag := 9 };
      s.label ≠ 0 ∧ s.globalKeys ++ s.flows.toList.flatMap (fun f => f.elim [] Flow.keys) = [] ++ r :: [bare (filled 0x22)]
        ∧ (∀ q ∈ ([] : List KeyRecord), q.label ≠ s.label) ∧ r.label = s.label)
    ∧ State.reset.label = 0
    ∧ (let s := { stored [] with label := 8 };
      ∀ q ∈ s.globalKeys ++ s.flows.toList.flatMap (fun f => f.elim [] Flow.keys), q.label ≠ s.label) := by decide

theorem witness_KeyRecordsAreNeverModified :
    ∃ t, step { stored [.complete] with seq := .busy 9 } = .next t ∧ isSessionReset 9 = false
      ∧ ({ stored [.complete] with seq := .busy 9 } : State).flows.get 0 = some storeFlow :=
  ⟨_, step_after _, by decide, rfl⟩

/-- A flow with a cached key for the kind, one without, and a NETID without a slot. -/
theorem witness_CandidatesComeInOrder :
    (stored []).Inv ∧ (stored []).flows.get 0 = some storeFlow ∧ storeFlow.cache.entry .network = some (filled 0x22)
      ∧ storeFlow.cache.entry .load = none
      ∧ ∀ j < 8, ((stored []).flows.get j).map Flow.netid ≠ some 0xFFFF :=
  ⟨stored_inv _, rfl, rfl, rfl, by decide⟩

/-- What PARSE_HDR finds in the frame of program P3. -/
def p3Header : Header :=
  { wire := 0x28, ctrl := 0x2D, fc := 0x102, ext := 0x0011223344556677, ksn := 7, payoff := 22, paylen := 5 }

/-- A header error, a truncated capture, and a frame without a source. -/
theorem witness_DecryptFrameEarlyErrors :
    parse (shortFrame 4 12) = .error .headerTooShort
    ∧ (∃ hd, parse { p3 [] FlowCache.empty with caplen := 30 } = .ok hd
      ∧ ({ p3 [] FlowCache.empty with caplen := 30 } : State).caplen.toNat
        < ({ p3 [] FlowCache.empty with caplen := 30 } : State).replen.toNat)
    ∧ (let s := { p4 0xE4 with hintv := false, defLevel := 6 };
      ∃ hd, parse s = .ok hd ∧ s.replen.toNat ≤ s.caplen.toNat ∧ hd.ctrl.extractLsb' 0 3 ≠ 0
        ∧ (hd.ctrl.getLsbD 2 = true ∨ s.ipol = false) ∧ hd.ctrl.getLsbD 5 = false ∧ s.hintv = false) := by
  refine ⟨by decide, ⟨p3Header, by decide, by decide⟩,
    ⟨{ wire := 0, ctrl := 6, fc := 7, ext := 0, ksn := 0, payoff := 5, paylen := 2 }, by decide⟩⟩

/-- A frame at level 0, and one at level 2 with IPOL = 1. -/
theorem witness_UncheckedFramesAreReturnedAsTheyStand :
    (let s := { p4 0xE4 with defLevel := 0 };
      ∃ hd, parse s = .ok hd ∧ s.replen.toNat ≤ s.caplen.toNat ∧ hd.ctrl.extractLsb' 0 3 = 0)
    ∧ (let s := { p4 0x64 with ipol := true };
      ∃ hd, parse s = .ok hd ∧ s.replen.toNat ≤ s.caplen.toNat ∧ hd.ctrl.getLsbD 2 = false ∧ s.ipol = true) :=
  ⟨⟨{ wire := 0, ctrl := 0, fc := 7, ext := 0, ksn := 0, payoff := 5, paylen := 10 }, by decide⟩,
    ⟨{ wire := 0, ctrl := 2, fc := 7, ext := 0, ksn := 0, payoff := 5, paylen := 2 }, by decide⟩⟩

/-- Program P3, step 1, with two keys: the second candidate is the first that verifies. -/
theorem witness_FirstVerifyingCandidateDecryptsTheFrame :
    let s := p3 [filled 0x11, filled 0x22] FlowCache.empty
    let hd := p3Header
    let enc := hd.ctrl.getLsbD 2
    let keyId := keyIdOfCode (hd.ctrl.extractLsb' 3 2)
    let mic := micLenOfBits (hd.ctrl.extractLsb' 0 2)
    let nonce := buildNonce 0x0011223344556677 hd.fc hd.ctrl
    let payload := s.bufSlice hd.payoff hd.paylen
    let tail := s.bufSlice (hd.payoff + hd.paylen) (micBytes mic)
    let aad := s.bufSlice 0 s.hoff.toNat ++ [hd.ctrl] ++ s.bufSlice (s.hoff.toNat + 1) (hd.payoff - (s.hoff.toNat + 1))
    let trial (d : Candidate) := ccmDecrypt (trialKey d.raw keyId) nonce (if enc then aad else aad ++ payload)
      (if enc then payload ++ tail else tail) mic
    parse s = .ok hd ∧ s.replen.toNat ≤ s.caplen.toNat ∧ enc = true ∧ hd.ctrl.getLsbD 5 = true
      ∧ (0x0011223344556677 : BitVec 64) = hd.ext
      ∧ s.candidates keyId s.netid = [{ raw := filled 0x22, source := .flowList, index := 1 }]
        ++ { raw := filled 0x11, source := .flowList, index := 0 } :: []
      ∧ (∀ d ∈ [({ raw := filled 0x22, source := .flowList, index := 1 } : Candidate)], trial d = none)
      ∧ trial { raw := filled 0x11, source := .flowList, index := 0 } = some [1, 2, 3, 4, 5] := by decide +kernel

/-- Program P4, step 6: the payload is in the clear and the source is the hint. -/
theorem witness_FirstVerifyingCandidate_integrity :
    let s := p4 0xE4
    let hd : Header := { wire := 0, ctrl := 2, fc := 7, ext := 0, ksn := 0, payoff := 5, paylen := 2 }
    let src : BitVec 64 := 0xA1A2A3A4A5A6A7A8
    let c : Candidate := { raw := .ofList 16 (counting 0x40 16), source := .globalList, index := 0 }
    parse s = .ok hd ∧ s.replen.toNat ≤ s.caplen.toNat ∧ hd.ctrl.extractLsb' 0 2 ≠ 0 ∧ s.ipol = false
      ∧ hd.ctrl.getLsbD 5 = false ∧ s.hintv = true ∧ src = s.hintHi ++ s.hintLo
      ∧ s.candidates .link s.netid = [] ++ c :: []
      ∧ ccmDecrypt (trialKey c.raw .link) (buildNonce src hd.fc hd.ctrl)
          (s.bufSlice 0 s.hoff.toNat ++ [hd.ctrl] ++ s.bufSlice (s.hoff.toNat + 1) (hd.payoff - (s.hoff.toNat + 1))
            ++ s.bufSlice hd.payoff hd.paylen)
          (s.bufSlice (hd.payoff + hd.paylen) 8) .m8 = some [] := by decide +kernel

/-- The frame of program P3 with one key that does not verify. -/
theorem witness_FrameWithoutAVerifyingKeyFails :
    let s := p3 [filled 0x22] FlowCache.empty
    let hd := p3Header
    parse s = .ok hd ∧ s.replen.toNat ≤ s.caplen.toNat ∧ s.skipsAuth hd = false
      ∧ s.resolveSource hd.extn hd.ext = some 0x0011223344556677
      ∧ s.candidates hd.keyId s.netid = [{ raw := filled 0x22, source := .flowList, index := 0 }]
      ∧ ∀ d ∈ s.candidates hd.keyId s.netid, s.tryKey hd (buildNonce 0x0011223344556677 hd.fc hd.ctrl) d = none := by
  decide +kernel

/-- A valid slot, the last slot free, and none free. -/
theorem witness_CacheWriteStoresTheRawKey :
    let full : FlowTable := .ofList 8 ((counting 1 8).map fun b => some { storeFlow with netid := b.setWidth 16 })
    ((oneFlow storeFlow).get 0 = some storeFlow ∧ storeFlow.netid = 0x1A62)
    ∧ ((∀ i < 8, ((full.set 7 none).get i).map Flow.netid ≠ some 0x1A62) ∧ (full.set 7 none).get 7 = none
      ∧ ∀ i < 7, (full.set 7 none).get i ≠ none)
    ∧ (∀ i < 8, ∃ b < 9, full.get i = some { storeFlow with netid := BitVec.ofNat 16 b } ∧ BitVec.ofNat 16 b ≠ 0x1A62) := by
  decide

theorem witness_CacheDoesNotChangeTheVerdict :
    ∃ t t', (stored []).Inv ∧ exec .decryptFrame (stored []) = .next t
      ∧ exec .decryptFrame (stored []).withoutCaches = .next t' :=
  ⟨_, _, stored_inv _, exec_after _ _, exec_after _ _⟩

/-- Program P3, steps 1 and 2. -/
theorem witness_SecondRunTriesOnlyTheCachedKey :
    ∃ t u, exec .decryptFrame (p3 [filled 0x11] FlowCache.empty) = .next t ∧ t.errCode = .ok
      ∧ t.result.extractLsb' 2 2 ≠ 0
      ∧ (∃ f, (p3 [filled 0x11] FlowCache.empty).flows.get 0 = some f
        ∧ f.netid = (p3 [filled 0x11] FlowCache.empty).netid)
      ∧ exec .decryptFrame t = .next u :=
  ⟨_, _, exec_after _ _, by decide +kernel, by decide +kernel, ⟨_, rfl, rfl⟩, exec_after _ _⟩

/-- A valid slot of NETID's, and the other slots invalid. -/
theorem witness_DecryptFrameFrame :
    ∃ t, exec .decryptFrame (stored []) = .next t ∧ (stored []).flows.get 0 = some storeFlow
      ∧ ∀ j < 8, 0 < j → (stored []).flows.get j = none := ⟨_, exec_after _ _, rfl, by decide⟩

/-- The only slot is allocated by the cache write (program P4, step 6). -/
theorem witness_DecryptFrameFrame_allocation :
    ∃ t, exec .decryptFrame (p4 0xE4) = .next t ∧ (p4 0xE4).flows.get 0 = none ∧ t.flows.get 0 ≠ none :=
  ⟨_, exec_after _ _, rfl, by decide +kernel⟩

theorem witness_WorkOfEveryCommandFollowsTheTable :
    ∃ t, (stored []).Inv ∧ exec .decryptFrame (stored []) = .next t ∧ Instr.mmoHash ≠ .decryptFrame :=
  ⟨_, stored_inv _, exec_after _ _, by decide⟩

theorem witness_ResetPutsEverythingAtItsResetValue :
    (busyWith 8 .assertReset).inputs = .assertReset :: []
    ∧ (let s := { idleWith (.read .word 0x000) with inReset := true };
      s.inReset = true ∧ s.inputs = .read .word 0x000 :: [])
    ∧ (let s := { idleWith .releaseReset with inReset := true };
      s.inReset = true ∧ s.inputs = .releaseReset :: []) := by decide

theorem witness_EveryStepKeepsTheInvariant :
    ∃ t, (stored [.write .word 0x00C 8]).Inv ∧ step (stored [.write .word 0x00C 8]) = .next t :=
  ⟨_, stored_inv _, step_after _⟩

end Sys2Proof.Tests
end

section
/-! SUPPORT. What commands leave as it is (00_scope.md rule R13, 10_state.md rule R143, 60_exceptions.md rule R1001): the only
memory they write is OUT, and an error other than DECRYPT_FRAME's commits nothing. -/

namespace Sys2Proof.Machine

/-! ### Memory: only OUT is written -/

/-- The memory of `t` is the memory of `s` with some string, maybe the empty one, written from OUT[0] on. -/
def OutWritten (s t : State) : Prop := ∃ bytes, t.mem = Memory.insertAll s.mem outBase bytes

theorem OutWritten.of_mem_eq {s t : State} (h : t.mem = s.mem) : OutWritten s t := ⟨[], h⟩

/-- Until the next reset, a byte of BUF reads as before whatever was written to OUT. -/
theorem OutWritten.bufByte {s t : State} (h : OutWritten s t) (he : t.epoch = s.epoch) (i : Nat)
    (hi : i < Config.bufLen) : t.bufByte i = s.bufByte i := by
  obtain ⟨bytes, hm⟩ := h
  calc t.bufByte i = (s.setOut bytes).bufByte i := by
        simp only [State.bufByte, State.memByte, State.setOut_mem, State.setOut_epoch, hm, he]
    _ = s.bufByte i := State.bufByte_setOut s bytes i hi

/-! ### The two ways a command other than DECRYPT_FRAME ends -/

/-- The end of a command that commits only when it succeeds: it raises an error from the state it started in, or it completes
from a state that differs in memory at most in OUT. -/
def RaisesOrCompletes (s t : State) : Prop :=
  (∃ e, t = s.finish e) ∨ ∃ u, OutWritten s u ∧ t = u.finish .ok

theorem RaisesOrCompletes.raise (s : State) (e : ErrCode) : RaisesOrCompletes s (s.raise e) := .inl ⟨e, rfl⟩

theorem RaisesOrCompletes.complete {s u : State} (h : u.mem = s.mem) : RaisesOrCompletes s u.complete :=
  .inr ⟨u, .of_mem_eq h, rfl⟩

theorem RaisesOrCompletes.setOut_complete (s : State) (bytes : List Byte) :
    RaisesOrCompletes s (s.setOut bytes).complete := .inr ⟨_, ⟨bytes, rfl⟩, rfl⟩

theorem RaisesOrCompletes.outWritten {s t : State} (h : RaisesOrCompletes s t) : OutWritten s t := by
  obtain ⟨e, rfl⟩ | ⟨u, hu, rfl⟩ := h
  · exact .of_mem_eq rfl
  · exact hu

theorem RaisesOrCompletes.eq_finish_of_error {s t : State} (h : RaisesOrCompletes s t) (he : t.errCode ≠ .ok) :
    t = s.finish t.errCode := by
  obtain ⟨e, rfl⟩ | ⟨u, -, rfl⟩ := h
  · rfl
  · exact absurd rfl he

/-- Every command other than DECRYPT_FRAME, branch by branch. -/
theorem exec_raises_or_completes (i : Instr) (s : State) (hi : i ≠ .decryptFrame) :
    ∃ t, exec i s = .next t ∧ RaisesOrCompletes s t := by
  cases i with
  | nop => exact ⟨_, rfl, .complete rfl⟩
  | aesEnc => exact ⟨_, rfl, .complete rfl⟩
  | mmoHash =>
    refine ⟨_, rfl, ?_⟩
    split
    · exact .raise s _
    · exact .complete rfl
  | keyedHash imm8 => exact ⟨_, rfl, .complete rfl⟩
  | ccmDec mic =>
    refine ⟨_, rfl, ?_⟩
    split
    · exact .raise s _
    · split
      · exact .raise s _
      · exact .setOut_complete s _
  | ccmEnc mic =>
    refine ⟨_, rfl, ?_⟩
    split
    · exact .raise s _
    · exact .setOut_complete s _
  | parseHdr =>
    refine ⟨_, rfl, ?_⟩
    split
    · exact .raise s _
    · exact .complete rfl
  | buildNonce =>
    refine ⟨_, rfl, ?_⟩
    split
    · exact .raise s _
    · exact .complete rfl
  | decryptFrame => exact absurd rfl hi
  | regKey =>
    refine ⟨_, rfl, ?_⟩
    split
    · split
      · exact .complete rfl
      · split
        · exact .raise s _
        · exact .complete rfl
    · split
      · exact .raise s _
      · exact .complete rfl
  | addGkey rev =>
    refine ⟨_, rfl, ?_⟩
    split
    · exact .complete rfl
    · split
      · exact .raise s _
      · exact .complete rfl
  | lookupLabel =>
    refine ⟨_, rfl, ?_⟩
    split
    · exact .raise s _
    · split
      · exact .complete rfl
      · exact .raise s _
  | sessionReset => exact ⟨_, rfl, .complete rfl⟩

/-- If a command other than DECRYPT_FRAME answers next t, it raised an error or completed. -/
theorem exec_next_raises_or_completes (i : Instr) (s t : State) (hi : i ≠ .decryptFrame) (h : exec i s = .next t) :
    RaisesOrCompletes s t := by
  obtain ⟨u, hu, hc⟩ := exec_raises_or_completes i s hi
  rw [hu] at h
  cases h
  exact hc

/-! ### Every command -/

/-- DECRYPT_FRAME writes OUT when it returns a payload, and no memory when it fails. -/
theorem execDecryptFrame_outWritten (s t : State) (h : execDecryptFrame s = .next t) : OutWritten s t := by
  obtain ⟨e, -, h'⟩ | ⟨hd, -, ⟨-, h'⟩ | ⟨-, -, h'⟩ | ⟨-, -, -, h'⟩
    | ⟨src, -, -, -, ⟨before, after, c, m, -, -, -, h'⟩ | ⟨-, h'⟩⟩⟩ := execDecryptFrame_cases s
  all_goals
    rw [h'] at h
    cases h
  · exact .of_mem_eq rfl
  · exact .of_mem_eq rfl
  · exact ⟨_, rfl⟩
  · exact .of_mem_eq rfl
  · exact ⟨_, rfl⟩
  · exact .of_mem_eq rfl

/-- The only memory a command writes is OUT (10_state.md rule R143). -/
theorem exec_outWritten (i : Instr) (s t : State) (h : exec i s = .next t) : OutWritten s t := by
  by_cases hi : i = .decryptFrame
  · subst hi
    exact execDecryptFrame_outWritten s t h
  · exact (exec_next_raises_or_completes i s t hi h).outWritten

/-- What `EndsFrom` says about the fields, and the bytes of BUF, make up the inputs. -/
theorem EndsFrom.sameInputs {s t : State} (h : EndsFrom s t)
    (hbuf : ∀ i, i < Config.bufLen → t.bufByte i = s.bufByte i) : SameInputs s t := by
  constructor
  case buf => exact hbuf
  all_goals rw [h]

/-! ### The obligations -/

/-- Settles O10: the fields by the shape in which every command ends, the bytes of BUF because only OUT is written. -/
theorem commandsLeaveTheirInputsUnchanged : Obligations.CommandsLeaveTheirInputsUnchanged := by
  intro i s t h
  have hend : EndsFrom s t := exec_next i s t h
  have hepoch : t.epoch = s.epoch := by rw [hend]
  exact hend.sameInputs ((exec_outWritten i s t h).bufByte hepoch)

/-- Settles O11: such a command raises its error from the state it started in. -/
theorem errorsCommitNothing : Obligations.ErrorsCommitNothing := by
  intro i s t hi h he
  exact (exec_next_raises_or_completes i s t hi h).eq_finish_of_error he

end Sys2Proof.Machine
end

section
/-! SUPPORT. The invariant (10_state.md rules R130 to R132, 70_reset_and_hazards.md rule R1100): one lemma per state operation,
then per command, then per event. -/

namespace Sys2Proof.Machine

/-! ### The invariant at reset -/

/-- Settles O59: the key store is empty, no word is pending and every result word is 0. -/
theorem resetMeetsTheInvariant : Obligations.ResetMeetsTheInvariant where
  memory := State.wf_reset
  globalBounded := Nat.zero_le _
  globalDistinct := List.nodup_nil
  flowsGood f hf := by simp [State.reset] at hf
  netidsDistinct := by decide
  hdrCtrlReserved := rfl
  hdrInfoReserved := rfl
  resultReserved := rfl
  trialsBounded := Nat.zero_le _
  busyClean w hw := by cases hw
  resetIdle _ := ⟨rfl, rfl⟩

/-- Both edges of the reset input give the reset values (70_reset_and_hazards.md rule R1100). -/
theorem State.inv_resetTo (s : State) (level : Bool) : (s.resetTo level).Inv :=
  { resetMeetsTheInvariant with resetIdle := fun _ => ⟨rfl, rfl⟩ }

/-! ### The result commits and the end of a command -/

theorem State.Inv.setOut {s : State} (h : s.Inv) (b : List Byte) (hb : b.length ≤ Config.bufLen) : (s.setOut b).Inv :=
  { h with memory := s.wf_setOut b hb h.memory }

theorem State.Inv.setRes {s : State} (h : s.Inv) (b : Block) : (s.setRes b).Inv := { h with }

theorem State.Inv.setNonce {s : State} (h : s.Inv) (n : Nonce) : (s.setNonce n).Inv := { h with }

theorem State.Inv.setHeader {s : State} (h : s.Inv) (hd : Header) : (s.setHeader hd).Inv :=
  { h with hdrCtrlReserved := hd.ctrlWord_reserved, hdrInfoReserved := hd.infoWord_reserved }

/-- RESULT may take any of its words whose number of trials is within the bound of rule R813. -/
theorem State.Inv.setResult {s : State} (h : s.Inv) (kind : ResultKind) (source : KeySource) (index trials : Nat)
    (ht : trials ≤ 1 + Config.nFlowKeys + Config.nGlobal) : (s.setResult (resultWord kind source index trials)).Inv :=
  { h with
    resultReserved := resultWord_reserved kind source index trials
    trialsBounded := by
      simp only [State.setResult_result, resultWord_trials, BitVec.toNat_ofNat]
      exact (Nat.mod_le _ _).trans ht }

/-- A command completes only while reset is released. -/
theorem State.Inv.finish {s : State} (h : s.Inv) (hr : s.inReset = false) (e : ErrCode) : (s.finish e).Inv :=
  { h with
    busyClean := fun w hw => by cases hw
    resetIdle := fun hr' => by simp [hr] at hr' }

theorem State.Inv.trialState {s : State} (h : s.Inv) (hd : Header) (src : BitVec 64) : (s.trialState hd src).Inv :=
  (h.setHeader hd).setNonce _

theorem State.Inv.complete {s : State} (h : s.Inv) (hr : s.inReset = false) : s.complete.Inv := h.finish hr .ok

theorem State.Inv.raise {s : State} (h : s.Inv) (hr : s.inReset = false) (e : ErrCode) : (s.raise e).Inv := h.finish hr e

/-! ### The key store (44_key_ring.md rules R812, R822, R823, R835 and R840) -/

/-- A flow stays good when the global list grows. -/
theorem FlowGood.append_global {g : List KeyRecord} {f : Flow} (h : FlowGood g f) (r : KeyRecord) :
    FlowGood (g ++ [r]) f :=
  { h with
    cacheListed := fun k x hx => (h.cacheListed k x hx).imp_right fun hg => by simp [hg] }

/-- A flow stays good when its list takes a new key and has room for it. -/
theorem FlowGood.append_key {g : List KeyRecord} {f : Flow} (h : FlowGood g f) (r : KeyRecord)
    (hnew : r.key ∉ keysOf f.keys) (hroom : f.keys.length < Config.nFlowKeys) :
    FlowGood g { f with keys := f.keys ++ [r] } where
  bounded := by simpa using hroom
  distinct := keysOf_nodup_append f.keys r h.distinct hnew
  cacheListed k x hx := (h.cacheListed k x hx).imp_left fun hf => by simp [hf]

/-- A flow stays good when its cache takes a listed key. -/
theorem FlowGood.store {g : List KeyRecord} {f : Flow} (h : FlowGood g f) (k : KeyId) (r : Key)
    (hr : r ∈ keysOf f.keys ∨ r ∈ keysOf g) : FlowGood g { f with cache := f.cache.store k r } where
  bounded := h.bounded
  distinct := h.distinct
  cacheListed k' x hx := by
    rw [FlowCache.entry_store] at hx
    split at hx
    · cases hx; exact hr
    · exact h.cacheListed k' x hx

theorem FlowGood.newFlow (g : List KeyRecord) (n : Half) : FlowGood g (newFlow n) where
  bounded := Nat.zero_le _
  distinct := List.nodup_nil
  cacheListed k r hr := by simp [Machine.newFlow] at hr

theorem State.Inv.flowGood {s : State} (h : s.Inv) {i : Nat} {f : Flow} (hi : i < 8) (hf : s.flows.get i = some f) :
    FlowGood s.globalKeys f :=
  h.flowsGood f ((FlowTable.mem_iff s.flows f).mpr ⟨i, hi, hf⟩)

/-- One slot may take a good flow whose netid no other slot has. -/
theorem State.Inv.setSlot {s : State} (h : s.Inv) {i : Nat} {f : Flow} (hi : i < 8) (hf : FlowGood s.globalKeys f)
    (hother : ∀ j g, j < 8 → j ≠ i → s.flows.get j = some g → g.netid ≠ f.netid) :
    (s.setFlows (s.flows.set i (some f))).Inv :=
  { h with
    flowsGood := fun g hg => by
      obtain ⟨j, hj, hg⟩ := (FlowTable.mem_iff (s.flows.set i (some f)) g).mp hg
      rw [FlowTable.get_set _ _ _ _ hi] at hg
      split at hg
      · cases hg; exact hf
      · exact h.flowGood hj hg
    netidsDistinct := FlowTable.netids_nodup_set s.flows i f hi hother h.netidsDistinct }

/-- A valid slot may take a good flow of the same netid. -/
theorem State.Inv.replaceFlow {s : State} (h : s.Inv) {i : Nat} {f f' : Flow} (hi : i < 8)
    (hget : s.flows.get i = some f) (hn : f'.netid = f.netid) (hf' : FlowGood s.globalKeys f') :
    (s.setFlows (s.flows.set i (some f'))).Inv := by
  refine h.setSlot hi hf' fun j g hj hji hg he => ?_
  have hslot_f := FlowTable.slot_of_get s.flows i f hi hget h.netidsDistinct
  have hslot_g := FlowTable.slot_of_get s.flows j g hj hg h.netidsDistinct
  rw [he, hn, hslot_f, Option.some.injEq] at hslot_g
  exact hji hslot_g.symm

/-- An invalid slot may take a good flow of a netid without a slot. -/
theorem State.Inv.fillSlot {s : State} (h : s.Inv) {i : Nat} {f : Flow} (hi : i < 8)
    (hslot : FlowTable.slot s.flows f.netid = none) (hf : FlowGood s.globalKeys f) :
    (s.setFlows (s.flows.set i (some f))).Inv :=
  h.setSlot hi hf fun j g hj _ hg => (FlowTable.slot_eq_none s.flows f.netid).mp hslot j g hj hg

/-- The append of a record whose key is new to its flow, where the flow's list has room (rule R835). -/
theorem State.Inv.appendKey {s : State} (h : s.Inv) (n : Half) (r : KeyRecord)
    (hf : ∀ f, FlowTable.flowOf s.flows n = some f → r.key ∉ keysOf f.keys ∧ f.keys.length ≠ Config.nFlowKeys) :
    (s.setFlows (FlowTable.append s.flows n r)).Inv := by
  obtain ⟨i, f, hi, hs, hget, -, e⟩ | ⟨i, hi, hs, -, -, e⟩ | ⟨-, -, e⟩ := FlowTable.append_cases s.flows n r
  · obtain ⟨hnew, hroom⟩ := hf f (by simp only [FlowTable.flowOf, hs, hget])
    have hgood := h.flowGood hi hget
    rw [e]
    exact h.replaceFlow hi hget rfl (hgood.append_key r hnew (lt_of_le_of_ne hgood.bounded hroom))
  · rw [e]
    exact h.fillSlot hi hs ((FlowGood.newFlow s.globalKeys n).append_key r List.not_mem_nil (Nat.succ_pos 7))
  · rw [e]; exact h

/-- The cache write of a candidate's key (rules R822 and R823): a candidate's key is listed, or already cached. -/
theorem State.Inv.cacheWrite {s : State} (h : s.Inv) (n : Half) (k : KeyId) (r : Key)
    (hr : r ∈ (s.candidates k n).map Candidate.raw) : (s.setFlows (FlowTable.cacheWrite s.flows n k r)).Inv := by
  rw [State.raw_mem_candidates] at hr
  obtain ⟨i, f, hi, hs, hget, -, e⟩ | ⟨i, hi, hs, -, -, e⟩ | ⟨-, -, e⟩ := FlowTable.cacheWrite_cases s.flows n k r
  · have hgood := h.flowGood hi hget
    have hlisted : r ∈ keysOf f.keys ∨ r ∈ keysOf s.globalKeys := by
      obtain hg | ⟨f', hf', hc⟩ := hr
      · exact .inr hg
      · obtain rfl : f = f' := by simpa only [FlowTable.flowOf, hs, hget, Option.some.injEq] using hf'
        exact hc.elim (hgood.cacheListed k r) .inl
    rw [e]
    exact h.replaceFlow hi hget rfl (hgood.store k r hlisted)
  · have hglobal : r ∈ keysOf s.globalKeys := by
      obtain hg | ⟨f', hf', -⟩ := hr
      · exact hg
      · rw [(FlowTable.flowOf_eq_none s.flows n).mpr hs] at hf'; cases hf'
    rw [e]
    exact h.fillSlot hi hs ((FlowGood.newFlow s.globalKeys n).store k r (.inr hglobal))
  · rw [e]; exact h

/-- The append of a new key to a global list that has room (rule R840). -/
theorem State.Inv.appendGlobal {s : State} (h : s.Inv) (r : KeyRecord) (hnew : r.key ∉ keysOf s.globalKeys)
    (hroom : s.globalKeys.length ≠ Config.nGlobal) : (s.setGlobalKeys (s.globalKeys ++ [r])).Inv :=
  { h with
    globalBounded := by
      simpa using lt_of_le_of_ne h.globalBounded hroom
    globalDistinct := keysOf_nodup_append s.globalKeys r h.globalDistinct hnew
    flowsGood := fun f hf => (h.flowsGood f hf).append_global r }

/-- An empty key store (rule R830). -/
theorem State.Inv.emptyStore {s : State} (h : s.Inv) :
    ((s.setGlobalKeys []).setFlows (.replicate Config.nFlow none)).Inv :=
  { h with
    globalBounded := Nat.zero_le _
    globalDistinct := List.nodup_nil
    flowsGood := fun f hf => by simp at hf
    netidsDistinct := by simp }

@[simp] theorem State.setOut_candidates (s : State) (b : List Byte) (k : KeyId) (n : Half) :
    (s.setOut b).candidates k n = s.candidates k n := rfl
@[simp] theorem State.setRes_candidates (s : State) (b : Block) (k : KeyId) (n : Half) :
    (s.setRes b).candidates k n = s.candidates k n := rfl
@[simp] theorem State.setResult_candidates (s : State) (w : Word) (k : KeyId) (n : Half) :
    (s.setResult w).candidates k n = s.candidates k n := rfl

@[simp] theorem State.trialState_netid (s : State) (hd : Header) (src : BitVec 64) :
    (s.trialState hd src).netid = s.netid := rfl
@[simp] theorem State.trialState_framePayload (s : State) (hd hd' : Header) (src : BitVec 64) :
    (s.trialState hd src).framePayload hd' = s.framePayload hd' := rfl

/-- The candidates of a frame are at most 1 + N_FLOW_KEYS + N_GLOBAL (rule R813). -/
theorem State.Inv.candidates_length_le {s : State} (h : s.Inv) (k : KeyId) (n : Half) :
    (s.candidates k n).length ≤ 1 + Config.nFlowKeys + Config.nGlobal := by
  have hg := h.globalBounded
  unfold State.candidates
  cases hf : FlowTable.flowOf s.flows n with
  | none => simp only [globalCandidates_length]; omega
  | some f =>
    obtain ⟨i, hi, -, hget, -⟩ := FlowTable.flowOf_eq_some s.flows n f hf
    have hk := (h.flowGood hi hget).bounded
    have hc := cacheCandidates_length_le f k
    simp only [List.length_append, flowCandidates_length, globalCandidates_length]
    omega

/-! ### Commands -/

/-- Everything REG_KEY can do: it changes nothing but STATUS, or it appends a key that is new to NETID's flow, whose list has
room. -/
theorem execRegKey_cases (s : State) :
    (∃ e, execRegKey s = .next (s.finish e))
    ∨ ((∀ f, FlowTable.flowOf s.flows s.netid = some f → s.key ∉ keysOf f.keys ∧ f.keys.length ≠ Config.nFlowKeys)
        ∧ execRegKey s
          = .next ((s.setFlows (FlowTable.append s.flows s.netid (s.newRecord s.key))).finish .ok)) := by
  cases hf : FlowTable.flowOf s.flows s.netid with
  | some f =>
    by_cases hold : holdsKey f.keys s.key = true
    · exact .inl ⟨.ok, by simp [execRegKey, hf, hold]⟩
    · by_cases hfull : f.keys.length = Config.nFlowKeys
      · exact .inl ⟨.ringFull, by simp [execRegKey, hf, hold, hfull]⟩
      · refine .inr ⟨fun g hg => ?_, by simp [execRegKey, hf, hold, hfull]⟩
        cases hg
        exact ⟨fun hk => hold ((holdsKey_iff f.keys s.key).mpr hk), hfull⟩
  | none =>
    by_cases hfree : FlowTable.freeSlot s.flows = none
    · exact .inl ⟨.ringFull, by simp [execRegKey, hf, hfree]⟩
    · exact .inr ⟨nofun, by simp [execRegKey, hf, hfree]⟩

/-- Everything ADD_GKEY can do: it changes nothing but STATUS, or it appends a new key to a global list that has room. -/
theorem execAddGkey_cases (rev : Bool) (s : State) :
    (∃ e, execAddGkey rev s = .next (s.finish e))
    ∨ (s.keyOperand rev ∉ keysOf s.globalKeys ∧ s.globalKeys.length ≠ Config.nGlobal
        ∧ execAddGkey rev s
          = .next ((s.setGlobalKeys (s.globalKeys ++ [s.newRecord (s.keyOperand rev)])).finish .ok)) := by
  by_cases hold : holdsKey s.globalKeys (s.keyOperand rev) = true
  · exact .inl ⟨.ok, by simp [execAddGkey, hold]⟩
  · by_cases hfull : s.globalKeys.length = Config.nGlobal
    · exact .inl ⟨.ringFull, by simp [execAddGkey, hold, hfull]⟩
    · exact .inr ⟨fun hk => hold ((holdsKey_iff _ _).mpr hk), hfull, by simp [execAddGkey, hold, hfull]⟩

/-- The payload of a parsed frame that was captured whole fits in OUT. -/
theorem parse_paylen_le (s : State) (hd : Header) (h : parse s = .ok hd) (hc : s.replenN ≤ s.caplenN) :
    hd.paylen ≤ Config.bufLen := by
  obtain ⟨hbuf, -, hlen, -⟩ := parse_eq_ok s hd h
  omega

theorem State.Inv.failFrame {s : State} (h : s.Inv) (hr : s.inReset = false) (e : ErrCode) {trials : Nat}
    (hcount : trials ≤ 1 + Config.nFlowKeys + Config.nGlobal) : (s.failFrame e trials).Inv :=
  (h.setResult .failed .noKey 0 trials hcount).raise hr e

/-- The commit of a successful trial: its output fits in OUT, its key is a candidate's, and it counts at most 25 trials. -/
theorem State.Inv.commitFrame {s : State} (h : s.Inv) (hr : s.inReset = false) {hd : Header} {c : Candidate}
    {m : List Byte} {trials : Nat} (hfit : (if hd.enc then m else s.framePayload hd).length ≤ Config.bufLen)
    (hmem : c.raw ∈ (s.candidates hd.keyId s.netid).map Candidate.raw)
    (hcount : trials ≤ 1 + Config.nFlowKeys + Config.nGlobal) : (s.commitFrame hd c m trials).Inv := by
  have hresults := ((h.setOut _ hfit).setRes c.raw).setResult hd.verifiedKind c.source c.index trials hcount
  have hcached := hresults.cacheWrite s.netid hd.keyId c.raw (by simpa using hmem)
  simpa [State.commitFrame] using hcached.complete (by simpa using hr)

/-- DECRYPT_FRAME: RESULT counts at most 25 trials, the payload fits in OUT, and the cached key is a candidate. -/
theorem State.Inv.execDecryptFrame {s t : State} (h : s.Inv) (hr : s.inReset = false)
    (ht : execDecryptFrame s = .next t) : t.Inv := by
  have hnone : (0 : Nat) ≤ 1 + Config.nFlowKeys + Config.nGlobal := Nat.zero_le _
  obtain ⟨e, -, h'⟩ | ⟨hd, hp, ⟨-, h'⟩ | ⟨hc, -, h'⟩ | ⟨-, -, -, h'⟩
    | ⟨src, hc, -, -, ⟨before, after, c, m, hcs, -, hm, h'⟩ | ⟨-, h'⟩⟩⟩ := execDecryptFrame_cases s
  all_goals
    rw [h'] at ht
    cases ht
  · exact h.failFrame hr e hnone
  · exact (h.setHeader hd).failFrame hr .truncatedCiphertext hnone
  · have hfit : (s.framePayload hd).length ≤ Config.bufLen := by
      rw [State.framePayload_length]; exact parse_paylen_le s hd hp hc
    exact (((h.setHeader hd).setOut _ hfit).setResult .integrityOnly .noKey 0 0 hnone).finish hr .ok
  · exact (h.setHeader hd).failFrame hr .unknownSource hnone
  · have hfit : (if hd.enc then m else s.framePayload hd).length ≤ Config.bufLen := by
      rw [s.committed_length hd _ c m hm]; exact parse_paylen_le s hd hp hc
    have hcount : before.length + 1 ≤ 1 + Config.nFlowKeys + Config.nGlobal := by
      have hle := h.candidates_length_le hd.keyId s.netid
      rw [hcs, List.length_append, List.length_cons] at hle
      omega
    have hmem : c.raw ∈ (s.candidates hd.keyId s.netid).map Candidate.raw :=
      List.mem_map_of_mem (by simp [hcs])
    have hcommit := (h.trialState hd src).commitFrame hr (by simpa using hfit) (by simpa using hmem) hcount
    rwa [State.commitFrame_eq] at hcommit
  · exact (h.trialState hd src).failFrame hr .authFailure (h.candidates_length_le hd.keyId s.netid)

/-- Every command keeps the invariant, branch by branch. -/
theorem State.Inv.exec {s t : State} (h : s.Inv) (hr : s.inReset = false) (i : Instr) (ht : exec i s = .next t) :
    t.Inv := by
  cases i with
  | nop => cases ht; exact h.complete hr
  | aesEnc => cases ht; exact (h.setRes _).complete hr
  | mmoHash =>
    cases ht
    split
    · exact h.raise hr _
    · exact (h.setRes _).complete hr
  | keyedHash imm8 => cases ht; exact (h.setRes _).complete hr
  | ccmDec mic =>
    cases ht
    split
    · exact h.raise hr _
    · rename_i hfit
      split
      · exact h.raise hr _
      · rename_i m hm
        refine (h.setOut m ?_).complete hr
        rw [ccmDecrypt_length _ _ _ _ _ _ hm, State.bufSlice_length]
        omega
  | ccmEnc mic =>
    cases ht
    split
    · exact h.raise hr _
    · refine (h.setOut _ ?_).complete hr
      rw [ccmEncrypt_length, State.bufSlice_length]
      omega
  | parseHdr =>
    cases ht
    split
    · exact h.raise hr _
    · exact (h.setHeader _).complete hr
  | buildNonce =>
    cases ht
    split
    · exact h.raise hr _
    · exact (h.setNonce _).complete hr
  | decryptFrame => exact h.execDecryptFrame hr ht
  | regKey =>
    obtain ⟨e, h'⟩ | ⟨hnew, h'⟩ := execRegKey_cases s
    · cases h'.symm.trans ht; exact h.finish hr e
    · cases h'.symm.trans ht; exact (h.appendKey s.netid _ hnew).complete hr
  | addGkey rev =>
    obtain ⟨e, h'⟩ | ⟨hnew, hroom, h'⟩ := execAddGkey_cases rev s
    · cases h'.symm.trans ht; exact h.finish hr e
    · cases h'.symm.trans ht; exact (h.appendGlobal _ hnew hroom).complete hr
  | lookupLabel =>
    cases ht
    split
    · exact h.raise hr _
    · split
      · exact (h.setRes _).complete hr
      · exact h.raise hr _
  | sessionReset => cases ht; exact h.emptyStore.complete hr

/-! ### Events -/

theorem State.Inv.taking {s : State} (h : s.Inv) (rest : List HostEvent) : (s.taking rest).Inv := { h with }

theorem State.Inv.respond {s : State} (h : s.Inv) (error : Bool) (data : Word) : (s.respond error data).Inv := { h with }

theorem State.Inv.serveRead {s : State} (h : s.Inv) (width : Width) (a : Nat) : (s.serveRead width a).Inv := by
  rw [State.serveRead_eq]
  exact { h with }

/-- A STATUS write can only clear DONE and WERR. -/
theorem State.Inv.clearStatus {s : State} (h : s.Inv) (v : Word) : (s.clearStatus v).Inv :=
  { h with
    busyClean := fun w hw => by
      obtain ⟨hcmd, hdone, herr⟩ := h.busyClean w hw
      exact ⟨hcmd, by simp [hdone], herr⟩
    resetIdle := fun hr => by
      obtain ⟨hseq, hdone⟩ := h.resetIdle hr
      exact ⟨hseq, by simp [hdone]⟩ }

/-- A command is accepted only while reset is released. -/
theorem State.Inv.acceptCommand {s : State} (h : s.Inv) (hr : s.inReset = false) (w : Word) : (s.acceptCommand w).Inv :=
  { h with
    busyClean := fun v hv => by cases hv; exact ⟨rfl, rfl, rfl⟩
    resetIdle := fun hr' => by simp [hr] at hr' }

theorem State.Inv.writeRegister {s : State} (h : s.Inv) (hr : s.inReset = false) (a : Nat) (v : Word) :
    (s.writeRegister a v).Inv := by
  obtain ⟨-, e⟩ | ⟨-, e⟩ := s.writeRegister_cases a v
  · rw [e]; exact h.acceptCommand hr v
  · rw [e]; exact { h with }

theorem State.Inv.writeWindow {s : State} (h : s.Inv) (a : Nat) (l : List Byte) : (s.writeWindow a l).Inv := by
  have hmem := s.wf_writeWindow a l h.memory
  rw [State.writeWindow_eq]
  exact { h with memory := hmem }

theorem State.Inv.serveWrite {s : State} (h : s.Inv) (hr : s.inReset = false) (width : Width) (a : Nat) (data : Word) :
    (s.serveWrite width a data).Inv := by
  obtain ⟨-, e⟩ | ⟨-, e⟩ | ⟨-, -, -, e⟩ | ⟨-, -, -, -, -, e⟩ | ⟨-, -, -, e⟩ := s.serveWrite_cases width a data
  all_goals rw [e]
  · exact h.respond _ _
  · exact (h.clearStatus data).respond _ _
  · have hdropped : ({ s with werr := true } : State).Inv := { h with }
    exact hdropped.respond _ _
  · exact (h.writeRegister hr a data).respond _ _
  · exact (h.writeWindow a _).respond _ _

theorem State.Inv.runCommand {s t : State} (h : s.Inv) (hr : s.inReset = false) (ht : runCommand s = .next t) : t.Inv := by
  obtain ⟨-, e⟩ | ⟨w, i, -, -, e⟩ | ⟨w, err, -, -, e⟩ := runCommand_cases s
  all_goals rw [e] at ht
  · cases ht; exact h
  · exact h.exec hr i ht
  · cases ht; exact h.finish hr _

/-- Settles O60: every event, and the completion that an empty queue stands for, keeps the invariant. -/
theorem everyStepKeepsTheInvariant : Obligations.EveryStepKeepsTheInvariant := by
  intro s t h ht
  obtain ⟨rest, -, ⟨-, -, e⟩ | ⟨hr, -, e⟩ | ⟨-, width, offset, -, e⟩ | ⟨hr, width, offset, data, -, e⟩ | ⟨-, e⟩
    | ⟨-, -, e⟩ | ⟨-, -, e⟩⟩ := step_cases s
  all_goals rw [e] at ht
  · cases ht; exact h.taking rest
  · exact (h.taking rest).runCommand hr ht
  · cases ht; exact (h.taking rest).serveRead width offset.toNat
  · cases ht; exact (h.taking rest).serveWrite hr width offset.toNat data
  · cases ht; exact State.inv_resetTo _ true
  · cases ht; exact State.inv_resetTo _ false
  · cases ht; exact h.taking rest

end Sys2Proof.Machine
end

section
/-! SUPPORT. DECRYPT_FRAME once its trials begin (45_frame_decrypt.md rules R900 to R911), and what its commits leave of the flow
table and the memory (10_state.md rule R143). -/

namespace Sys2Proof.Machine

/-! ### A frame whose source resolves -/

/-- The three checks before the trials: the frame was captured whole, it is to be authenticated, and its source resolves. -/
structure TrialsBegin (s : State) (hd : Header) (src : BitVec 64) : Prop where
  parsed : parse s = .ok hd
  captured : s.replenN ≤ s.caplenN
  checked : s.skipsAuth hd = false
  resolved : s.resolveSource hd.extn hd.ext = some src

/-- When its checks pass, DECRYPT_FRAME is the trial loop and the commit of its outcome. -/
theorem TrialsBegin.exec_eq {s : State} {hd : Header} {src : BitVec 64} (h : TrialsBegin s hd src) :
    exec .decryptFrame s = .next ((s.trialState hd src).tryFrame hd (buildNonce src hd.fc hd.ctrl)) := by
  have hparse : exec .decryptFrame s = .next ((s.setHeader hd).processFrame hd) := by
    simp only [exec, execDecryptFrame, h.parsed]
  have hskips : (s.setHeader hd).skipsAuth hd = false := h.checked
  have hsource : (s.setHeader hd).resolveSource hd.extn hd.ext = some src := h.resolved
  rw [hparse, State.processFrame, State.setHeader_caplenN, State.setHeader_replenN,
    if_neg (Nat.not_lt.mpr h.captured), hskips, if_neg Bool.false_ne_true, hsource]
  rfl

/-- The bound on the associated data never fires (42_ccm_star.md rule R609). -/
theorem TrialsBegin.aad_fits {s : State} {hd : Header} {src : BitVec 64} (h : TrialsBegin s hd src) :
    aadTooLong ((s.trialState hd src).transformAad hd).length = false :=
  s.transformAad_fits hd h.parsed h.captured

/-- The first candidate whose trial succeeds is committed. -/
theorem TrialsBegin.exec_commit {s : State} {hd : Header} {src : BitVec 64} (h : TrialsBegin s hd src)
    {before after : List Candidate} {c : Candidate} {m : List Byte}
    (hcs : s.candidates hd.keyId s.netid = before ++ c :: after)
    (hbefore : ∀ d ∈ before, s.tryKey hd (buildNonce src hd.fc hd.ctrl) d = none)
    (hm : s.tryKey hd (buildNonce src hd.fc hd.ctrl) c = some m) :
    exec .decryptFrame s = .next ((s.trialState hd src).commitFrame hd c m (before.length + 1)) := by
  have hloop : tryCandidates ((s.trialState hd src).tryKey hd (buildNonce src hd.fc hd.ctrl))
      ((s.trialState hd src).candidates hd.keyId (s.trialState hd src).netid) 0
        = (some (c, m), before.length + 1) :=
    (tryCandidates_eq_some _ _ _ _ _ _).mpr ⟨before, after, hcs, hbefore, hm, by omega⟩
  rw [h.exec_eq, State.tryFrame, h.aad_fits, if_neg Bool.false_ne_true, hloop]

/-- With no candidate whose trial succeeds, the frame fails after one trial for each of them. -/
theorem TrialsBegin.exec_fail {s : State} {hd : Header} {src : BitVec 64} (h : TrialsBegin s hd src)
    (hnone : ∀ d ∈ s.candidates hd.keyId s.netid, s.tryKey hd (buildNonce src hd.fc hd.ctrl) d = none) :
    exec .decryptFrame s
      = .next ((s.trialState hd src).failFrame .authFailure (s.candidates hd.keyId s.netid).length) := by
  have hloop : tryCandidates ((s.trialState hd src).tryKey hd (buildNonce src hd.fc hd.ctrl))
      ((s.trialState hd src).candidates hd.keyId (s.trialState hd src).netid) 0
        = (none, (s.candidates hd.keyId s.netid).length) :=
    (tryCandidates_eq_none _ _ _ _).mpr ⟨hnone, (Nat.zero_add _).symm⟩
  rw [h.exec_eq, State.tryFrame, h.aad_fits, if_neg Bool.false_ne_true, hloop]

/-- Settles O52: the failed loop's outcome, RESULT written as a sum. -/
theorem frameWithoutAVerifyingKeyFails : Obligations.FrameWithoutAVerifyingKeyFails := by
  intro s hd src hp hc hs hr hnone
  have hbegin : TrialsBegin s hd src := ⟨hp, hc, hs, hr⟩
  have hresult (n : Nat) : resultWord .failed .noKey 0 n = BitVec.ofNat 32 (3 + 65536 * n) := resultWord_eq _ _ _ _
  rw [hbegin.exec_fail hnone, State.failFrame_eq, hresult]
  rfl

/-! ### The first verifying candidate, in the terms of the control byte -/

/-- The patched control byte says that a frame is to be authenticated: it encrypts, or it has a MIC that IPOL = 0 checks. -/
theorem State.skipsAuth_eq_false (s : State) (hd : Header)
    (h : hd.ctrl.getLsbD 2 = true ∨ (hd.ctrl.extractLsb' 0 2 ≠ 0 ∧ s.ipol = false)) : s.skipsAuth hd = false := by
  have hlevel : hd.level ≠ 0 := fun h0 => by
    obtain ⟨henc, hmic⟩ := (Header.level_eq_zero_iff hd).mp h0
    obtain he | ⟨hm, -⟩ := h
    · rw [henc] at he; cases he
    · exact hm hmic
  have hpolicy : (!hd.enc && s.ipol) = false := by
    obtain he | ⟨-, hi⟩ := h
    · simp [Header.enc_eq, he]
    · simp [hi]
  rw [State.skipsAuth, hpolicy, beq_false_of_ne hlevel, Bool.or_false]

/-- The source of a frame, read off the control byte and the hint (rule R721). -/
theorem State.resolveSource_eq_some (s : State) (hd : Header) (src : BitVec 64)
    (h : if hd.ctrl.getLsbD 5 then src = hd.ext else s.hintv = true ∧ src = s.hintHi ++ s.hintLo) :
    s.resolveSource hd.extn hd.ext = some src := by
  rw [State.resolveSource, Header.extn_eq]
  by_cases hx : hd.ctrl.getLsbD 5 = true
  · rw [if_pos hx] at h ⊢
    rw [h]
  · rw [if_neg hx] at h ⊢
    obtain ⟨hv, hsrc⟩ := h
    rw [if_pos hv, hsrc]
    rfl

/-- One trial, its strings cut from BUF by the header's fields (rules R903 to R905). -/
theorem State.tryKey_eq (s : State) (hd : Header) (nonce : Nonce) (c : Candidate) :
    let enc := hd.ctrl.getLsbD 2
    let mic := micLenOfBits (hd.ctrl.extractLsb' 0 2)
    let payload := s.bufSlice hd.payoff hd.paylen
    let tail := s.bufSlice (hd.payoff + hd.paylen) (micBytes mic)
    let aad := s.bufSlice 0 s.hoff.toNat ++ [hd.ctrl]
      ++ s.bufSlice (s.hoff.toNat + 1) (hd.payoff - (s.hoff.toNat + 1))
    s.tryKey hd nonce c = ccmDecrypt (trialKey c.raw (keyIdOfCode (hd.ctrl.extractLsb' 3 2))) nonce
      (if enc then aad else aad ++ payload) (if enc then payload ++ tail else tail) mic := by
  intro enc mic payload tail aad
  have haad : s.frameAad hd = aad := by simp only [State.frameAad, Nat.sub_sub]; rfl
  have htail : s.frameMic hd = tail := by rw [State.frameMic, Header.mic_eq]
  rw [State.tryKey, State.transformAad, State.transformInput, haad, htail, Header.enc_eq, Header.mic_eq]
  rfl

/-- KIND of a verified frame: Decrypted if it encrypts, IntegrityOnly if not (rule R911). -/
theorem Header.verifiedKind_code (hd : Header) :
    hd.verifiedKind.code.toNat = if hd.ctrl.getLsbD 2 then 2 else 1 := by
  rw [Header.verifiedKind, Header.enc_eq]
  split <;> rfl

/-- Settles O51: the committed state, its RESULT written as a sum and its OUT read byte by byte. -/
theorem firstVerifyingCandidateDecryptsTheFrame : Obligations.FirstVerifyingCandidateDecryptsTheFrame := by
  intro s hd src before after c m enc keyId mic nonce payload tail aad trial hp hc hcheck hsrc hcs hbefore hm
  have htrial (d : Candidate) : s.tryKey hd nonce d = trial d := s.tryKey_eq hd nonce d
  have hbegin : TrialsBegin s hd src :=
    ⟨hp, hc, s.skipsAuth_eq_false hd hcheck, s.resolveSource_eq_some hd src hsrc⟩
  have hkey : s.tryKey hd nonce c = some m := (htrial c).trans hm
  have hexec := hbegin.exec_commit hcs (fun d hd' => (htrial d).trans (hbefore d hd')) hkey
  have hlen : (if hd.enc then m else s.framePayload hd).length = hd.paylen := s.committed_length hd nonce c m hkey
  rw [State.commitFrame_eq, resultWord_eq, Header.verifiedKind_code] at hexec
  refine ⟨_, hexec, ?_, fun j hj => ?_, fun b hb => ?_⟩
  · cases c.source <;> rfl
  · have hout := s.outByte_setOut (if hd.enc then m else s.framePayload hd) j
    rw [hlen, if_pos hj] at hout
    refine hout.trans ?_
    rw [Header.enc_eq]
    split
    · rfl
    · exact s.getD_bufSlice _ _ j hj
  · have hmem := s.memByte_setOut (if hd.enc then m else s.framePayload hd) b
    rw [hlen, if_neg hb] at hmem
    exact hmem

/-! ### What a frame leaves of the flow table -/

/-- What DECRYPT_FRAME for netid n may make of the flow table: a valid slot keeps its netid and its keys, and everything if it is
not n's; at most one slot is allocated, for n and without keys. -/
structure SlotsKept (n : Half) (t u : FlowTable) : Prop where
  kept : ∀ j f, j < 8 → t.get j = some f →
    ∃ f', u.get j = some f' ∧ f'.netid = f.netid ∧ f'.keys = f.keys ∧ (f.netid ≠ n → f' = f)
  allocated : ∀ j f, j < 8 → t.get j = none → u.get j = some f → f.netid = n ∧ f.keys = []
  single : ∀ i j, i < 8 → j < 8 → t.get i = none → u.get i ≠ none → t.get j = none → u.get j ≠ none → i = j

theorem SlotsKept.refl (n : Half) (t : FlowTable) : SlotsKept n t t where
  kept _ f _ hf := ⟨f, hf, rfl, rfl, fun _ => rfl⟩
  allocated _ _ _ hnone hf := by rw [hnone] at hf; cases hf
  single _ _ _ _ hnone hsome := absurd hnone hsome

/-- A new cache for the slot of n. -/
theorem SlotsKept.setCache {n : Half} {t : FlowTable} {i : Nat} {f : Flow} (hi : i < 8) (hf : t.get i = some f)
    (hn : f.netid = n) (cache : FlowCache) : SlotsKept n t (t.set i (some { f with cache := cache })) where
  kept j g _ hg := by
    rw [FlowTable.get_set _ _ _ _ hi]
    by_cases hji : j = i
    · subst hji
      obtain rfl : f = g := by rw [hf] at hg; exact Option.some.inj hg
      exact ⟨_, if_pos rfl, rfl, rfl, fun hne => absurd hn hne⟩
    · exact ⟨g, by rw [if_neg hji, hg], rfl, rfl, fun _ => rfl⟩
  allocated j g _ hnone hg := by
    rw [FlowTable.get_set _ _ _ _ hi] at hg
    by_cases hji : j = i
    · subst hji; rw [hf] at hnone; cases hnone
    · rw [if_neg hji, hnone] at hg; cases hg
  single a b _ _ hnone hsome := by
    rw [FlowTable.get_set _ _ _ _ hi] at hsome
    by_cases hai : a = i
    · subst hai; rw [hf] at hnone; cases hnone
    · rw [if_neg hai] at hsome; exact absurd hnone hsome

/-- An invalid slot taken for n, without keys. -/
theorem SlotsKept.allocate {n : Half} {t : FlowTable} {i : Nat} (hi : i < 8) (hnone : t.get i = none)
    (cache : FlowCache) : SlotsKept n t (t.set i (some { netid := n, keys := [], cache := cache })) where
  kept j g _ hg := by
    have hji : j ≠ i := fun e => by subst e; rw [hnone] at hg; cases hg
    exact ⟨g, by rw [FlowTable.get_set _ _ _ _ hi, if_neg hji, hg], rfl, rfl, fun _ => rfl⟩
  allocated j g _ hj hg := by
    rw [FlowTable.get_set _ _ _ _ hi] at hg
    by_cases hji : j = i
    · rw [if_pos hji] at hg; cases hg; exact ⟨rfl, rfl⟩
    · rw [if_neg hji, hj] at hg; cases hg
  single a b _ _ ha ha' hb hb' := by
    have hslot (j : Nat) (hj : t.get j = none)
        (hj' : FixedList.get (t.set i (some { netid := n, keys := [], cache := cache })) j ≠ none) : j = i := by
      by_contra hji
      rw [FlowTable.get_set _ _ _ _ hi, if_neg hji] at hj'
      exact hj' hj
    rw [hslot a ha ha', hslot b hb hb']

theorem SlotsKept.cacheWrite (t : FlowTable) (n : Half) (k : KeyId) (r : Key) :
    SlotsKept n t (FlowTable.cacheWrite t n k r) := by
  obtain ⟨i, f, hi, -, hf, hn, e⟩ | ⟨i, hi, -, -, hnone, e⟩ | ⟨-, -, e⟩ := FlowTable.cacheWrite_cases t n k r
  · rw [e]; exact .setCache hi hf hn _
  · rw [e]; exact .allocate hi hnone _
  · rw [e]; exact .refl n t

/-! ### What a frame leaves of the rest -/

/-- What DECRYPT_FRAME does to OUT, RES and the flow table: nothing, or it completes with OK, having written as many bytes of OUT
as HDR_POS.PAYLEN says. -/
theorem execDecryptFrame_commits (s t : State) (h : exec .decryptFrame s = .next t) :
    (t.mem = s.mem ∧ t.res = s.res ∧ t.flows = s.flows)
    ∨ (t.errCode = .ok ∧ SlotsKept s.netid s.flows t.flows
        ∧ ∃ bytes, t.mem = Memory.insertAll s.mem outBase bytes
          ∧ bytes.length = (t.hdrPos.extractLsb' 16 16).toNat) := by
  have hpaylen (hd : Header) (hp : parse s = .ok hd) (hc : s.replenN ≤ s.caplenN) :
      (hd.posWord.extractLsb' 16 16).toNat = hd.paylen := by
    have hle : hd.paylen ≤ 512 := parse_paylen_le s hd hp hc
    rw [Header.posWord_paylen, BitVec.toNat_ofNat]
    exact Nat.mod_eq_of_lt (by omega)
  obtain ⟨e, -, h'⟩ | ⟨hd, hp, ⟨-, h'⟩ | ⟨hc, -, h'⟩ | ⟨-, -, -, h'⟩
    | ⟨src, hc, -, -, ⟨before, after, c, m, -, -, hm, h'⟩ | ⟨-, h'⟩⟩⟩ := execDecryptFrame_cases s
  all_goals cases h'.symm.trans h
  · exact .inl ⟨rfl, rfl, rfl⟩
  · exact .inl ⟨rfl, rfl, rfl⟩
  · exact .inr ⟨rfl, .refl _ _, _, rfl, (s.framePayload_length hd).trans (hpaylen hd hp hc).symm⟩
  · exact .inl ⟨rfl, rfl, rfl⟩
  · exact .inr ⟨rfl, .cacheWrite _ _ _ _, _, rfl, (s.committed_length hd _ c m hm).trans (hpaylen hd hp hc).symm⟩
  · exact .inl ⟨rfl, rfl, rfl⟩

/-- DECRYPT_FRAME does not write the global list. -/
theorem execDecryptFrame_globalKeys (s t : State) (h : exec .decryptFrame s = .next t) : t.globalKeys = s.globalKeys := by
  obtain ⟨e, -, h'⟩ | ⟨hd, -, ⟨-, h'⟩ | ⟨-, -, h'⟩ | ⟨-, -, -, h'⟩
    | ⟨src, -, -, -, ⟨before, after, c, m, -, -, -, h'⟩ | ⟨-, h'⟩⟩⟩ := execDecryptFrame_cases s
  all_goals
    cases h'.symm.trans h
    rfl

/-- Every frame leaves the flow table's slots and records in place. -/
theorem execDecryptFrame_slotsKept (s t : State) (h : exec .decryptFrame s = .next t) :
    SlotsKept s.netid s.flows t.flows := by
  obtain ⟨-, -, hflows⟩ | ⟨-, hkept, -⟩ := execDecryptFrame_commits s t h
  · rw [hflows]; exact .refl _ _
  · exact hkept

/-- Settles O56: the fields by the shape in which every command ends, memory and flow table by what a frame commits. -/
theorem decryptFrameFrame : Obligations.DecryptFrameFrame := by
  intro s t h
  have hend : EndsFrom s t := exec_next .decryptFrame s t h
  have hepoch : t.epoch = s.epoch := by rw [hend]
  obtain ⟨hkept, hallocated, hsingle⟩ := execDecryptFrame_slotsKept s t h
  refine ⟨?_, fun a ha => ?_, fun herr => ?_, hkept, hallocated, hsingle⟩
  · rwa [EndsFrom, execDecryptFrame_globalKeys s t h] at hend
  · obtain ⟨hmem, -, -⟩ | ⟨-, -, bytes, hmem, hlen⟩ := execDecryptFrame_commits s t h
    · simp only [State.memByte, hmem, hepoch]
    · rw [← hlen] at ha
      simp only [State.memByte, hmem, hepoch, Memory.lookup_insertAll, if_neg ha]
  · obtain hsame | ⟨hok, -, -⟩ := execDecryptFrame_commits s t h
    · exact hsame
    · exact absurd hok herr

end Sys2Proof.Machine
end

section
/-! SUPPORT. The host port (20_memory.md, 10_state.md rules R100 to R123): what a served access returns and what it leaves, and
the records of the key store over a step (10_state.md rule R133). -/

namespace Sys2Proof.Machine

/-! ### Steps that serve an access while idle -/

/-- A read served while idle: the response, and nothing else. -/
theorem step_read_idle (s : State) (width : Width) (offset : BitVec 12) (rest : List HostEvent) (hr : s.inReset = false)
    (hs : s.seq = .idle) (hw : accessWellFormed width offset = true) (hi : s.inputs = .read width offset :: rest) :
    step s = .next { s with
      inputs := rest
      resp := some { error := false, data := (s.taking rest).readData width offset.toNat } } := by
  have hb : (s.taking rest).busy = false := (State.busy_eq_false_iff (s.taking rest)).mpr hs
  rw [step_read s width offset rest hr hi, State.serveRead_allowed _ _ _ ((busAllows_eq width offset).trans hw),
    State.countDraw_idle _ hb]
  rfl

/-- The register words of a read while idle (10_state.md rule R100). -/
theorem step_read_register (s : State) (offset : BitVec 12) (rest : List HostEvent) (hr : s.inReset = false)
    (hs : s.seq = .idle) (hw : accessWellFormed .word offset = true) (ha : offset.toNat < 0x100)
    (hi : s.inputs = .read .word offset :: rest) :
    step s = .next { s with inputs := rest, resp := some { error := false, data := s.registerWord offset.toNat } } := by
  have hb : (s.taking rest).busy = false := (State.busy_eq_false_iff (s.taking rest)).mpr hs
  rw [step_read_idle s .word offset rest hr hs hw hi, State.readData_register _ _ _ ha hb]
  rfl

/-- A write of a register other than STATUS, while idle. -/
theorem step_write_register (s : State) (offset : BitVec 12) (data : Word) (rest : List HostEvent) (hr : s.inReset = false)
    (hs : s.seq = .idle) (hw : accessWellFormed .word offset = true) (ha : offset.toNat < 0x100)
    (hstatus : offset.toNat ≠ 0x008) (hi : s.inputs = .write .word offset data :: rest) :
    step s = .next (((s.taking rest).writeRegister offset.toNat data).respond false 0) := by
  have hb : (s.taking rest).busy = false := (State.busy_eq_false_iff (s.taking rest)).mpr hs
  rw [step_write s .word offset data rest hr hi,
    State.serveWrite_register _ _ _ _ ((busAllows_eq .word offset).trans hw) hstatus hb ha]

/-- A write of STATUS, at any time. -/
theorem step_write_status (s : State) (data : Word) (rest : List HostEvent) (hr : s.inReset = false)
    (hi : s.inputs = .write .word 0x008 data :: rest) :
    step s = .next (((s.taking rest).clearStatus data).respond false 0) := by
  rw [step_write s .word 0x008 data rest hr hi]
  rfl

/-- A window write while idle. -/
theorem step_write_window (s : State) (width : Width) (offset : BitVec 12) (data : Word) (rest : List HostEvent)
    (hr : s.inReset = false) (hs : s.seq = .idle) (hw : accessWellFormed width offset = true) (ha : 0x100 ≤ offset.toNat)
    (hi : s.inputs = .write width offset data :: rest) :
    step s = .next (((s.taking rest).writeWindow offset.toNat (leBytes (widthBytes width) data.toNat)).respond false 0) := by
  have hb : (s.taking rest).busy = false := (State.busy_eq_false_iff (s.taking rest)).mpr hs
  rw [step_write s width offset data rest hr hi,
    State.serveWrite_window _ _ _ _ ((busAllows_eq width offset).trans hw) hb ha]

/-! ### Register writes (10_state.md rules R102 to R114) -/

/-- Settles O6: the write to CMD is the one register write that starts a command. -/
theorem commandWriteStartsTheCommand : Obligations.CommandWriteStartsTheCommand := by
  intro s v rest hr hs hi
  rw [step_write_register s 0x00C v rest hr hs rfl (by decide) (by decide) hi]
  rfl

/-- Settles O17: STATUS by its own rule, every other register by the arm of its offset. -/
theorem registerWritesSetTheirFields : Obligations.RegisterWritesSetTheirFields := by
  intro s v rest hr hs served writing
  have hfield : v.extractLsb' 0 16 = v.setWidth 16 := (BitVec.setWidth_eq_extractLsb' (by decide)).symm
  have hwrite (offset : BitVec 12) (hw : accessWellFormed .word offset = true) (ha : offset.toNat < 0x100)
      (hstatus : offset.toNat ≠ 0x008) :
      step (writing offset) = .next ((((writing offset).taking rest).writeRegister offset.toNat v).respond false 0) :=
    step_write_register (writing offset) offset v rest hr hs hw ha hstatus rfl
  rw [hfield]
  exact ⟨hwrite 0x004 rfl (by decide) (by decide), step_write_status (writing 0x008) v rest hr rfl,
    hwrite 0x010 rfl (by decide) (by decide), hwrite 0x014 rfl (by decide) (by decide),
    hwrite 0x018 rfl (by decide) (by decide), hwrite 0x01C rfl (by decide) (by decide),
    hwrite 0x020 rfl (by decide) (by decide), hwrite 0x024 rfl (by decide) (by decide),
    hwrite 0x028 rfl (by decide) (by decide), hwrite 0x02C rfl (by decide) (by decide),
    hwrite 0x030 rfl (by decide) (by decide), hwrite 0x034 rfl (by decide) (by decide),
    hwrite 0x038 rfl (by decide) (by decide)⟩

/-- Settles O25: either write leaves DONE at 0. -/
theorem irqFollowsDone : Obligations.IrqFollowsDone := by
  intro s t v rest
  refine ⟨by simp [State.irq], fun hr hs hi ht => ?_, fun hr hv hi ht => ?_⟩
  · rw [commandWriteStartsTheCommand s v rest hr hs hi] at ht
    cases ht
    exact Bool.and_false s.ie
  · rw [step_write_status s v rest hr hi] at ht
    cases ht
    simp [State.irq, hv]

/-! ### Register reads (10_state.md rules R101 to R122) -/

/-- STATUS while idle, as a sum of its fields (rule R103). -/
theorem State.statusWord_idle (s : State) (hs : s.seq = .idle) :
    s.statusWord = BitVec.ofNat 32 (2 * s.done.toNat + 4 * (decide (s.errCode ≠ .ok)).toNat + 8 * s.werr.toNat
      + 256 * s.errCode.code.toNat) := by
  have hb : s.busy = false := (State.busy_eq_false_iff s).mpr hs
  rw [State.statusWord, State.err, hb]
  cases s.done <;> cases s.werr <;> cases s.errCode <;> rfl

/-- CTRL as a sum of its fields (rule R102). -/
theorem State.ctrlWord_eq (s : State) :
    s.ctrlWord = BitVec.ofNat 32 (s.ie.toNat + 2 * s.defLevel.toNat + 16 * s.ipol.toNat) := by
  have h (ie ipol : Bool) (level : BitVec 3) : (0#27 ++ BitVec.ofBool ipol ++ level ++ BitVec.ofBool ie : BitVec 32)
      = BitVec.ofNat 32 (ie.toNat + 2 * level.toNat + 16 * ipol.toNat) := by
    revert level; cases ie <;> cases ipol <;> decide
  exact h s.ie s.ipol s.defLevel

/-- The table of rule R100 while idle: an offset and the number its register reads as. -/
def registerTable (s : State) : List (BitVec 12 × Nat) :=
  [(0x000, 0x5A534543),
    (0x004, s.ie.toNat + 2 * s.defLevel.toNat + 16 * s.ipol.toNat),
    (0x008, 2 * s.done.toNat + 4 * (decide (s.errCode ≠ .ok)).toNat + 8 * s.werr.toNat + 256 * s.errCode.code.toNat),
    (0x00C, s.cmd.toNat), (0x010, s.alen.toNat), (0x014, s.mlen.toNat), (0x018, s.caplen.toNat),
    (0x01C, s.replen.toNat), (0x020, s.hoff.toNat), (0x024, s.netid.toNat), (0x028, s.hintLo.toNat),
    (0x02C, s.hintHi.toNat), (0x030, s.hintv.toNat), (0x034, s.label.toNat), (0x038, s.tag.toNat),
    (0x040, s.hdrCtrl.toNat), (0x044, s.hdrInfo.toNat), (0x048, s.hdrFc.toNat), (0x04C, s.hdrExtLo.toNat),
    (0x050, s.hdrExtHi.toNat), (0x054, s.hdrPos.toNat), (0x058, s.result.toNat), (0x05C, 0x00000200),
    (0x060, 0x00080810)]

/-- The offsets of the table are multiples of 4 in the register area. -/
theorem registerTable_offsets (s : State) :
    ∀ p ∈ registerTable s, accessWellFormed .word p.1 = true ∧ p.1.toNat < 0x100 := by
  simp only [registerTable, List.forall_mem_cons]
  decide

/-- Each register reads as the number the table gives. -/
theorem registerTable_values (s : State) (hs : s.seq = .idle) :
    ∀ p ∈ registerTable s, s.registerWord p.1.toNat = BitVec.ofNat 32 p.2 := by
  have hbit : (BitVec.ofBool s.hintv).setWidth 32 = BitVec.ofNat 32 s.hintv.toNat := by cases s.hintv <;> rfl
  simp only [registerTable, List.forall_mem_cons, BitVec.ofNat_toNat, BitVec.setWidth_eq, ← State.ctrlWord_eq,
    ← s.statusWord_idle hs, ← hbit]
  exact ⟨rfl, rfl, rfl, rfl, rfl, rfl, rfl, rfl, rfl, rfl, rfl, rfl, rfl, rfl, rfl, rfl, rfl, rfl, rfl, rfl, rfl, rfl, rfl,
    rfl, nofun⟩

/-- Settles O15: a read returns the register's word, which is the table's number. -/
theorem registerReadsGiveTheirFields : Obligations.RegisterReadsGiveTheirFields := by
  intro s offset v rest hr hs hmem hi
  obtain ⟨hw, ha⟩ := registerTable_offsets s (offset, v) hmem
  rw [step_read_register s offset rest hr hs hw ha hi, registerTable_values s hs (offset, v) hmem]

/-- KCOUNT as a sum of its fields, when both counts fit in theirs (rule R121). -/
theorem State.kcountWord_eq (s : State) (hg : s.globalKeys.length < 256) :
    s.kcountWord = BitVec.ofNat 32 (s.globalKeys.length + 256 * (s.flows.toList.filter Option.isSome).length) := by
  have hf : (s.flows.toList.filter Option.isSome).length ≤ 8 :=
    (List.length_filter_le _ _).trans s.flows.length_eq.le
  have hcount : (BitVec.ofNat 8 s.globalKeys.length).toNat = s.globalKeys.length := by
    rw [BitVec.toNat_ofNat]; exact Nat.mod_eq_of_lt hg
  apply BitVec.eq_of_toNat_eq
  rw [State.kcountWord, FlowTable.allocated, List.countP_eq_length_filter, BitVec.toNat_append, BitVec.toNat_append,
    ← Nat.shiftLeft_add_eq_or_of_lt (BitVec.isLt _), ← Nat.shiftLeft_add_eq_or_of_lt (BitVec.isLt _), hcount]
  simp only [BitVec.toNat_ofNat, Nat.shiftLeft_eq]
  omega

/-- Settles O16: the invariant bounds the global list, and the table has eight slots. -/
theorem kcountCountsTheKeyStore : Obligations.KcountCountsTheKeyStore := by
  intro s rest h hr hs hi
  have hg : s.globalKeys.length < 256 := lt_of_le_of_lt h.globalBounded (by decide)
  rw [step_read_register s 0x064 rest hr hs rfl (by decide) hi, ← s.kcountWord_eq hg]
  rfl

end Sys2Proof.Machine
end

section
/-! SUPPORT. Window accesses (20_memory.md rules R202, R203 and R210) byte by byte, and what no host access and no step may do to
results and stored records (10_state.md rules R123, R133 and R143). -/

namespace Sys2Proof.Machine

/-! ### Bytes of integers (00_scope.md rule R11) -/

/-- Byte k of a little-endian encoding. -/
theorem getD_leBytes (n v k : Nat) (h : k < n) : (leBytes n v).getD k 0 = BitVec.ofNat 8 (v / 256 ^ k) := by
  induction n generalizing v k with
  | zero => omega
  | succ n ih =>
    cases k with
    | zero => simp [leBytes]
    | succ k =>
      rw [leBytes, List.getD_cons_succ, ih _ _ (by omega), Nat.div_div_eq_div_mul, Nat.pow_succ']

/-- Byte k of a string, read off the integer it encodes. -/
theorem getD_eq_fromLE (l : List Byte) (k : Nat) (h : k < l.length) :
    l.getD k 0 = BitVec.ofNat 8 (fromLE l / 256 ^ k) := by
  rw [← getD_leBytes l.length (fromLE l) k h, leBytes_fromLE]

/-- Byte lane k of a word. -/
theorem extractLsb'_lane (w : Word) (k : Nat) : w.extractLsb' (8 * k) 8 = BitVec.ofNat 8 (w.toNat / 256 ^ k) := by
  rw [BitVec.extractLsb', Nat.shiftRight_eq_div_pow, Nat.pow_mul]

/-! ### Window reads -/

/-- The word of up to four bytes: each byte in its lane, nothing above them. -/
theorem fromLE_word (l : List Byte) (hl : l.length ≤ 4) :
    (∀ k, k < l.length → (BitVec.ofNat 32 (fromLE l)).extractLsb' (8 * k) 8 = l.getD k 0)
    ∧ (BitVec.ofNat 32 (fromLE l)).toNat < 256 ^ l.length := by
  have hlt : fromLE l < 256 ^ l.length := fromLE_lt l
  have hword : (BitVec.ofNat 32 (fromLE l)).toNat = fromLE l := by
    rw [BitVec.toNat_ofNat]
    exact Nat.mod_eq_of_lt (hlt.trans_le (Nat.pow_le_pow_right (by decide) hl))
  exact ⟨fun k hk => by rw [extractLsb'_lane, hword, getD_eq_fromLE l k hk], by rw [hword]; exact hlt⟩

/-- Which byte of the state each window byte is (rules R123, R202 and R211). -/
theorem State.windowByte_regions (s : State) (i : Nat) :
    (i < 16 → s.windowByte (0x100 + i) = s.key.get i)
    ∧ (i < 13 → s.windowByte (0x110 + i) = s.nonce.get i)
    ∧ (i < 16 → s.windowByte (0x120 + i) = s.blk.get i)
    ∧ (i < 16 → s.windowByte (0x130 + i) = s.res.get i)
    ∧ (i < 512 → s.windowByte (0x400 + i) = s.bufByte i)
    ∧ (i < 512 → s.windowByte (0x800 + i) = s.outByte i) := by
  refine ⟨fun h => ?_, fun h => ?_, fun h => ?_, fun h => ?_, fun h => ?_, fun h => ?_⟩
  · simp only [State.windowByte, regionOf_key (0x100 + i) (by omega) (by omega), Nat.add_sub_cancel_left]
  · simp only [State.windowByte, regionOf_nonce (0x110 + i) (by omega) (by omega), Nat.add_sub_cancel_left]
  · simp only [State.windowByte, regionOf_blk (0x120 + i) (by omega) (by omega), Nat.add_sub_cancel_left]
  · simp only [State.windowByte, regionOf_res (0x130 + i) (by omega) (by omega), Nat.add_sub_cancel_left]
  · simp only [State.windowByte, regionOf_buf (0x400 + i) (by omega) (by omega), Nat.add_sub_cancel_left]
  · simp only [State.windowByte, regionOf_out (0x800 + i) (by omega) (by omega), Nat.add_sub_cancel_left]

/-- Settles O20: the data is the word of the bytes at the access's offsets. -/
theorem windowReadsAreLittleEndian : Obligations.WindowReadsAreLittleEndian := by
  refine ⟨fun s width offset rest hr hs hw ha hi => ?_, fun s i => ?_⟩
  · have hb : (s.taking rest).busy = false := (State.busy_eq_false_iff (s.taking rest)).mpr hs
    obtain ⟨hlane, hbound⟩ := fromLE_word
      ((List.range (widthBytes width)).map fun k => s.windowByte (offset.toNat + k)) (by simpa using widthBytes_le width)
    rw [List.length_map, List.length_range] at hlane hbound
    rw [step_read_idle s width offset rest hr hs hw hi, State.readData_window _ _ _ ha hb]
    refine ⟨_, rfl, fun k hk => (hlane k hk).trans ?_, hbound⟩
    simp [List.getD, hk]
  · obtain ⟨hkey, hnonce, hblk, hres, hbuf, hout⟩ := s.windowByte_regions i
    exact ⟨hkey, hnonce, hblk, hres, hbuf, hout, s.windowByte_reserved i⟩

/-! ### Window writes -/

/-- Settles O19: byte k of the string that is written is byte lane k of the data. -/
theorem windowWritesAreLittleEndian : Obligations.WindowWritesAreLittleEndian := by
  intro s width offset data rest hr hs hw ha hi
  refine ⟨_, step_write_window s width offset data rest hr hs hw ha hi, ?_, fun a ha' _ => ?_⟩
  · rw [State.writeWindow_eq]
    rfl
  · have hbyte := (s.taking rest).windowByte_writeWindow offset.toNat a (leBytes (widthBytes width) data.toNat) ha ha'
    rw [leBytes_length] at hbyte
    refine hbyte.trans ?_
    by_cases h : (offset.toNat ≤ a ∧ a < offset.toNat + widthBytes width)
        ∧ (a < 0x11D ∨ (0x120 ≤ a ∧ a < 0x130) ∨ (0x400 ≤ a ∧ a < 0x600))
    · rw [if_pos h, if_pos h, extractLsb'_lane, getD_leBytes _ _ _ (by omega)]
    · rw [if_neg h, if_neg h]
      rfl

/-! ### Reserved and read-only locations (rules R100, R203 and R215) -/

/-- The read-only and the reserved offsets of the windows. -/
def ReadOnlyOffset (a : Nat) : Prop :=
  (0x11D ≤ a ∧ a < 0x120) ∨ (0x130 ≤ a ∧ a < 0x400) ∨ 0x600 ≤ a

/-- The reserved offsets of the windows. -/
def ReservedOffset (a : Nat) : Prop :=
  (0x11D ≤ a ∧ a < 0x120) ∨ (0x140 ≤ a ∧ a < 0x400) ∨ (0x600 ≤ a ∧ a < 0x800) ∨ 0xA00 ≤ a

/-- The port ignores a byte written where the host may not write (10_state.md rule R123). -/
theorem State.writeWindowByte_readOnly (s : State) (a : Nat) (v : Byte) (h : ReadOnlyOffset a) :
    s.writeWindowByte a v = s := by
  unfold ReadOnlyOffset at h
  by_cases hres : 0x130 ≤ a ∧ a < 0x140
  · simp only [State.writeWindowByte, regionOf_res a hres.1 hres.2]
  · by_cases hout : 0x800 ≤ a ∧ a < 0xA00
    · simp only [State.writeWindowByte, regionOf_out a hout.1 hout.2]
    · simp only [State.writeWindowByte, regionOf_reserved a (by omega)]

theorem State.writeWindow_readOnly (s : State) (a : Nat) (l : List Byte)
    (h : ∀ k, k < l.length → ReadOnlyOffset (a + k)) : s.writeWindow a l = s := by
  induction l generalizing a with
  | nil => rfl
  | cons v l ih =>
    rw [State.writeWindow, s.writeWindowByte_readOnly a v (h 0 (Nat.succ_pos _))]
    refine ih (a + 1) fun k hk => ?_
    rw [show a + 1 + k = a + (k + 1) by omega]
    exact h (k + 1) (Nat.succ_lt_succ hk)

/-- An aligned window access does not leave the range it begins in: every end of a range but 0x11D is a multiple of 4, and
the access begins behind that one. -/
theorem ReadOnlyOffset.lanes {width : Width} {a k : Nat} (h : ReadOnlyOffset a) (hw : busAllows width a = true)
    (hk : k < widthBytes width) : ReadOnlyOffset (a + k) := by
  unfold ReadOnlyOffset at h ⊢
  have halign := busAllows_window width a (by omega) hw
  cases width <;> simp only [widthBytes] at hk halign <;> omega

theorem ReservedOffset.lanes {width : Width} {a k : Nat} (h : ReservedOffset a) (hw : busAllows width a = true)
    (hk : k < widthBytes width) : ReservedOffset (a + k) := by
  unfold ReservedOffset at h ⊢
  have halign := busAllows_window width a (by omega) hw
  cases width <;> simp only [widthBytes] at hk halign <;> omega

/-- A reserved window byte reads as 0, while BUSY too. -/
theorem State.hostByte_reserved (s : State) (a k : Nat) (h : ReservedOffset (a + k)) : s.hostByte a k = 0 := by
  unfold ReservedOffset at h
  have hresult : isResultByte (a + k) = false := by
    rw [← Bool.not_eq_true, isResultByte_iff]
    omega
  rw [State.hostByte, hresult, Bool.and_false, if_neg Bool.false_ne_true, s.windowByte_reserved _ h]

/-- A reserved register offset reads as 0, while BUSY too. -/
theorem State.hostRegister_reserved (s : State) (a : Nat) (h : a = 0x03C ∨ 0x068 ≤ a) : s.hostRegister a = 0 := by
  have hresult : isResultRegister a = false := by
    unfold isResultRegister
    split <;> first | rfl | omega
  have hword : s.registerWord a = 0 := by
    unfold State.registerWord
    split <;> first | rfl | omega
  rw [State.hostRegister, hresult, Bool.and_false, if_neg Bool.false_ne_true, hword]

theorem fromLE_replicate_zero (n : Nat) : fromLE (List.replicate n 0) = 0 := by
  induction n with
  | zero => rfl
  | succ n ih =>
    rw [List.replicate_succ, fromLE, ih]
    rfl

/-- The data of an allowed read of a reserved offset. -/
theorem State.readData_reserved (s : State) (width : Width) (a : Nat) (hw : busAllows width a = true)
    (h : a = 0x03C ∨ (0x068 ≤ a ∧ a < 0x100) ∨ ReservedOffset a) : s.readData width a = 0 := by
  by_cases ha : a < 0x100
  · have hreg : a = 0x03C ∨ 0x068 ≤ a := by unfold ReservedOffset at h; omega
    rw [State.readData, if_pos ha, s.hostRegister_reserved a hreg]
  · have hwindow : ReservedOffset a := by
      obtain h | h | h := h
      · omega
      · omega
      · exact h
    have hbytes : (List.range (widthBytes width)).map (fun k => s.hostByte a k) = List.replicate (widthBytes width) 0 :=
      List.eq_replicate_iff.mpr ⟨by simp, fun b hb => by
        obtain ⟨k, hk, rfl⟩ := List.mem_map.mp hb
        exact s.hostByte_reserved a k (hwindow.lanes hw (List.mem_range.mp hk))⟩
    rw [State.readData, if_neg ha, hbytes, fromLE_replicate_zero]
    rfl

/-- Settles O18: no byte of an aligned access leaves its range, and no arm of a write takes these offsets. -/
theorem reservedAndReadOnlyLocations : Obligations.ReservedAndReadOnlyLocations := by
  intro s width offset data rest hr hw
  have hbus : busAllows width offset.toNat = true := (busAllows_eq width offset).trans hw
  refine ⟨fun hs ha hi => ?_, fun ha hi => ?_⟩
  · by_cases hreg : offset.toNat < 0x100
    · obtain ⟨rfl, -⟩ := busAllows_register width _ hreg hbus
      rw [step_write_register s offset data rest hr hs hw hreg (by omega) hi,
        State.writeRegister_ignored _ _ _ (by omega)]
      rfl
    · have hro : ReadOnlyOffset offset.toNat := by unfold ReadOnlyOffset; omega
      rw [step_write_window s width offset data rest hr hs hw (by omega) hi,
        State.writeWindow_readOnly _ _ _ fun k hk => hro.lanes hbus (by simpa using hk)]
      rfl
  · refine ⟨_, step_read s width offset rest hr hi, ?_⟩
    have hzero := (s.taking rest).readData_reserved width offset.toNat hbus
      (by unfold ReservedOffset; omega)
    rw [State.serveRead_resp, hbus, if_pos rfl, hzero]
    rfl

/-! ### Host accesses and results -/

theorem SameResults.refl (s : State) : SameResults s s := by
  constructor
  case out => exact fun _ _ => rfl
  all_goals rfl

theorem State.serveRead_sameResults (s : State) (width : Width) (a : Nat) : SameResults s (s.serveRead width a) := by
  rw [State.serveRead_eq]
  exact { SameResults.refl s with }

theorem State.writeRegister_sameResults (s : State) (a : Nat) (v : Word) : SameResults s (s.writeRegister a v) := by
  obtain ⟨-, e⟩ | ⟨-, e⟩ := s.writeRegister_cases a v
  all_goals
    rw [e]
    exact { SameResults.refl s with }

/-- A window write reaches BUF but no byte of OUT. -/
theorem State.writeWindow_sameResults (s : State) (a : Nat) (l : List Byte) (ha : 0x100 ≤ a) :
    SameResults s (s.writeWindow a l) := by
  have hout (i : Nat) (hi : i < Config.bufLen) := s.outByte_writeWindow a l i ha hi
  rw [State.writeWindow_eq] at hout ⊢
  exact { SameResults.refl s with out := hout }

theorem State.serveWrite_sameResults (s : State) (width : Width) (a : Nat) (data : Word) :
    SameResults s (s.serveWrite width a data) := by
  obtain ⟨-, e⟩ | ⟨-, e⟩ | ⟨-, -, -, e⟩ | ⟨-, -, -, -, -, e⟩ | ⟨-, -, ha, e⟩ := s.serveWrite_cases width a data
  all_goals rw [e]
  · exact { SameResults.refl s with }
  · exact { SameResults.refl s with }
  · exact { SameResults.refl s with }
  · exact { s.writeRegister_sameResults a data with }
  · exact { s.writeWindow_sameResults a _ ha with }

/-- Settles O22: an access that is passed over in reset changes nothing, and one that is served no result. -/
theorem hostAccessesLeaveResultsUnchanged : Obligations.HostAccessesLeaveResultsUnchanged := by
  intro s t e rest he hi ht
  rw [step_cons s e rest hi] at ht
  obtain ⟨width, offset, rfl⟩ | ⟨width, offset, data, rfl⟩ := he
  · cases ht
    split
    · exact { SameResults.refl s with }
    · exact { (s.taking rest).serveRead_sameResults width offset.toNat with }
  · cases ht
    split
    · exact { SameResults.refl s with }
    · exact { (s.taking rest).serveWrite_sameResults width offset.toNat data with }

/-! ### Stored records (10_state.md rule R133) -/

/-- Each list of records goes on from what it was, and a valid slot stays valid with its netid. -/
structure KeepsRecords (s t : State) : Prop where
  globalKeys : s.globalKeys <+: t.globalKeys
  flows : ∀ j f, j < 8 → s.flows.get j = some f → ∃ f', t.flows.get j = some f' ∧ f'.netid = f.netid ∧ f.keys <+: f'.keys

theorem KeepsRecords.of_eq {s t : State} (hg : t.globalKeys = s.globalKeys) (hf : t.flows = s.flows) :
    KeepsRecords s t where
  globalKeys := by rw [hg]
  flows j f _ hget := ⟨f, by rw [hf, hget], rfl, List.prefix_rfl⟩

theorem SameResults.keepsRecords {s t : State} (h : SameResults s t) : KeepsRecords s t := .of_eq h.globalKeys h.flows

theorem SlotsKept.keepsRecords {s t : State} {n : Half} (h : SlotsKept n s.flows t.flows)
    (hg : t.globalKeys = s.globalKeys) : KeepsRecords s t where
  globalKeys := by rw [hg]
  flows j f hj hget := by
    obtain ⟨f', hget', hn, hkeys, -⟩ := h.kept j f hj hget
    exact ⟨f', hget', hn, by rw [hkeys]⟩

/-- The append of a record goes on from the list that its slot holds (44_key_ring.md rule R835). -/
theorem KeepsRecords.appendKey (s : State) (n : Half) (r : KeyRecord) :
    KeepsRecords s (s.setFlows (FlowTable.append s.flows n r)) := by
  obtain ⟨i, f, hi, -, hf, -, e⟩ | ⟨i, hi, -, -, hnone, e⟩ | ⟨-, -, e⟩ := FlowTable.append_cases s.flows n r
  · refine ⟨List.prefix_rfl, fun j g _ hg => ?_⟩
    rw [State.setFlows_flows, e, FlowTable.get_set _ _ _ _ hi]
    by_cases hji : j = i
    · subst hji
      obtain rfl : f = g := by rw [hf] at hg; exact Option.some.inj hg
      exact ⟨_, if_pos rfl, rfl, List.prefix_append f.keys [r]⟩
    · exact ⟨g, by rw [if_neg hji, hg], rfl, List.prefix_rfl⟩
  · refine ⟨List.prefix_rfl, fun j g _ hg => ?_⟩
    have hji : j ≠ i := fun h => by subst h; rw [hnone] at hg; cases hg
    rw [State.setFlows_flows, e, FlowTable.get_set _ _ _ _ hi, if_neg hji]
    exact ⟨g, hg, rfl, List.prefix_rfl⟩
  · exact .of_eq rfl e

/-- The commands that write neither the global list nor the flow table. -/
theorem exec_sameStore (i : Instr) (s t : State) (h : exec i s = .next t) (hframe : i ≠ .decryptFrame)
    (hreg : i ≠ .regKey) (hadd : ∀ rev, i ≠ .addGkey rev) (hreset : i ≠ .sessionReset) :
    t.globalKeys = s.globalKeys ∧ t.flows = s.flows := by
  cases i with
  | nop => cases h; exact ⟨rfl, rfl⟩
  | aesEnc => cases h; exact ⟨rfl, rfl⟩
  | mmoHash => cases h; split <;> exact ⟨rfl, rfl⟩
  | keyedHash imm8 => cases h; exact ⟨rfl, rfl⟩
  | ccmDec mic =>
    cases h
    split
    · exact ⟨rfl, rfl⟩
    · split <;> exact ⟨rfl, rfl⟩
  | ccmEnc mic => cases h; split <;> exact ⟨rfl, rfl⟩
  | parseHdr => cases h; split <;> exact ⟨rfl, rfl⟩
  | buildNonce => cases h; split <;> exact ⟨rfl, rfl⟩
  | decryptFrame => exact absurd rfl hframe
  | regKey => exact absurd rfl hreg
  | addGkey rev => exact absurd rfl (hadd rev)
  | lookupLabel =>
    cases h
    split
    · exact ⟨rfl, rfl⟩
    · split <;> exact ⟨rfl, rfl⟩
  | sessionReset => exact absurd rfl hreset

/-- Every command but SESSION_RESET keeps the stored records. -/
theorem exec_keepsRecords (i : Instr) (s t : State) (h : exec i s = .next t) (hreset : i ≠ .sessionReset) :
    KeepsRecords s t := by
  cases i with
  | decryptFrame => exact (execDecryptFrame_slotsKept s t h).keepsRecords (execDecryptFrame_globalKeys s t h)
  | regKey =>
    obtain ⟨e, h'⟩ | ⟨-, h'⟩ := execRegKey_cases s
    · cases h'.symm.trans h; exact .of_eq rfl rfl
    · cases h'.symm.trans h; exact { KeepsRecords.appendKey s s.netid (s.newRecord s.key) with }
  | addGkey rev =>
    obtain ⟨e, h'⟩ | ⟨-, -, h'⟩ := execAddGkey_cases rev s
    · cases h'.symm.trans h; exact .of_eq rfl rfl
    · cases h'.symm.trans h
      exact { KeepsRecords.of_eq (t := s) rfl rfl with globalKeys := List.prefix_append _ _ }
  | _ =>
    obtain ⟨hg, hf⟩ := exec_sameStore _ s t h nofun nofun nofun hreset
    exact .of_eq hg hf

/-- The completion event keeps the stored records unless the pending word is SESSION_RESET. -/
theorem runCommand_keepsRecords (s t : State) (h : runCommand s = .next t)
    (hword : ∀ w, s.seq = .busy w → isSessionReset w = false) : KeepsRecords s t := by
  obtain ⟨-, e⟩ | ⟨w, i, hw, hd, e⟩ | ⟨w, err, -, -, e⟩ := runCommand_cases s
  all_goals rw [e] at h
  · cases h; exact .of_eq rfl rfl
  · refine exec_keepsRecords i s t h fun hi => ?_
    subst hi
    have hno := hword w hw
    rw [isSessionReset, hd] at hno
    cases hno
  · cases h; exact .of_eq rfl rfl

/-- Settles O45: an access by what it leaves of the results, a completion command by command. -/
theorem keyRecordsAreNeverModified : Obligations.KeyRecordsAreNeverModified := by
  intro s t ht hword hevent
  have hkeeps : KeepsRecords s t := by
    obtain ⟨rest, -, ⟨-, -, e⟩ | ⟨-, -, e⟩ | ⟨-, width, offset, -, e⟩ | ⟨-, width, offset, data, -, e⟩ | ⟨hi, -⟩
      | ⟨-, hi, -⟩ | ⟨-, hi, -⟩⟩ := step_cases s
    · rw [e] at ht; cases ht; exact .of_eq rfl rfl
    · rw [e] at ht; exact { runCommand_keepsRecords (s.taking rest) t ht hword with }
    · rw [e] at ht; cases ht
      exact { ((s.taking rest).serveRead_sameResults width offset.toNat).keepsRecords with }
    · rw [e] at ht; cases ht
      exact { ((s.taking rest).serveWrite_sameResults width offset.toNat data).keepsRecords with }
    · exact absurd rfl (hevent _ _ hi).1
    · exact absurd rfl (hevent _ _ hi).2
    · exact absurd rfl (hevent _ _ hi).2
  exact ⟨hkeeps.globalKeys, hkeeps.flows⟩

end Sys2Proof.Machine
end

section
/-! SUPPORT. The host port at its borders: the platform addresses and the accesses that reach it (20_memory.md rules R200, R212,
R213 and R215), reads while BUSY (70_reset_and_hazards.md rule R1112), and the completion that a step hands to `exec` (rule
R1110). -/

namespace Sys2Proof.Machine

/-! ### Completions (20_memory.md rules R221 and R225) -/

/-- Settles O5: either schedule lets the command complete, and the pending word decodes. -/
theorem stepRunsTheDecodedCommand : Obligations.StepRunsTheDecodedCommand := by
  intro s w i hr hs hd _
  have hrun (rest : List HostEvent) : runCommand (s.taking rest) = exec i (s.taking rest) :=
    runCommand_legal (s.taking rest) w i hs hd
  refine ⟨fun rest hi => ?_, fun hi => ?_⟩
  · exact (step_complete s rest hr hi).trans (hrun rest)
  · rw [step_nil s hi, if_neg (Bool.eq_false_iff.mp hr)]
    exact hrun []

/-! ### Which accesses reach the block (20_memory.md rules R200, R212, R213 and R215) -/

/-- Settles O23: the base is added by the platform and taken off again by the port. -/
theorem windowLiesAtItsBase : Obligations.WindowLiesAtItsBase := by
  refine ⟨fun offset => ?_, fun a ha => ?_, Nat.mul_mod_right 4096 Config.zsecPage⟩
  · have hlt : offset.toNat < 0x1000 := offset.isLt
    rw [windowOffset, if_pos (by omega), Nat.add_sub_cancel_left, BitVec.ofNat_toNat, BitVec.setWidth_eq]
  · rw [windowOffset, if_neg (by omega)]

/-- Rule R212 as the port decides it. -/
theorem busAllows_iff (width : Width) (a : Nat) :
    busAllows width a = true ↔ if a < 0x100 then width = .word ∧ a % 4 = 0 else a % widthBytes width = 0 := by
  unfold busAllows
  split <;> simp

/-- A write is answered with an error exactly when it is not allowed, and with data 0 always. -/
theorem State.serveWrite_resp (s : State) (width : Width) (a : Nat) (data : Word) :
    (s.serveWrite width a data).resp = some { error := !busAllows width a, data := 0 } := by
  cases h : busAllows width a
  · rw [s.serveWrite_error width a data h]; rfl
  · rw [State.serveWrite, if_pos h]; rfl

/-- Settles O13: the port decides by rule R212, before it looks at anything else. -/
theorem busErrorsAreExactlyTheIllFormedAccesses : Obligations.BusErrorsAreExactlyTheIllFormedAccesses := by
  refine ⟨fun width offset => ?_, fun s rest width offset data e hr hi he => ?_⟩
  · rw [← busAllows_eq]
    exact busAllows_iff width offset.toNat
  · rw [← busAllows_eq]
    obtain rfl | rfl := he
    · rw [step_read s width offset rest hr hi]
      refine ⟨fun hw => by rw [State.serveRead_error _ _ _ hw]; rfl,
        fun hw => ⟨_, (s.taking rest).readData width offset.toNat, rfl, ?_⟩⟩
      rw [State.serveRead_resp, hw]
      rfl
    · rw [step_write s width offset data rest hr hi]
      refine ⟨fun hw => by rw [State.serveWrite_error _ _ _ _ hw]; rfl, fun hw => ⟨_, 0, rfl, ?_⟩⟩
      rw [State.serveWrite_resp, hw]
      rfl

/-- Settles O14: a read is passed over in reset, and a served one changes only the model's own fields. -/
theorem readsHaveNoSideEffects : Obligations.ReadsHaveNoSideEffects := by
  intro s t width offset rest hi ht
  rw [step_cons s _ rest hi] at ht
  cases ht
  split
  · rfl
  · exact (s.taking rest).serveRead_eq width offset.toNat

/-! ### Reads while BUSY (70_reset_and_hazards.md rule R1112) -/

/-- The data of a read does not depend on the queue. -/
@[simp] theorem State.taking_readData (s : State) (rest : List HostEvent) (width : Width) (a : Nat) :
    (s.taking rest).readData width a = s.readData width a := rfl

/-- A read served while BUSY: the response, one draw counted, and nothing else. -/
theorem step_read_busy (s : State) (width : Width) (offset : BitVec 12) (rest : List HostEvent) (hr : s.inReset = false)
    (hb : s.busy = true) (hw : accessWellFormed width offset = true) (hi : s.inputs = .read width offset :: rest) :
    step s = .next { s with
      inputs := rest
      resp := some { error := false, data := s.readData width offset.toNat }
      draws := s.draws + 1 } := by
  rw [step_read s width offset rest hr hi, State.serveRead_allowed _ _ _ ((busAllows_eq width offset).trans hw),
    State.taking_readData, State.countDraw, State.taking_busy, if_pos hb]
  rfl

/-- The data of a register read, in either phase. -/
theorem State.readData_eq_hostRegister (s : State) (width : Width) (a : Nat) (ha : a < 0x100) :
    s.readData width a = s.hostRegister a := if_pos ha

/-- The data of a window read, in either phase: each byte in its lane, nothing above them (20_memory.md rule R210). -/
theorem State.readData_lanes (s : State) (width : Width) (a : Nat) (ha : 0x100 ≤ a) :
    (∀ k, k < widthBytes width → (s.readData width a).extractLsb' (8 * k) 8 = s.hostByte a k)
    ∧ (s.readData width a).toNat < 256 ^ widthBytes width := by
  obtain ⟨hlane, hbound⟩ := fromLE_word ((List.range (widthBytes width)).map fun k => s.hostByte a k)
    (by simpa using widthBytes_le width)
  rw [List.length_map, List.length_range] at hlane hbound
  rw [State.readData, if_neg (Nat.not_lt.mpr ha)]
  refine ⟨fun k hk => (hlane k hk).trans ?_, hbound⟩
  simp [List.getD, hk]

/-- The registers a command may write. -/
theorem isResultRegister_iff (a : Nat) :
    isResultRegister a = true ↔ a ∈ [0x040, 0x044, 0x048, 0x04C, 0x050, 0x054, 0x058, 0x064] := by
  unfold isResultRegister
  split <;> simp_all

/-- A result register read while BUSY is the draw. -/
theorem State.hostRegister_draw (s : State) (a : Nat) (hb : s.busy = true) (h : isResultRegister a = true) :
    s.hostRegister a = Config.busyDraw s.draws := by
  rw [State.hostRegister, hb, h, Bool.true_and, if_pos rfl]

/-- Any other register reads as its word, in either phase. -/
theorem State.hostRegister_stored (s : State) (a : Nat) (h : isResultRegister a = false) :
    s.hostRegister a = s.registerWord a := by
  rw [State.hostRegister, h, Bool.and_false, if_neg Bool.false_ne_true]

/-- A byte lane read while BUSY: a draw on NONCE, RES and OUT. -/
theorem State.hostByte_busy (s : State) (a k : Nat) (hb : s.busy = true) :
    s.hostByte a k =
      if (0x110 ≤ a + k ∧ a + k < 0x11D) ∨ (0x130 ≤ a + k ∧ a + k < 0x140) ∨ (0x800 ≤ a + k ∧ a + k < 0xA00)
      then (Config.busyDraw s.draws).extractLsb' (8 * k) 8
      else s.windowByte (a + k) := by
  simp only [State.hostByte, hb, Bool.true_and, isResultByte_iff]

/-- Any other byte lane reads as its byte, in either phase. -/
theorem State.hostByte_stored (s : State) (a k : Nat) (h : isResultByte (a + k) = false) :
    s.hostByte a k = s.windowByte (a + k) := by
  rw [State.hostByte, h, Bool.and_false, if_neg Bool.false_ne_true]

/-- STATUS while BUSY, as a sum of its fields (10_state.md rule R103). -/
theorem State.statusWord_busy (s : State) (hb : s.busy = true) :
    s.statusWord = BitVec.ofNat 32 (1 + 2 * s.done.toNat + 4 * (decide (s.errCode ≠ .ok)).toNat + 8 * s.werr.toNat
      + 256 * s.errCode.code.toNat) := by
  rw [State.statusWord, State.err, hb]
  cases s.done <;> cases s.werr <;> cases s.errCode <;> rfl

/-- STATUS is the one register that shows the phase. -/
theorem State.registerWord_seq (s : State) (q : Sequencer) (a : Nat) (ha : a ≠ 0x008) :
    ({ s with seq := q } : State).registerWord a = s.registerWord a := by
  unfold State.registerWord
  split <;> first | rfl | exact absurd rfl ha

/-- The offsets whose reads do not depend on the phase: the registers that only the host writes or that are constant (and
the reserved one among them), KEY, BLK and BUF. -/
def PhaseFreeOffset (a : Nat) : Prop :=
  (a < 0x040 ∧ a ≠ 0x008) ∨ a = 0x05C ∨ a = 0x060 ∨ (0x100 ≤ a ∧ a < 0x110) ∨ (0x120 ≤ a ∧ a < 0x130)
    ∨ (0x400 ≤ a ∧ a < 0x600)

/-- No byte lane of an aligned access that begins in KEY, BLK or BUF falls on a result. -/
theorem PhaseFreeOffset.lanes {width : Width} {a k : Nat} (h : PhaseFreeOffset a) (ha : 0x100 ≤ a)
    (hw : busAllows width a = true) (hk : k < widthBytes width) : isResultByte (a + k) = false := by
  unfold PhaseFreeOffset at h
  rw [← Bool.not_eq_true, isResultByte_iff]
  have halign := busAllows_window width a ha hw
  cases width <;> simp only [widthBytes] at hk halign <;> omega

/-- The data of an allowed read of such an offset, whatever the phase. -/
theorem PhaseFreeOffset.readData_seq {width : Width} {a : Nat} (h : PhaseFreeOffset a) (hw : busAllows width a = true)
    (s : State) (q : Sequencer) : ({ s with seq := q } : State).readData width a = s.readData width a := by
  by_cases ha : a < 0x100
  · have hne : a ≠ 0x008 := by unfold PhaseFreeOffset at h; omega
    have hstored : isResultRegister a = false := by
      rw [← Bool.not_eq_true, isResultRegister_iff]
      unfold PhaseFreeOffset at h
      simp only [List.mem_cons, List.not_mem_nil, or_false]
      omega
    rw [State.readData_eq_hostRegister _ _ _ ha, State.readData_eq_hostRegister _ _ _ ha,
      State.hostRegister_stored _ _ hstored, State.hostRegister_stored _ _ hstored, s.registerWord_seq q a hne]
  · have hbyte (k : Nat) (hk : k ∈ List.range (widthBytes width)) :
        ({ s with seq := q } : State).hostByte a k = s.hostByte a k := by
      have hstored := h.lanes (Nat.not_lt.mp ha) hw (List.mem_range.mp hk)
      rw [State.hostByte_stored _ _ _ hstored, State.hostByte_stored _ _ _ hstored]
      rfl
    rw [State.readData, State.readData, if_neg ha, if_neg ha, List.map_congr_left hbyte]

/-- Settles O21: a served read, and then its data by what lies at the offset. -/
theorem readsWhileBusyOfResultsAreDraws : Obligations.ReadsWhileBusyOfResultsAreDraws := by
  intro s t width offset rest hr hb hw hi ht
  have hbus : busAllows width offset.toNat = true := (busAllows_eq width offset).trans hw
  rw [step_read_busy s width offset rest hr hb hw hi] at ht
  cases ht
  refine ⟨rfl, fun hmem => ?result, fun ha => ?window, fun hstatus => ?status, fun hfree => ?other⟩
  case result =>
    have ha : offset.toNat < 0x100 := by
      simp only [List.mem_cons, List.not_mem_nil, or_false] at hmem
      omega
    rw [s.readData_eq_hostRegister width _ ha, s.hostRegister_draw _ hb ((isResultRegister_iff _).mpr hmem)]
  case window =>
    obtain ⟨hlane, hbound⟩ := s.readData_lanes width offset.toNat ha
    exact ⟨_, rfl, hbound, fun k hk => (hlane k hk).trans (s.hostByte_busy offset.toNat k hb)⟩
  case status =>
    subst hstatus
    rw [← s.statusWord_busy hb, s.readData_eq_hostRegister width _ (by decide), s.hostRegister_stored _ rfl]
    rfl
  case other =>
    have hstep := step_read_idle { s with seq := .idle } width offset rest hr rfl hw hi
    rw [State.taking_readData, PhaseFreeOffset.readData_seq hfree hbus] at hstep
    exact hstep

end Sys2Proof.Machine
end

section
/-! SUPPORT. The decoder and the encoder (30_encoding.md rules R300 to R311): which words decode to a command, and what becomes
of the words that decode to none. -/

namespace Sys2Proof.Laws

open Sys2Proof.Machine

/-! ### Words by their fields (rule R300) -/

/-- The five fields of a word hold what the encoding of the command puts there (rules R300 and R310). -/
structure Spells (w : Word) (i : Instr) : Prop where
  op : fieldOp w = opcode i
  imm8 : fieldImm8 w = immediate i
  micsel : fieldMicsel w = micSelector i
  rev : fieldRev w = reversal i
  reserved : fieldReserved w = 0

/-- Every command: it is well formed, and its word holds its fields. -/
theorem encode_fields (i : Instr) : EncodeFields.Statement i := by
  cases i with
  | nop => exact EncodeFields.nop
  | aesEnc => exact EncodeFields.aesEnc
  | mmoHash => exact EncodeFields.mmoHash
  | keyedHash imm8 => exact EncodeFields.keyedHash imm8
  | ccmDec mic => exact EncodeFields.ccmDec mic
  | ccmEnc mic => exact EncodeFields.ccmEnc mic
  | parseHdr => exact EncodeFields.parseHdr
  | buildNonce => exact EncodeFields.buildNonce
  | decryptFrame => exact EncodeFields.decryptFrame
  | regKey => exact EncodeFields.regKey
  | addGkey rev => exact EncodeFields.addGkey rev
  | lookupLabel => exact EncodeFields.lookupLabel
  | sessionReset => exact EncodeFields.sessionReset

theorem wellFormed_eq_true (i : Instr) : i.wellFormed = true := by
  obtain ⟨hwf, -⟩ := encode_fields i
  exact hwf

theorem encode_spells (i : Instr) : Spells (encode i) i := by
  obtain ⟨-, hop, himm8, hmicsel, hrev, hreserved⟩ := encode_fields i
  exact ⟨hop, himm8, hmicsel, hrev, hreserved⟩

/-- The fields cover the word: no bit lies outside them. -/
theorem eq_of_fields_eq {v w : Word} (hop : fieldOp v = fieldOp w) (himm8 : fieldImm8 v = fieldImm8 w)
    (hmicsel : fieldMicsel v = fieldMicsel w) (hrev : fieldRev v = fieldRev w)
    (hreserved : fieldReserved v = fieldReserved w) : v = w := by
  apply BitVec.eq_of_toNat_eq
  have hv := v.isLt
  have hw := w.isLt
  simp only [fieldOp, fieldImm8, fieldMicsel, fieldRev, fieldReserved, ← BitVec.toNat_inj, BitVec.extractLsb'_toNat,
    Nat.shiftRight_eq_div_pow] at hop himm8 hmicsel hrev hreserved
  omega

/-- One word spells a command. -/
theorem Spells.eq_encode {w : Word} {i : Instr} (h : Spells w i) : w = encode i :=
  have he := encode_spells i
  eq_of_fields_eq (h.op.trans he.op.symm) (h.imm8.trans he.imm8.symm) (h.micsel.trans he.micsel.symm)
    (h.rev.trans he.rev.symm) (h.reserved.trans he.reserved.symm)

/-! ### Operands (rules R301 and R302) -/

theorem micLenOfBits_micLenBits (mic : MicLen) : micLenOfBits (micLenBits mic) = mic := by cases mic <;> rfl

theorem micLenBits_micLenOfBits : ∀ b : BitVec 2, micLenBits (micLenOfBits b) = b := by decide

theorem ofBool_beq_one : ∀ b : BitVec 1, BitVec.ofBool (b == 1) = b := by decide

theorem ofBool_eq_one_beq (rev : Bool) : (BitVec.ofBool rev == 1) = rev := by cases rev <;> rfl

/-! ### The field checks (rule R311 (c)) -/

section
variable {w : Word} {r : Except DecodeError Instr} {i j : Instr}

theorem needNoImm8_eq_ok : needNoImm8 w r = .ok i ↔ fieldImm8 w = 0 ∧ r = .ok i := by
  unfold needNoImm8
  split <;> simp_all

theorem needNoMicsel_eq_ok : needNoMicsel w r = .ok i ↔ fieldMicsel w = 0 ∧ r = .ok i := by
  unfold needNoMicsel
  split <;> simp_all

theorem needNoRev_eq_ok : needNoRev w r = .ok i ↔ fieldRev w = 0 ∧ r = .ok i := by
  unfold needNoRev
  split <;> simp_all

theorem plainCommand_eq_ok :
    plainCommand w j = .ok i ↔ fieldImm8 w = 0 ∧ fieldMicsel w = 0 ∧ fieldRev w = 0 ∧ j = i := by
  simp only [plainCommand, needNoImm8_eq_ok, needNoMicsel_eq_ok, needNoRev_eq_ok, Except.ok.injEq]

/-- A row of the opcode map without operand fields. -/
theorem Spells.of_plainCommand (hreserved : fieldReserved w = 0) (hop : (fieldOp w).toNat = (opcode j).toNat)
    (hplain : immediate j = 0 ∧ micSelector j = 0 ∧ reversal j = 0) (h : plainCommand w j = .ok i) : Spells w i := by
  obtain ⟨himm8, hmicsel, hrev, rfl⟩ := plainCommand_eq_ok.mp h
  obtain ⟨himm8', hmicsel', hrev'⟩ := hplain
  exact ⟨BitVec.eq_of_toNat_eq hop, himm8.trans himm8'.symm, hmicsel.trans hmicsel'.symm, hrev.trans hrev'.symm,
    hreserved⟩

end

/-! ### Words that decode -/

/-- What decodes is what the word spells. The rows with operand fields are 0x03 (KEYED_HASH), 0x04 and 0x05 (CCM_DEC and
CCM_ENC) and 0x0A (ADD_GKEY). -/
theorem spells_of_decode {w : Word} {i : Instr} (h : decode w = .ok i) : Spells w i := by
  unfold decode at h
  split at h
  case isFalse => cases h
  case isTrue hreserved =>
    unfold decodeOpcode at h
    split at h
    case h_4 hop =>
      obtain ⟨hmicsel, hrev, rfl⟩ := by simpa only [needNoMicsel_eq_ok, needNoRev_eq_ok, Except.ok.injEq] using h
      exact ⟨BitVec.eq_of_toNat_eq hop, rfl, hmicsel, hrev, hreserved⟩
    case h_5 hop | h_6 hop =>
      obtain ⟨himm8, hrev, rfl⟩ := by simpa only [needNoImm8_eq_ok, needNoRev_eq_ok, Except.ok.injEq] using h
      exact ⟨BitVec.eq_of_toNat_eq hop, himm8, (micLenBits_micLenOfBits _).symm, hrev, hreserved⟩
    case h_11 hop =>
      obtain ⟨himm8, hmicsel, rfl⟩ := by simpa only [needNoImm8_eq_ok, needNoMicsel_eq_ok, Except.ok.injEq] using h
      exact ⟨BitVec.eq_of_toNat_eq hop, himm8, hmicsel, (ofBool_beq_one _).symm, hreserved⟩
    case h_14 => cases h
    all_goals exact Spells.of_plainCommand hreserved ‹_› ⟨rfl, rfl, rfl⟩ h

/-- A word that spells a command passes the checks of the command's row. -/
theorem Spells.decode_eq {w : Word} {i : Instr} (h : Spells w i) : decode w = .ok i := by
  obtain ⟨hop, himm8, hmicsel, hrev, hreserved⟩ := h
  rw [decode, if_pos hreserved, decodeOpcode, hop]
  cases i with
  | keyedHash imm8 =>
    exact needNoMicsel_eq_ok.mpr ⟨hmicsel, needNoRev_eq_ok.mpr ⟨hrev, by rw [himm8, immediate]⟩⟩
  | ccmDec mic | ccmEnc mic =>
    exact needNoImm8_eq_ok.mpr ⟨himm8, needNoRev_eq_ok.mpr ⟨hrev, by rw [hmicsel, micSelector, micLenOfBits_micLenBits]⟩⟩
  | addGkey rev =>
    exact needNoImm8_eq_ok.mpr ⟨himm8, needNoMicsel_eq_ok.mpr ⟨hmicsel, by rw [hrev, reversal, ofBool_eq_one_beq]⟩⟩
  | _ => exact plainCommand_eq_ok.mpr ⟨himm8, hmicsel, hrev, rfl⟩

/-- A word decodes when its opcode is assigned, its reserved bits are 0, and so is every field its opcode does not use. -/
theorem exists_decode_eq_ok_iff (w : Word) : (∃ i, decode w = .ok i) ↔
    (fieldOp w).toNat < 0x0D ∧ fieldReserved w = 0
      ∧ ((fieldOp w).toNat ≠ 0x03 → fieldImm8 w = 0)
      ∧ ((fieldOp w).toNat ≠ 0x04 ∧ (fieldOp w).toNat ≠ 0x05 → fieldMicsel w = 0)
      ∧ ((fieldOp w).toNat ≠ 0x0A → fieldRev w = 0) := by
  unfold decode
  split
  case isFalse h => simp only [h, false_and, and_false, reduceCtorEq, exists_false]
  case isTrue h =>
    simp only [h, true_and]
    unfold decodeOpcode
    split
    case h_14 =>
      have hop : ¬ (fieldOp w).toNat < 0x0D := by simp only [imp_false] at *; omega
      simp only [hop, false_and, reduceCtorEq, exists_false]
    all_goals simp [*, plainCommand_eq_ok, needNoImm8_eq_ok, needNoMicsel_eq_ok, needNoRev_eq_ok]

/-- The decoder is total: a word that is no command gets a reason. -/
theorem exists_decode_eq_error_iff (w : Word) : (∃ e, decode w = .error e) ↔ ¬ ∃ i, decode w = .ok i := by
  cases decode w <;> simp

theorem fieldRev_ne_zero_iff (w : Word) : fieldRev w ≠ 0 ↔ w.getLsbD 18 = true := by
  have hbit : (fieldRev w).getLsbD 0 = w.getLsbD 18 := by simp [fieldRev]
  rw [← hbit]
  generalize fieldRev w = b
  revert b
  decide

/-! ### The obligations -/

/-- Settles O1: the encoder spells the command, and the decoder reads what is spelt. -/
theorem decodeInvertsEncode : Obligations.DecodeInvertsEncode := fun i _ =>
  (encode_spells i).decode_eq

/-- Settles O2: only one word spells a command. -/
theorem encodeInvertsDecode : Obligations.EncodeInvertsDecode := fun _ i h =>
  ⟨wellFormed_eq_true i, (spells_of_decode h).eq_encode.symm⟩

/-- Settles O3: the words that decode are known by their fields; the others start like any word and end in IllegalCommand. -/
theorem illegalWordsAreExactlyTheListed : Obligations.IllegalWordsAreExactlyTheListed := by
  refine ⟨fun w => ?listed, fun s w rest _ hr hs hi => ?start, fun s w rest hillegal hr hs hi => ?completion⟩
  case listed =>
    rw [exists_decode_eq_error_iff, exists_decode_eq_ok_iff, ← fieldRev_ne_zero_iff]
    simp only [not_and_or, Classical.not_imp, Nat.not_lt, and_assoc]
    rfl
  case start => exact ⟨_, commandWriteStartsTheCommand s w rest hr hs hi, rfl, rfl⟩
  case completion =>
    obtain ⟨e, he⟩ := hillegal
    rw [step_complete s rest hr hi, runCommand_illegal (s.taking rest) w e hs he]
    rfl

/-- Settles O4: each word is the encoding of its command. -/
theorem sampleWordsDecode : Obligations.SampleWordsDecode :=
  have hdecode (i : Instr) : decode (encode i) = .ok i := decodeInvertsEncode i (wellFormed_eq_true i)
  ⟨hdecode .nop, hdecode .aesEnc, hdecode (.keyedHash 0x02), hdecode (.ccmDec .m8), hdecode (.ccmEnc .m4),
    hdecode .decryptFrame, hdecode (.addGkey true), hdecode .sessionReset⟩

end Sys2Proof.Laws
end

section
/-! SUPPORT. Two runs on states that differ in the level bits of the control byte in BUF (43_header_nonce.md rule R702,
45_frame_decrypt.md rule R908): what the parse and the frame read of them is the same, and so is what they write. -/

namespace Sys2Proof.Machine

/-! ### The two inputs -/

/-- The level patch reads bits 7:3 of the wire byte only (rule R702). -/
theorem patchLevel_congr {wire wire' : Byte} (h : wire'.extractLsb' 3 5 = wire.extractLsb' 3 5) (level : BitVec 3) :
    patchLevel wire' level = patchLevel wire level := by
  have hmask (b : Byte) : b &&& 0xF8 = b.extractLsb' 3 5 ++ 0#3 := by
    revert b
    decide
  rw [patchLevel, patchLevel, hmask, hmask, h]

/-- `s'` is `s` with another control byte in BUF, of which only the bits differ that the level patch replaces. -/
structure DiffersInLevel (s s' : State) : Prop where
  fields : s' = { s with mem := s'.mem }
  hoff_lt : s.hoffN < Config.bufLen
  memByte : ∀ a, a ≠ bufBase + s.hoffN → s'.memByte a = s.memByte a
  kept : (s'.bufByte s.hoffN).extractLsb' 3 5 = (s.bufByte s.hoffN).extractLsb' 3 5

section
variable {s s' : State} (h : DiffersInLevel s s')
include h

theorem DiffersInLevel.caplenN : s'.caplenN = s.caplenN := (congrArg State.caplenN h.fields :)

theorem DiffersInLevel.replenN : s'.replenN = s.replenN := (congrArg State.replenN h.fields :)

theorem DiffersInLevel.hoffN : s'.hoffN = s.hoffN := (congrArg State.hoffN h.fields :)

theorem DiffersInLevel.defLevel : s'.defLevel = s.defLevel := (congrArg State.defLevel h.fields :)

theorem DiffersInLevel.patchedCtrl : s'.patchedCtrl = s.patchedCtrl := by
  rw [State.patchedCtrl, h.hoffN, h.defLevel, patchLevel_congr h.kept, State.patchedCtrl]

theorem DiffersInLevel.bufByte (i : Nat) (hi : i ≠ s.hoffN) : s'.bufByte i = s.bufByte i :=
  h.memByte (bufBase + i) (by omega)

/-- The control byte lies in BUF, so not in OUT. -/
theorem DiffersInLevel.outByte (j : Nat) : s'.outByte j = s.outByte j := by
  have hoff : s.hoffN < 512 := h.hoff_lt
  exact h.memByte (outBase + j) (by simp only [outBase, bufBase]; omega)

/-- A substring that leaves the control byte out. -/
theorem DiffersInLevel.bufSlice (i n : Nat) (hi : i + n ≤ s.hoffN ∨ s.hoffN < i) : s'.bufSlice i n = s.bufSlice i n :=
  State.bufSlice_congr s s' i i n fun k hk => h.bufByte (i + k) (by omega)

/-- The two parses agree in everything but the wire byte. -/
theorem DiffersInLevel.parse_eq :
    parse s' = (parse s).map fun hd => { hd with wire := s'.bufByte s.hoffN } := by
  have hfc := h.bufSlice (s.hoffN + 1) 4 (by omega)
  have hext := h.bufSlice (s.hoffN + 5) 8 (by omega)
  have hksn := h.bufByte (s.hoffN + 5 + 8 * (ctrlExtn s.patchedCtrl).toNat) (by omega)
  have hctrl := h.patchedCtrl
  unfold State.patchedCtrl at hctrl hksn
  rw [h.hoffN] at hctrl
  simp only [parse, h.caplenN, h.replenN, h.hoffN, hctrl, hfc, hext, hksn]
  repeat' split
  all_goals rfl

/-! ### The strings of a frame -/

variable {hd : Header}

theorem DiffersInLevel.frameAad : s'.frameAad hd = s.frameAad hd := by
  rw [State.frameAad, h.hoffN, h.bufSlice 0 _ (by omega), h.bufSlice (s.hoffN + 1) _ (by omega), State.frameAad]

theorem DiffersInLevel.framePayload (hoff : s.hoffN < hd.payoff) : s'.framePayload hd = s.framePayload hd :=
  h.bufSlice _ _ (.inr hoff)

theorem DiffersInLevel.frameMic (hoff : s.hoffN < hd.payoff) : s'.frameMic hd = s.frameMic hd :=
  h.bufSlice _ _ (by omega)

theorem DiffersInLevel.transformAad (hoff : s.hoffN < hd.payoff) : s'.transformAad hd = s.transformAad hd := by
  rw [State.transformAad, h.frameAad, h.framePayload hoff, State.transformAad]

theorem DiffersInLevel.tryKey (hoff : s.hoffN < hd.payoff) (n : Nonce) : s'.tryKey hd n = s.tryKey hd n := by
  funext c
  rw [State.tryKey, h.transformAad hoff, State.transformInput, h.framePayload hoff, h.frameMic hoff]
  rfl

end

/-! ### The two outcomes -/

/-- The same outcome in everything but HDR_CTRL.WIRE and the memory outside OUT. -/
structure DiffersInWire (t t' : State) : Prop where
  fields : t' = { t with mem := t'.mem, hdrCtrl := t'.hdrCtrl }
  ctrl : t'.hdrCtrl.extractLsb' 0 8 = t.hdrCtrl.extractLsb' 0 8
  outByte : ∀ j, t'.outByte j = t.outByte j

section
variable {t t' : State} (h : DiffersInWire t t')
include h

theorem DiffersInWire.finish (e : ErrCode) : DiffersInWire (t.finish e) (t'.finish e) :=
  ⟨congrArg (·.finish e) h.fields, h.ctrl, h.outByte⟩

theorem DiffersInWire.setNonce (n : Nonce) : DiffersInWire (t.setNonce n) (t'.setNonce n) :=
  ⟨congrArg (·.setNonce n) h.fields, h.ctrl, h.outByte⟩

theorem DiffersInWire.setRes (b : Block) : DiffersInWire (t.setRes b) (t'.setRes b) :=
  ⟨congrArg (·.setRes b) h.fields, h.ctrl, h.outByte⟩

theorem DiffersInWire.setResult (w : Word) : DiffersInWire (t.setResult w) (t'.setResult w) :=
  ⟨congrArg (·.setResult w) h.fields, h.ctrl, h.outByte⟩

theorem DiffersInWire.setFlows (f : FlowTable) : DiffersInWire (t.setFlows f) (t'.setFlows f) :=
  ⟨congrArg (·.setFlows f) h.fields, h.ctrl, h.outByte⟩

theorem DiffersInWire.setOut (bytes : List Byte) : DiffersInWire (t.setOut bytes) (t'.setOut bytes) :=
  ⟨congrArg (·.setOut bytes) h.fields, h.ctrl, fun j => by simp only [State.outByte_setOut, h.outByte]⟩

/-- The wire byte stands in HDR_CTRL.WIRE and in no other register. -/
theorem DiffersInWire.setHeader (hd : Header) (wire : Byte) :
    DiffersInWire (t.setHeader hd) (t'.setHeader { hd with wire := wire }) where
  fields := congrArg (·.setHeader { hd with wire := wire }) h.fields
  ctrl := by simp only [State.setHeader_hdrCtrl, Header.ctrlWord_ctrl]
  outByte := h.outByte

theorem DiffersInWire.failFrame (e : ErrCode) (n : Nat) : DiffersInWire (t.failFrame e n) (t'.failFrame e n) :=
  (h.setResult _).finish e

variable {hd : Header} (hpayload : t'.framePayload hd = t.framePayload hd)
include hpayload

theorem DiffersInWire.commitFrame (c : Candidate) (m : List Byte) (n : Nat) :
    DiffersInWire (t.commitFrame hd c m n) (t'.commitFrame hd c m n) := by
  have hflows : t'.flows = t.flows := (congrArg State.flows h.fields :)
  have hnetid : t'.netid = t.netid := (congrArg State.netid h.fields :)
  rw [State.commitFrame, State.commitFrame, hpayload, hflows, hnetid]
  exact ((((h.setOut _).setRes _).setResult _).setFlows _).finish .ok

variable (haad : t'.transformAad hd = t.transformAad hd)
include haad

theorem DiffersInWire.tryFrame (n : Nonce) (htry : t'.tryKey hd n = t.tryKey hd n) :
    DiffersInWire (t.tryFrame hd n) (t'.tryFrame hd n) := by
  have hcandidates : t'.candidates hd.keyId t'.netid = t.candidates hd.keyId t.netid :=
    (congrArg (fun u : State => u.candidates hd.keyId u.netid) h.fields :)
  rw [State.tryFrame, State.tryFrame, haad, htry, hcandidates]
  split
  · exact h.failFrame _ _
  · split
    · exact h.commitFrame hpayload _ _ _
    · exact h.failFrame _ _

/-- The stages of a frame, when its strings and trials are the same. -/
theorem DiffersInWire.processFrame (htry : ∀ n, t'.tryKey hd n = t.tryKey hd n) :
    DiffersInWire (t.processFrame hd) (t'.processFrame hd) := by
  have hcaplen : t'.caplenN = t.caplenN := (congrArg State.caplenN h.fields :)
  have hreplen : t'.replenN = t.replenN := (congrArg State.replenN h.fields :)
  have hskips : t'.skipsAuth hd = t.skipsAuth hd := (congrArg (·.skipsAuth hd) h.fields :)
  have hsource : t'.resolveSource hd.extn hd.ext = t.resolveSource hd.extn hd.ext :=
    (congrArg (·.resolveSource hd.extn hd.ext) h.fields :)
  rw [State.processFrame, State.processFrame, hcaplen, hreplen, hskips, hsource, hpayload]
  split
  · exact h.failFrame _ _
  · split
    · exact ((h.setOut _).setResult _).finish .ok
    · cases t.resolveSource hd.extn hd.ext with
      | none => exact h.failFrame _ _
      | some src => exact (h.setNonce (buildNonce src hd.fc hd.ctrl)).tryFrame hpayload haad _ (htry _)

end

/-! ### The two commands -/

section
variable {s s' : State} (h : DiffersInLevel s s')
include h

theorem DiffersInLevel.differsInWire : DiffersInWire s s' where
  fields := by rw [h.fields]
  ctrl := by rw [h.fields]
  outByte := h.outByte

theorem DiffersInLevel.execParseHdr :
    ∃ t t', execParseHdr s = .next t ∧ execParseHdr s' = .next t' ∧ DiffersInWire t t' := by
  refine ⟨_, _, rfl, rfl, ?_⟩
  rw [h.parse_eq]
  cases parse s with
  | error e => exact h.differsInWire.finish e
  | ok hd => exact (h.differsInWire.setHeader hd _).finish .ok

theorem DiffersInLevel.execDecryptFrame :
    ∃ t t', execDecryptFrame s = .next t ∧ execDecryptFrame s' = .next t' ∧ DiffersInWire t t' := by
  refine ⟨_, _, rfl, rfl, ?_⟩
  rw [h.parse_eq]
  cases hparse : parse s with
  | error e => exact h.differsInWire.failFrame e 0
  | ok hd =>
    have hoff : s.hoffN < hd.payoff := parse_hoff_lt s hd hparse
    exact (h.differsInWire.setHeader hd _).processFrame (h.framePayload hoff) (h.transformAad hoff) (h.tryKey hoff)

end

/-- Settles O39: the parse and the frame read the same of both states, and write it to the same places. -/
theorem wireLevelBitsAreIgnored : Obligations.WireLevelBitsAreIgnored := by
  intro s s' t t' i hi hoff hfields hmem hkept ht ht'
  have h : DiffersInLevel s s' := ⟨hfields, hoff, hmem, hkept⟩
  have hend : ∃ u u', exec i s = .next u ∧ exec i s' = .next u' ∧ DiffersInWire u u' := by
    obtain rfl | rfl := hi
    · exact h.execParseHdr
    · exact h.execDecryptFrame
  obtain ⟨u, u', hu, hu', hwire⟩ := hend
  cases hu.symm.trans ht
  cases hu'.symm.trans ht'
  exact ⟨hwire.fields, hwire.ctrl, fun j _ => hwire.outByte j⟩

end Sys2Proof.Machine
end

section
/-! SUPPORT. AES-128 (40_aes128.md rules R401 to R409): the model's tables and columns compute the cipher of the formulas,
operation by operation, round key by round key and round by round. -/

namespace Sys2Proof

/-- A fixed list is the list of its elements. -/
theorem FixedList.map_get_range {α : Type} {n : Nat} [Inhabited α] (v : FixedList α n) :
    (List.range n).map v.get = v.toList := by
  apply List.ext_getElem
  · simp
  · intro i h _
    have hi : i < n := by simpa using h
    simp [v.get_eq_getElem i hi]

namespace Machine

/-! ### Field arithmetic (rule R402) -/

theorem double_eq_xtime (b : Byte) : Reference.double b = xtime b := by
  have hdouble : BitVec.ofNat 8 (2 * b.toNat) = b <<< 1 := by bv_omega
  have hbit : b.getLsbD 7 = decide (128 ≤ b.toNat) := BitVec.msb_eq_getLsbD_last b ▸ BitVec.msb_eq_decide b
  rw [Reference.double, xtime, hdouble, hbit]
  by_cases hb : b.toNat < 128
  · simp [hb, Nat.not_le_of_lt hb]
  · simp [hb, Nat.le_of_not_lt hb]

theorem mul_two_eq_xtime (b : Byte) : Reference.mul b 0x02 = xtime b := by
  simp [Reference.mul, Reference.mulFrom, double_eq_xtime]

theorem mul_three_eq_mul3 (b : Byte) : Reference.mul b 0x03 = mul3 b := by
  simp [Reference.mul, Reference.mulFrom, double_eq_xtime, mul3, BitVec.xor_comm]

/-! ### The S-box (rule R403) -/

theorem inverse_zero : Reference.inverse 0 = 0 := by decide +kernel

/-- Every byte but 0 has its inverse, checked byte by byte. -/
theorem mul_inverse : ∀ a : Byte, a ≠ 0 → Reference.mul a (Reference.inverse a) = 1 := by
  decide +kernel

/-- The table agrees with the definition of rule R403 in every bit of each of its 256 entries. -/
theorem sbox_getLsbD : ∀ (a : Byte) (i : Nat), i < 8 →
    (sbox a).getLsbD i = Reference.affineBit (Reference.inverse a) i := by
  decide +kernel

/-- The sum of weighted bits as its lowest bit and the sum of the others. -/
theorem sum_bits_succ (f : Nat → Bool) (n : Nat) : ((List.range (n + 1)).map fun i => 2 ^ i * (f i).toNat).sum
    = Nat.bit (f 0) ((List.range n).map fun i => 2 ^ i * (f (i + 1)).toNat).sum := by
  rw [List.range_succ_eq_map, List.map_cons, List.map_map, List.sum_cons, Nat.bit_val,
    ← List.sum_map_mul_left, Nat.add_comm]
  simp [Function.comp_def, Nat.pow_succ', Nat.mul_assoc]

/-- The bits of a number written as the sum of its bits. -/
theorem testBit_sum_bits (f : Nat → Bool) {n i : Nat} (h : i < n) :
    ((List.range n).map fun i => 2 ^ i * (f i).toNat).sum.testBit i = f i := by
  induction n generalizing f i with
  | zero => omega
  | succ n ih =>
    rw [sum_bits_succ]
    cases i with
    | zero => exact Nat.testBit_bit_zero _ _
    | succ i => rw [Nat.testBit_bit_succ, ih (fun i => f (i + 1)) (by omega)]

theorem substitute_eq_sbox (a : Byte) : Reference.substitute a = sbox a := by
  apply BitVec.eq_of_getLsbD_eq
  intro i hi
  rw [sbox_getLsbD a i hi, Reference.substitute, BitVec.getLsbD_ofNat, testBit_sum_bits _ hi]
  simp [hi]

/-- Settles O26: the inverse is a^254, and the table is checked against it. -/
theorem sboxIsAffineOfInverse : Obligations.SboxIsAffineOfInverse :=
  ⟨by decide, by decide, by decide, fun a =>
    ⟨Reference.inverse a, fun h => h ▸ inverse_zero, mul_inverse a, sbox_getLsbD a⟩⟩

/-! ### The cipher state as a table (rules R401 and R404 to R407) -/

/-- The bytes of a column, row after row: the form of a word of the key schedule. -/
def Column.toList (a : Column) : List Byte := [a.r0, a.r1, a.r2, a.r3]

/-- The 16 bytes of the state, column after column (rule R401). -/
def AesState.cells (s : AesState) : Reference.Cells := s.toBlock.toList

/-- Column c of a table given by its bytes. -/
def columnOf (f : Nat → Nat → Byte) (c : Nat) : Column := ⟨f 0 c, f 1 c, f 2 c, f 3 c⟩

/-- A table is the state that has its columns. -/
theorem tabulate_eq_cells {f : Nat → Nat → Byte} {s : AesState} (h0 : columnOf f 0 = s.c0) (h1 : columnOf f 1 = s.c1)
    (h2 : columnOf f 2 = s.c2) (h3 : columnOf f 3 = s.c3) : Reference.tabulate f = s.cells := by
  obtain ⟨c0, c1, c2, c3⟩ := s
  subst h0 h1 h2 h3
  rfl

theorem AesState.cells_ofBlock (b : Block) : (AesState.ofBlock b).cells = b.toList :=
  FixedList.map_get_range b

theorem AesState.ofList_cells (s : AesState) : FixedList.ofList 16 s.cells = s.toBlock :=
  FixedList.ext (FixedList.toList_ofList 16 _ s.toBlock.length_toList)

theorem subBytes_cells (s : AesState) : Reference.subBytes s.cells = (subBytes s).cells := by
  have hcolumn (c : Nat) : columnOf (fun r c => Reference.substitute (Reference.cell s.cells r c)) c
      = (columnOf (Reference.cell s.cells) c).map sbox := by
    simp only [columnOf, Column.map, substitute_eq_sbox]
  exact tabulate_eq_cells (hcolumn 0) (hcolumn 1) (hcolumn 2) (hcolumn 3)

theorem shiftRows_cells (s : AesState) : Reference.shiftRows s.cells = (shiftRows s).cells :=
  tabulate_eq_cells rfl rfl rfl rfl

/-- The four equations of rule R406. -/
theorem columnOf_mixedByte (a : Column) (c : Nat) :
    columnOf (fun r _ => Reference.mixedByte a.r0 a.r1 a.r2 a.r3 r) c = mixColumn a := by
  simp only [columnOf, Reference.mixedByte, mul_two_eq_xtime, mul_three_eq_mul3, mixColumn]

theorem mixColumns_cells (s : AesState) : Reference.mixColumns s.cells = (mixColumns s).cells :=
  tabulate_eq_cells (columnOf_mixedByte s.c0 0) (columnOf_mixedByte s.c1 1) (columnOf_mixedByte s.c2 2)
    (columnOf_mixedByte s.c3 3)

/-! ### The key schedule (rule R408) -/

/-- The words 4j to 4j + 3 are those of a round key. -/
structure HoldsRoundKey (w : List (List Byte)) (j : Nat) (key : AesState) : Prop where
  word0 : w.getD (4 * j) [] = key.c0.toList
  word1 : w.getD (4 * j + 1) [] = key.c1.toList
  word2 : w.getD (4 * j + 2) [] = key.c2.toList
  word3 : w.getD (4 * j + 3) [] = key.c3.toList

theorem HoldsRoundKey.addRoundKey_cells {w : List (List Byte)} {j : Nat} {key : AesState} (h : HoldsRoundKey w j key)
    (s : AesState) : Reference.addRoundKey w j s.cells = (addRoundKey s key).cells := by
  apply tabulate_eq_cells
  · simp only [columnOf, Nat.add_zero, h.word0]; rfl
  · simp only [columnOf, h.word1]; rfl
  · simp only [columnOf, h.word2]; rfl
  · simp only [columnOf, h.word3]; rfl

theorem keyWords_length (k : Key) (n : Nat) : (Reference.keyWords k n).length = n + 4 := by
  induction n with
  | zero => rfl
  | succ n ih => simp only [Reference.keyWords, List.length_append, ih, List.length_singleton]

/-- Later words leave the earlier ones as they are. -/
theorem keyWords_getD_of_le (k : Key) {n m i : Nat} (hnm : n ≤ m) (hi : i < n + 4) :
    (Reference.keyWords k m).getD i [] = (Reference.keyWords k n).getD i [] := by
  induction m, hnm using Nat.le_induction with
  | base => rfl
  | succ m hnm ih =>
    rw [← ih, Reference.keyWords, List.getD_append _ _ _ _ (by rw [keyWords_length]; omega)]

/-- RotWord, SubWord and Rcon on one word, as the formulas write them. -/
def scheduledWord (c : Byte) (t : List Byte) : List Byte :=
  ((t.drop 1 ++ t.take 1).map Reference.substitute).zipWith (· ^^^ ·) [c, 0, 0, 0]

theorem scheduledWord_toList (c : Byte) (t : Column) : scheduledWord c t.toList = (scheduleCore c t).toList := by
  simp [scheduledWord, Column.toList, scheduleCore, substitute_eq_sbox]

/-- Word i from the words four and one before it (rule R408). -/
def nextWord (i : Nat) (first last : List Byte) : List Byte :=
  first.zipWith (· ^^^ ·) (if i % 4 = 0 then scheduledWord (Reference.rcon (i / 4)) last else last)

/-- The first word of round key j + 1. -/
theorem nextWord_of_first (j : Nat) (a t : Column) :
    nextWord (4 * j + 4) a.toList t.toList = (a.xor (scheduleCore (Reference.rcon (j + 1)) t)).toList := by
  rw [nextWord, if_pos (by omega), show (4 * j + 4) / 4 = j + 1 by omega, scheduledWord_toList]
  rfl

/-- The other words of a round key. -/
theorem nextWord_of_later {i : Nat} (h : i % 4 ≠ 0) (a t : Column) :
    nextWord i a.toList t.toList = (a.xor t).toList := by
  rw [nextWord, if_neg h]
  rfl

/-- Every word of a schedule after the key's own four is made by the rule. -/
theorem keyWords_getD_add_four {k : Key} {n m : Nat} (h : n < m) {first last : List Byte}
    (hfirst : (Reference.keyWords k m).getD n [] = first) (hlast : (Reference.keyWords k m).getD (n + 3) [] = last) :
    (Reference.keyWords k m).getD (n + 4) [] = nextWord (n + 4) first last := by
  rw [← hfirst, ← hlast, keyWords_getD_of_le k (n := n + 1) h (by omega),
    keyWords_getD_of_le k (Nat.le_of_lt h) (by omega), keyWords_getD_of_le k (Nat.le_of_lt h) (by omega), Reference.keyWords,
    List.getD_append_right _ _ _ _ (by rw [keyWords_length]), keyWords_length, Nat.sub_self]
  rfl

/-- The round key of round j. -/
def roundKey (k : Key) : Nat → AesState
  | 0 => .ofBlock k
  | j + 1 => nextRoundKey (roundKey k j) (Reference.rcon (j + 1))

theorem keyWords_holdsRoundKey_zero (k : Key) (m : Nat) : HoldsRoundKey (Reference.keyWords k m) 0 (roundKey k 0) := by
  have hword (i : Nat) (hi : i < 4) : (Reference.keyWords k m).getD i []
      = ((List.range 4).map fun i => ((AesState.ofBlock k).cells.drop (4 * i)).take 4).getD i [] := by
    rw [keyWords_getD_of_le k (Nat.zero_le m) (by omega), Reference.keyWords, AesState.cells_ofBlock]
  exact ⟨hword 0 (by omega), hword 1 (by omega), hword 2 (by omega), hword 3 (by omega)⟩

theorem HoldsRoundKey.succ {k : Key} {m j : Nat} {key : AesState} (h : HoldsRoundKey (Reference.keyWords k m) j key)
    (hj : 4 * (j + 1) ≤ m) :
    HoldsRoundKey (Reference.keyWords k m) (j + 1) (nextRoundKey key (Reference.rcon (j + 1))) := by
  have hw0 := (keyWords_getD_add_four (by omega) h.word0 h.word3).trans (nextWord_of_first j _ _)
  have hw1 := (keyWords_getD_add_four (by omega) h.word1 hw0).trans (nextWord_of_later (by omega) _ _)
  have hw2 := (keyWords_getD_add_four (by omega) h.word2 hw1).trans (nextWord_of_later (by omega) _ _)
  have hw3 := (keyWords_getD_add_four (by omega) h.word3 hw2).trans (nextWord_of_later (by omega) _ _)
  exact ⟨hw0, hw1, hw2, hw3⟩

theorem keyWords_holdsRoundKey (k : Key) {m j : Nat} (hj : 4 * j ≤ m) :
    HoldsRoundKey (Reference.keyWords k m) j (roundKey k j) := by
  induction j with
  | zero => exact keyWords_holdsRoundKey_zero k m
  | succ j ih => exact (ih (by omega)).succ hj

/-! ### The rounds (rule R409) -/

/-- A round with MixColumns. -/
def middleRound (k : Key) (s : AesState) (j : Nat) : AesState :=
  addRoundKey (mixColumns (shiftRows (subBytes s))) (roundKey k j)

/-- The recursion over the round constants is the loop over the rounds, and the last round after it. -/
theorem aesRounds_eq_foldl (k : Key) (n j : Nat) (s : AesState) :
    aesRounds ((List.range' (j + 1) (n + 1)).map Reference.rcon) (roundKey k j) s
      = addRoundKey (shiftRows (subBytes ((List.range' (j + 1) n).foldl (middleRound k) s))) (roundKey k (j + 1 + n)) := by
  induction n generalizing j s with
  | zero => rfl
  | succ n ih =>
    have hround := ih (j + 1) (middleRound k s (j + 1))
    rw [Nat.add_right_comm (j + 1) 1 n] at hround
    exact hround

theorem rcons_eq : rcons = (List.range' 1 10).map Reference.rcon := by decide

/-- The loop of the formulas over any of the rounds up to the last (rule R409). -/
theorem foldl_middleRound_cells (k : Key) (s : AesState) (rounds : List Nat) (h : ∀ j ∈ rounds, j ≤ 10) :
    rounds.foldl (fun s j => Reference.addRoundKey (Reference.keyWords k 40) j
        (Reference.mixColumns (Reference.shiftRows (Reference.subBytes s)))) s.cells
      = (rounds.foldl (middleRound k) s).cells := by
  induction rounds generalizing s with
  | nil => rfl
  | cons j rounds ih =>
    have hkey := keyWords_holdsRoundKey k (m := 40) (j := j) (by have := h j (by simp); omega)
    rw [List.foldl_cons, subBytes_cells, shiftRows_cells, mixColumns_cells, hkey.addRoundKey_cells]
    exact ih _ fun i hi => h i (List.mem_cons_of_mem j hi)

/-- The two ciphers are one function (rules R409 and R410). -/
theorem aes_eq_reference (k : Key) (x : Block) : aes k x = Reference.aes k x := by
  have hfirst : HoldsRoundKey (Reference.keyWords k 40) 0 (.ofBlock k) := keyWords_holdsRoundKey k (by omega)
  have hlast : HoldsRoundKey (Reference.keyWords k 40) 10 (roundKey k 10) := keyWords_holdsRoundKey k (by omega)
  have hrounds := aesRounds_eq_foldl k 9 0 (addRoundKey (.ofBlock x) (.ofBlock k))
  rw [Reference.aes, ← AesState.cells_ofBlock x, hfirst.addRoundKey_cells,
    foldl_middleRound_cells k _ _ (fun j hj => by rw [List.mem_range'_1] at hj; omega), subBytes_cells, shiftRows_cells,
    hlast.addRoundKey_cells, AesState.ofList_cells, aes, rcons_eq]
  exact congrArg AesState.toBlock hrounds

/-- Settles O27: the command commits the cipher's block, and both ciphers give the same block. -/
theorem aesEncComputesTheReferenceCipher : Obligations.AesEncComputesTheReferenceCipher := by
  intro s
  rw [← aes_eq_reference]
  rfl

end Machine
end Sys2Proof
end

section
/-! SUPPORT. The Matyas-Meyer-Oseas hash and its commands (41_mmo_hash.md rules R501 to R520): the number of padded blocks,
the one bound that MMO_HASH can meet, and what both commands write. -/

namespace Sys2Proof.Machine

/-! ### The padding (rule R501) -/

theorem mmoZeros_eq_zero_of_mod {n : Nat} (h : n % 16 = 13) : mmoZeros n = 0 := by
  simp only [mmoZeros]; omega

/-- The marker, the zeros and the length field round `n` up to `ceil((n + 3)/16)` blocks. -/
theorem mmoPad_blocks (input : List Byte) : (mmoPad input).length / 16 = (input.length + 3 + 15) / 16 := by
  rw [mmoPad_length, mmoZeros]; omega

/-- Settles O28: the number of zeros is the one the model computes. -/
theorem mmoPaddingHasItsForm : Obligations.MmoPaddingHasItsForm := by
  intro input
  obtain ⟨hfills, hleast⟩ := mmoZeros_spec input.length
  refine ⟨mmoZeros input.length, ?form, hfills, hleast, mmoPad_blocks input, mmoZeros_eq_zero_of_mod, fun hmod => ?extra⟩
  case form => rw [mmoPad, beBytes_two]
  case extra => rw [mmoPad_blocks]; omega

/-! ### MMO_HASH (rules R503 and R510) -/

/-- The limit of the length field lies above BUF_LEN, so only BUF_LEN decides (rule R510). -/
theorem exceeds_bufLen_or_mmoFieldMax_iff (n : Nat) : n > Config.bufLen ∨ n > Config.mmoFieldMax ↔ 512 < n := by
  simp only [Config.bufLen, Config.mmoFieldMax]; omega

theorem exec_mmoHash_of_fits {s : State} (h : s.alenN ≤ 512) :
    exec .mmoHash s = .next (s.setRes (mmoHash (s.bufSlice 0 s.alenN))).complete := by
  have hfits := mt (exceeds_bufLen_or_mmoFieldMax_iff s.alenN).mp (Nat.not_lt.mpr h)
  exact congrArg Host.Outcome.next (if_neg hfits)

theorem exec_mmoHash_of_exceeds {s : State} (h : 512 < s.alenN) : exec .mmoHash s = .next (s.raise .frameTooLarge) :=
  congrArg Host.Outcome.next (if_pos ((exceeds_bufLen_or_mmoFieldMax_iff s.alenN).mpr h))

/-- Settles O29: each side of the bound, and the chain of rule R503 is the model's fold. -/
theorem mmoHashResult : Obligations.MmoHashResult := fun _ =>
  ⟨exec_mmoHash_of_fits, exec_mmoHash_of_exceeds⟩

/-! ### KEYED_HASH (rules R505 and R520) -/

/-- The keyed hash with its pads as constant strings of 16 bytes (rule R505). -/
theorem keyedHash_eq (key : Key) (b : Byte) :
    keyedHash key b = mmoHash (xorBytes key.toList (List.replicate 16 0x5C)
      ++ (mmoHash (xorBytes key.toList (List.replicate 16 0x36) ++ [b])).toList) := by
  rw [keyedHash, padKey_eq, padKey_eq]

/-- Settles O30: the command commits the keyed hash of its immediate. -/
theorem keyedHashResult : Obligations.KeyedHashResult := by
  intro imm8 s
  rw [← keyedHash_eq]
  rfl

end Sys2Proof.Machine
end

section
/-! SUPPORT. The CCM* transform and its commands (42_ccm_star.md rules R600 to R630): the layout of its blocks, the round
trip of the transform, and what CCM_DEC and CCM_ENC commit. -/

namespace Sys2Proof.Machine

/-! ### The blocks (rules R601, R602 and R604) -/

theorem ccmBlock_bytes (flag : Byte) (nonce : Nonce) (v : Nat) :
    (ccmBlock flag nonce v).toList = [flag] ++ nonce.toList ++ [BitVec.ofNat 8 (v / 256), BitVec.ofNat 8 v] := by
  rw [ccmBlock_toList, beBytes_two]

/-- Settles O31: both kinds of block have one form, and the flag byte is read off the table of rule R601, a column for messages
without associated data and one for messages with it. -/
theorem ccmBlocksHaveTheirLayout : Obligations.CcmBlocksHaveTheirLayout := by
  refine ⟨fun n i => ccmBlock_bytes 0x01 n i, fun _ _ _ => rfl, fun n la lm mic => ?b0⟩
  case b0 =>
    refine ⟨b0Flags (decide (la > 0)) mic, ccmBlock_bytes _ n lm, fun hnone => ?_, fun hsome => ?_⟩
    · rw [decide_eq_false (by omega)]
      cases mic <;> rfl
    · rw [decide_eq_true hsome]
      cases mic <;> rfl

/-! ### The round trip of the transform (rules R607 and R608) -/

/-- Settles O32: the same keystream is added twice, to the message and to the tag, so the message comes back and the tags
agree. -/
theorem ccmDecryptInvertsEncrypt : Obligations.CcmDecryptInvertsEncrypt := by
  intro k n a m mic
  have hmic := micBytes_le mic
  have htag : (cbcMac k n a m mic).length ≤ ((keystreamBlock k n 0).toList.take (micBytes mic)).length := by
    simp [hmic]
  have hfield : (xorBytes (cbcMac k n a m mic) ((keystreamBlock k n 0).toList.take (micBytes mic))).length
      = micBytes mic := by simp [hmic]
  have hcipher : (xorBytes m (keystream k n m.length)).length = m.length := by simp
  rw [ccmEncrypt_eq, ccmDecrypt_eq _ _ _ _ _ _ hfield, hcipher, xorBytes_cancel m _ (by simp),
    decryptTag_eq _ _ _ _ hfield, xorBytes_cancel _ _ htag, if_pos (.inr rfl)]

/-! ### Bytes of BUF and OUT -/

theorem xorBytes_getD {x y : List Byte} {j : Nat} (hx : j < x.length) (hy : j < y.length) :
    (xorBytes x y).getD j 0 = x.getD j 0 ^^^ y.getD j 0 := by
  simp [xorBytes, hx, hy]

theorem State.bufSlice_add (s : State) (i n k : Nat) : s.bufSlice i (n + k) = s.bufSlice i n ++ s.bufSlice (i + n) k := by
  simp only [State.bufSlice, List.range_add, List.map_append, List.map_map, Nat.add_assoc]
  rfl

/-- A part of BUF is known by its bytes. -/
theorem State.bufSlice_eq_of_bufByte {s : State} {i : Nat} {l : List Byte}
    (h : ∀ k, k < l.length → s.bufByte (i + k) = l.getD k 0) : s.bufSlice i l.length = l := by
  refine List.ext_getElem (s.bufSlice_length i _) fun k hk hl => ?_
  rw [← List.getD_eq_getElem _ 0, ← List.getD_eq_getElem _ 0, s.getD_bufSlice i _ k hl, h k hl]

theorem State.outByte_setOut_complete (s : State) {bytes : List Byte} {j : Nat} (h : j < bytes.length) :
    (s.setOut bytes).complete.outByte j = bytes.getD j 0 :=
  (s.outByte_setOut bytes j).trans (if_pos h)

theorem State.memByte_setOut_complete (s : State) {bytes : List Byte} {b : Nat}
    (h : ¬ (outBase ≤ b ∧ b < outBase + bytes.length)) : (s.setOut bytes).complete.memByte b = s.memByte b :=
  (s.memByte_setOut bytes b).trans (if_neg h)

/-! ### CCM_DEC (rule R620) -/

/-- What BUF holds fits under the bound on the associated data (rule R609). -/
theorem aad_fits_of_le {s : State} (h : s.alenN ≤ 512) : aadTooLong s.alenN = false :=
  aadTooLong_of_le _ (h.trans (by decide))

theorem exec_ccmDec_of_exceeds {mic : MicLen} {s : State} (h : 512 < s.alenN + s.mlenN + micBytes mic) :
    exec (.ccmDec mic) s = .next (s.raise .frameTooLarge) :=
  congrArg Host.Outcome.next (if_pos (.inl h))

section Fits

variable {mic : MicLen} {s : State} (hfit : s.alenN + s.mlenN + micBytes mic ≤ 512)
include hfit

/-- When the three regions fit, no length check of CCM_DEC fires. -/
theorem ccmDec_checks_pass :
    ¬ (s.alenN + s.mlenN + micBytes mic > Config.bufLen ∨ aadTooLong s.alenN = true) := by
  rw [aad_fits_of_le (by omega)]
  rintro (h | h)
  · exact absurd h (Nat.not_lt.mpr hfit)
  · cases h

theorem exec_ccmDec_of_decrypts {m : List Byte}
    (hm : ccmDecrypt s.key s.nonce (s.bufSlice 0 s.alenN) (s.bufSlice s.alenN (s.mlenN + micBytes mic)) mic = some m) :
    exec (.ccmDec mic) s = .next (s.setOut m).complete := by
  simp only [exec, execCcmDec, if_neg (ccmDec_checks_pass hfit), hm]

theorem exec_ccmDec_of_rejects
    (hm : ccmDecrypt s.key s.nonce (s.bufSlice 0 s.alenN) (s.bufSlice s.alenN (s.mlenN + micBytes mic)) mic = none) :
    exec (.ccmDec mic) s = .next (s.raise .authFailure) := by
  simp only [exec, execCcmDec, if_neg (ccmDec_checks_pass hfit), hm]

end Fits

/-- Decryption of a ciphertext and a MIC field that stand one after the other in BUF. -/
theorem State.ccmDecrypt_bufSlice (s : State) (key : Key) (nonce : Nonce) (a : List Byte) (i lm : Nat) (mic : MicLen) :
    let m := xorBytes (s.bufSlice i lm) (keystream key nonce lm)
    let tag := xorBytes (s.bufSlice (i + lm) (micBytes mic)) ((keystreamBlock key nonce 0).toList.take (micBytes mic))
    ccmDecrypt key nonce a (s.bufSlice i (lm + micBytes mic)) mic =
      if mic = .m0 ∨ cbcMac key nonce a m mic = tag then some m else none := by
  intro m tag
  have hfield := s.bufSlice_length (i + lm) (micBytes mic)
  rw [s.bufSlice_add, ccmDecrypt_eq _ _ _ _ _ _ hfield, decryptTag_eq _ _ _ _ hfield, s.bufSlice_length]

/-- Settles O33: the length check, then the two ends of the decryption. -/
theorem ccmDecResult : Obligations.CcmDecResult := by
  intro mic s a c u m tag
  have hdecrypt : ccmDecrypt s.key s.nonce a (s.bufSlice s.alenN (s.mlenN + micBytes mic)) mic
      = if mic = .m0 ∨ cbcMac s.key s.nonce a m mic = tag then some m else none :=
    s.ccmDecrypt_bufSlice _ _ _ _ _ _
  have hlen : m.length = s.mlen.toNat := by simp [m, c]
  refine ⟨fun hfit => ⟨fun hok => ?succeeds, fun hmic htag => ?rejects⟩, exec_ccmDec_of_exceeds⟩
  case succeeds =>
    refine ⟨_, exec_ccmDec_of_decrypts hfit (hdecrypt.trans (if_pos hok)), rfl, fun j hj => ?_, fun b hb => ?_⟩
    · exact s.outByte_setOut_complete (hlen ▸ hj)
    · exact s.memByte_setOut_complete (hlen ▸ hb)
  case rejects =>
    exact exec_ccmDec_of_rejects hfit (hdecrypt.trans (if_neg (not_or.mpr ⟨hmic, htag⟩)))

/-! ### CCM_ENC (rule R630) -/

/-- The bound on the associated data is met where the input fits, so only the input and the output decide (rule R630). -/
theorem exec_ccmEnc_of_fits {mic : MicLen} {s : State} (hin : s.alenN + s.mlenN ≤ 512)
    (hout : s.mlenN + micBytes mic ≤ 512) :
    exec (.ccmEnc mic) s = .next
      (s.setOut (ccmEncrypt s.key s.nonce (s.bufSlice 0 s.alenN) (s.bufSlice s.alenN s.mlenN) mic)).complete := by
  refine congrArg Host.Outcome.next (if_neg ?_)
  rw [aad_fits_of_le (by omega)]
  rintro (h | h | h)
  · exact absurd h (Nat.not_lt.mpr hin)
  · exact absurd h (Nat.not_lt.mpr hout)
  · cases h

theorem exec_ccmEnc_of_exceeds {mic : MicLen} {s : State}
    (h : 512 < s.alenN + s.mlenN ∨ 512 < s.mlenN + micBytes mic) :
    exec (.ccmEnc mic) s = .next (s.raise .frameTooLarge) :=
  congrArg Host.Outcome.next (if_pos (h.imp_right .inl))

/-- The first bytes of an encryption are the message under the keystream. -/
theorem ccmEncrypt_getD_cipher (key : Key) (nonce : Nonce) (a m : List Byte) (mic : MicLen) {j : Nat} (h : j < m.length) :
    (ccmEncrypt key nonce a m mic).getD j 0 = m.getD j 0 ^^^ (keystreamBlock key nonce (1 + j / 16)).get (j % 16) := by
  rw [ccmEncrypt_eq, List.getD_append _ _ _ _ (by simpa using h), xorBytes_getD h (by simpa using h),
    keystream_getD _ _ _ _ h]

/-- The last bytes of an encryption are the tag under S_0. -/
theorem ccmEncrypt_getD_tag (key : Key) (nonce : Nonce) (a m : List Byte) (mic : MicLen) {j : Nat} (h : j < micBytes mic) :
    (ccmEncrypt key nonce a m mic).getD (m.length + j) 0
      = (cbcMac key nonce a m mic).getD j 0 ^^^ (keystreamBlock key nonce 0).get j := by
  have hmic := micBytes_le mic
  have hcipher : (xorBytes m (keystream key nonce m.length)).length = m.length := by simp
  have hblock : ((keystreamBlock key nonce 0).toList.take (micBytes mic)).getD j 0 = (keystreamBlock key nonce 0).get j := by
    simp only [List.getD_eq_getElem?_getD, List.getElem?_take_of_lt h]
    rfl
  rw [ccmEncrypt_eq, List.getD_append_right _ _ _ _ (by omega), hcipher, Nat.add_sub_cancel_left,
    xorBytes_getD (by simpa using h) (by simp; omega), hblock]

/-- Settles O34: the two checks, and the two parts of the output byte by byte. -/
theorem ccmEncResult : Obligations.CcmEncResult := by
  intro mic s a m tag
  have hmessage : m.length = s.mlen.toNat := s.bufSlice_length _ _
  have hlen : (ccmEncrypt s.key s.nonce a m mic).length = s.mlen.toNat + micBytes mic := by
    rw [ccmEncrypt_length, hmessage]
  have hbyte {j : Nat} (hj : j < s.mlen.toNat + micBytes mic) := s.outByte_setOut_complete (hlen.symm ▸ hj)
  refine ⟨fun hin hout => ?fits, exec_ccmEnc_of_exceeds⟩
  case fits =>
    refine ⟨_, exec_ccmEnc_of_fits hin hout, rfl, fun j hj => ?_, fun j hj => ?_, fun b hb => ?_⟩
    · exact (hbyte (by omega)).trans (ccmEncrypt_getD_cipher _ _ a m mic (by omega))
    · rw [← hmessage]
      exact (hbyte (by omega)).trans (ccmEncrypt_getD_tag _ _ a m mic hj)
    · exact s.memByte_setOut_complete (hlen ▸ hb)

/-! ### The round trip through the block (rules R608, R620 and R630) -/

/-- Where BUF holds an encryption after its associated data, CCM_DEC commits the message. -/
theorem exec_ccmDec_of_encryption {mic : MicLen} {u : State} {a m : List Byte}
    (hfit : u.alenN + u.mlenN + micBytes mic ≤ 512) (hdata : u.bufSlice 0 u.alenN = a)
    (hfield : u.bufSlice u.alenN (u.mlenN + micBytes mic) = ccmEncrypt u.key u.nonce a m mic) :
    exec (.ccmDec mic) u = .next (u.setOut m).complete := by
  refine exec_ccmDec_of_decrypts hfit ?_
  rw [hdata, hfield]
  exact ccmDecryptInvertsEncrypt _ _ _ _ _

/-- Settles O35: BUF of `u` holds byte by byte what CCM_ENC wrote to OUT. -/
theorem ccmRoundTripThroughTheBlock : Obligations.CcmRoundTripThroughTheBlock := by
  intro mic s t u hfit henc hkey hnonce halen hmlen haad hcipher
  have halen' : u.alenN = s.alenN := congrArg BitVec.toNat halen
  have hmlen' : u.mlenN = s.mlenN := congrArg BitVec.toNat hmlen
  have hfit' : s.alenN + s.mlenN + micBytes mic ≤ 512 := hfit
  have ht := Host.Outcome.next.inj (henc.symm.trans (exec_ccmEnc_of_fits (by omega) (by omega)))
  have hlen := ccmEncrypt_length s.key s.nonce (s.bufSlice 0 s.alenN) (s.bufSlice s.alenN s.mlenN) mic
  rw [s.bufSlice_length] at hlen
  have hdata : u.bufSlice 0 u.alenN = s.bufSlice 0 s.alenN := by
    rw [halen']
    exact State.bufSlice_congr s u 0 0 _ fun k hk => by simpa using haad k hk
  have hfield : u.bufSlice u.alenN (u.mlenN + micBytes mic)
      = ccmEncrypt u.key u.nonce (s.bufSlice 0 s.alenN) (s.bufSlice s.alenN s.mlenN) mic := by
    rw [hkey, hnonce, halen', hmlen', ← hlen]
    refine State.bufSlice_eq_of_bufByte fun k hk => ?_
    rw [← s.outByte_setOut_complete hk, ← ht]
    exact hcipher k (hlen ▸ hk)
  refine ⟨_, exec_ccmDec_of_encryption (by omega) hdata hfield, rfl, fun j hj => ?_⟩
  rw [u.outByte_setOut_complete (by rwa [s.bufSlice_length])]
  exact s.getD_bufSlice _ _ j hj

end Sys2Proof.Machine
end

section
/-! SUPPORT. The security header and the nonce (43_header_nonce.md rules R700 to R731): the fields of the patched control byte and
the HDR words as numbers, and what PARSE_HDR and BUILD_NONCE commit. -/

namespace Sys2Proof.Machine

/-! ### The fields of a control byte (30_encoding.md rule R320) -/

theorem ctrlLevel_toNat (c : Byte) : (ctrlLevel c).toNat = c.toNat % 8 :=
  (BitVec.extractLsb'_toNat 0 3 c).trans (by simp)

theorem ctrlKeyCode_toNat (c : Byte) : (ctrlKeyCode c).toNat = c.toNat / 8 % 4 :=
  (BitVec.extractLsb'_toNat 3 2 c).trans (by simp [Nat.shiftRight_eq_div_pow])

theorem ctrlExtn_eq_decide (c : Byte) : ctrlExtn c = decide (c.toNat / 32 % 2 = 1) := Nat.testBit_eq_decide_div_mod_eq

theorem ctrlVfc_eq_decide (c : Byte) : ctrlVfc c = decide (c.toNat / 64 % 2 = 1) := Nat.testBit_eq_decide_div_mod_eq

theorem ctrlKsnp_eq_decide (c : Byte) : ctrlKsnp c = decide (c.toNat / 8 % 4 = 1) := by
  have hcode : ∀ code : BitVec 2, (code == 1) = decide (code.toNat = 1) := by decide
  rw [← ctrlKeyCode_toNat, ctrlKsnp, hcode]

theorem levelEncrypts_toNat : ∀ level : BitVec 3, (levelEncrypts level).toNat = level.toNat / 4 := by decide

/-- MICTAB by the two low bits of a level (rules R302 and R321). -/
theorem micBytes_levelMic : ∀ level : BitVec 3,
    micBytes (levelMic level) = match level.toNat % 4 with | 0 => 0 | 1 => 4 | 2 => 8 | _ => 16 := by decide

/-! ### The level patch (rule R702) -/

/-- The patch keeps the five high bits of the wire byte above the level. -/
theorem patchLevel_eq_append (wire : Byte) (level : BitVec 3) : patchLevel wire level = wire.extractLsb' 3 5 ++ level := by
  have hmask : ∀ b : Byte, b &&& 0xF8 = b.extractLsb' 3 5 ++ 0#3 := by decide
  have hlevel : ∀ l : BitVec 3, l.setWidth 8 = 0#5 ++ l := by decide
  rw [patchLevel, hmask, hlevel, BitVec.or_append, BitVec.or_zero, BitVec.zero_or]

theorem toNat_append_eq_add {m n : Nat} (x : BitVec m) (y : BitVec n) : (x ++ y).toNat = x.toNat * 2 ^ n + y.toNat := by
  rw [BitVec.toNat_append, ← Nat.shiftLeft_add_eq_or_of_lt y.isLt, Nat.shiftLeft_eq]

theorem patchLevel_toNat (wire : Byte) (level : BitVec 3) :
    (patchLevel wire level).toNat = wire.toNat / 8 * 8 + level.toNat := by
  have hwire := wire.isLt
  rw [patchLevel_eq_append, toNat_append_eq_add, BitVec.extractLsb'_toNat, Nat.shiftRight_eq_div_pow]
  omega

section
variable (wire : Byte) (level : BitVec 3)

@[simp] theorem ctrlLevel_patchLevel : ctrlLevel (patchLevel wire level) = level := by
  have hlevel := level.isLt
  apply BitVec.eq_of_toNat_eq
  rw [ctrlLevel_toNat, patchLevel_toNat]
  omega

@[simp] theorem ctrlKeyCode_patchLevel : ctrlKeyCode (patchLevel wire level) = ctrlKeyCode wire := by
  have hlevel := level.isLt
  apply BitVec.eq_of_toNat_eq
  rw [ctrlKeyCode_toNat, ctrlKeyCode_toNat, patchLevel_toNat]
  omega

@[simp] theorem ctrlExtn_patchLevel : ctrlExtn (patchLevel wire level) = ctrlExtn wire := by
  have hlevel := level.isLt
  rw [ctrlExtn_eq_decide, ctrlExtn_eq_decide, patchLevel_toNat]
  congr 2
  omega

@[simp] theorem ctrlVfc_patchLevel : ctrlVfc (patchLevel wire level) = ctrlVfc wire := by
  have hlevel := level.isLt
  rw [ctrlVfc_eq_decide, ctrlVfc_eq_decide, patchLevel_toNat]
  congr 2
  omega

@[simp] theorem ctrlKsnp_patchLevel : ctrlKsnp (patchLevel wire level) = ctrlKsnp wire := by
  rw [ctrlKsnp, ctrlKeyCode_patchLevel, ctrlKsnp]

@[simp] theorem headerLength_patchLevel : headerLength (patchLevel wire level) = headerLength wire := by
  rw [headerLength, ctrlExtn_patchLevel, ctrlKsnp_patchLevel, headerLength]

end

/-- A bit as a number, from the number it was cut out of. -/
theorem toNat_decide_mod_two (n : Nat) : (decide (n % 2 = 1)).toNat = n % 2 := by
  obtain h | h := Nat.mod_two_eq_zero_or_one n <;> simp [h]

theorem ctrlExtn_toNat (c : Byte) : (ctrlExtn c).toNat = c.toNat / 32 % 2 := by
  rw [ctrlExtn_eq_decide, toNat_decide_mod_two]

theorem ctrlVfc_toNat (c : Byte) : (ctrlVfc c).toNat = c.toNat / 64 % 2 := by
  rw [ctrlVfc_eq_decide, toNat_decide_mod_two]

theorem ctrlKsnp_toNat (c : Byte) : (ctrlKsnp c).toNat = if c.toNat / 8 % 4 = 1 then 1 else 0 := by
  rw [ctrlKsnp_eq_decide]
  split <;> simp [*]

/-- The header length of rule R701, from the control byte as a number. -/
theorem headerLength_eq (c : Byte) :
    headerLength c = 5 + 8 * (c.toNat / 32 % 2) + if c.toNat / 8 % 4 = 1 then 1 else 0 := by
  rw [headerLength, ctrlExtn_toNat, ctrlKsnp_toNat]

/-! ### The HDR words as sums of their fields (10_state.md rules R115, R116 and R119) -/

theorem Header.ctrlWord_eq (hd : Header) : hd.ctrlWord = BitVec.ofNat 32 (hd.ctrl.toNat + 256 * hd.wire.toNat) := by
  apply BitVec.eq_of_toNat_eq
  rw [Header.ctrlWord, toNat_append_eq_add, toNat_append_eq_add, BitVec.toNat_ofNat, BitVec.toNat_ofNat]
  omega

theorem Header.infoWord_eq (hd : Header) :
    hd.infoWord = BitVec.ofNat 32 (hd.level.toNat + 8 * (ctrlKeyCode hd.ctrl).toNat + 32 * hd.extn.toNat
      + 64 * (ctrlVfc hd.ctrl).toNat + 128 * (ctrlKsnp hd.ctrl).toNat + 256 * hd.ksn.toNat + 65536 * micBytes hd.mic
      + 2097152 * hd.enc.toNat + 4194304 * (1 - hd.extn.toNat)) := by
  have hmic : micBytes hd.mic % 2 ^ 5 = micBytes hd.mic := Nat.mod_eq_of_lt (by have := micBytes_le hd.mic; omega)
  have hextn : (!hd.extn).toNat = 1 - hd.extn.toNat := by cases hd.extn <;> rfl
  rw [← BitVec.setWidth_eq hd.infoWord, ← BitVec.ofNat_toNat]
  congr 1
  simp only [Header.infoWord, toNat_append_eq_add, BitVec.toNat_ofBool, BitVec.toNat_ofNat, hmic, hextn]
  omega

theorem Header.posWord_eq (hd : Header) (h : hd.payoff < 65536) :
    hd.posWord = BitVec.ofNat 32 (hd.payoff + 65536 * hd.paylen) := by
  apply BitVec.eq_of_toNat_eq
  simp only [Header.posWord, toNat_append_eq_add, BitVec.toNat_ofNat]
  omega

/-! ### Integers in BUF (00_scope.md rule R11) -/

theorem fromLE_append (x y : List Byte) : fromLE (x ++ y) = fromLE x + 256 ^ x.length * fromLE y := by
  induction x with
  | nil => simp [fromLE]
  | cons b x ih =>
    rw [List.cons_append, fromLE, ih, fromLE, List.length_cons, Nat.pow_succ']
    ring

theorem State.fromLE_bufSlice_four (s : State) (i : Nat) :
    fromLE (s.bufSlice i 4) = (s.bufByte i).toNat + 256 * (s.bufByte (i + 1)).toNat + 65536 * (s.bufByte (i + 2)).toNat
      + 16777216 * (s.bufByte (i + 3)).toNat := by
  have hbytes : s.bufSlice i 4 = [s.bufByte i, s.bufByte (i + 1), s.bufByte (i + 2), s.bufByte (i + 3)] := rfl
  simp only [hbytes, fromLE]
  omega

/-- An integer of eight bytes is two of four, the low one first. -/
theorem State.fromLE_bufSlice_eight (s : State) (i : Nat) :
    fromLE (s.bufSlice i 8) = fromLE (s.bufSlice i 4) + 4294967296 * fromLE (s.bufSlice (i + 4) 4) := by
  rw [s.bufSlice_add i 4 4, fromLE_append, s.bufSlice_length]
  rfl

theorem State.fromLE_bufSlice_four_lt (s : State) (i : Nat) : fromLE (s.bufSlice i 4) < 4294967296 := by
  have hlt := fromLE_lt (s.bufSlice i 4)
  rwa [s.bufSlice_length] at hlt

/-- The two halves of a 64-bit number, of which the low one fits in 32 bits. -/
theorem extractLsb'_halves (lo hi : Nat) (h : lo < 4294967296) :
    (BitVec.ofNat 64 (lo + 4294967296 * hi)).extractLsb' 0 32 = BitVec.ofNat 32 lo
    ∧ (BitVec.ofNat 64 (lo + 4294967296 * hi)).extractLsb' 32 32 = BitVec.ofNat 32 hi := by
  constructor
  all_goals
    apply BitVec.eq_of_toNat_eq
    rw [BitVec.extractLsb'_toNat, BitVec.toNat_ofNat, BitVec.toNat_ofNat, Nat.shiftRight_eq_div_pow]
    omega

/-! ### PARSE_HDR and its errors (rules R703 and R730) -/

theorem exec_parseHdr_of_error {s : State} {e : ErrCode} (h : parse s = .error e) :
    exec .parseHdr s = .next (s.raise e) := by
  simp only [exec, execParseHdr, h]

theorem exec_parseHdr_of_ok {s : State} {hd : Header} (h : parse s = .ok hd) :
    exec .parseHdr s = .next (s.setHeader hd).complete := by
  simp only [exec, execParseHdr, h]

/-- The payload offset that rule R703 checks, from the wire byte as a number. -/
theorem State.hoffN_add_headerLength (s : State) :
    s.hoffN + headerLength s.patchedCtrl = s.hoffN + 5 + 8 * ((s.bufByte s.hoffN).toNat / 32 % 2)
      + if (s.bufByte s.hoffN).toNat / 8 % 4 = 1 then 1 else 0 := by
  rw [State.patchedCtrl, headerLength_patchLevel, headerLength_eq, ← Nat.add_assoc, ← Nat.add_assoc]

theorem State.ctrlLevel_patchedCtrl (s : State) : ctrlLevel s.patchedCtrl = s.defLevel :=
  ctrlLevel_patchLevel _ _

/-- Settles O37: the two errors of the parse. -/
theorem parseHdrErrors : Obligations.ParseHdrErrors := by
  intro s h wire payoff mic limit
  have hpayoff : s.hoffN + headerLength s.patchedCtrl = payoff := s.hoffN_add_headerLength
  have hmic : micBytes (levelMic (ctrlLevel s.patchedCtrl)) = mic := by
    rw [s.ctrlLevel_patchedCtrl]
    exact micBytes_levelMic _
  have herror (e : ErrCode) := parse_eq_error s e
  rw [hpayoff, hmic] at herror
  exact ⟨fun hlarge => exec_parseHdr_of_error ((herror _).mpr (.inl ⟨hlarge, rfl⟩)),
    fun hcap hshort => exec_parseHdr_of_error ((herror _).mpr (.inr ⟨hcap, rfl, hshort⟩))⟩

/-! ### The HDR words that PARSE_HDR commits (rule R710) -/

section
variable {s : State} {hd : Header} (h : parse s = .ok hd)
include h

theorem parse_ctrlWord : hd.ctrlWord = BitVec.ofNat 32 ((s.bufByte s.hoffN).toNat / 8 * 8 + s.defLevel.toNat
    + 256 * (s.bufByte s.hoffN).toNat) := by
  obtain ⟨-, -, -, hwire, hctrl, -⟩ := parse_eq_ok s hd h
  rw [Header.ctrlWord_eq, hwire, hctrl, State.patchedCtrl, patchLevel_toNat]

theorem parse_level : hd.level = s.defLevel := by
  obtain ⟨-, -, -, -, hctrl, -⟩ := parse_eq_ok s hd h
  rw [Header.level, hctrl, s.ctrlLevel_patchedCtrl]

theorem parse_extn : hd.extn = ctrlExtn (s.bufByte s.hoffN) := by
  obtain ⟨-, -, -, -, hctrl, -⟩ := parse_eq_ok s hd h
  rw [Header.extn, hctrl, State.patchedCtrl, ctrlExtn_patchLevel]

theorem parse_ksn : hd.ksn.toNat = if (s.bufByte s.hoffN).toNat / 8 % 4 = 1 then
    (s.bufByte (s.hoffN + 5 + 8 * ((s.bufByte s.hoffN).toNat / 32 % 2))).toNat else 0 := by
  obtain ⟨-, -, -, -, -, -, -, -, hksn⟩ := parse_eq_ok s hd h
  rw [hksn, State.patchedCtrl, ctrlKsnp_patchLevel, ctrlExtn_patchLevel, ctrlExtn_toNat, ctrlKsnp_eq_decide]
  simp only [decide_eq_true_eq]
  split <;> rfl

/-- HDR_INFO: VFC, EXTN, KEYID and KSNP come from the wire byte, LEVEL, ENC and MICLEN from DEFLEVEL. -/
theorem parse_infoWord : hd.infoWord = BitVec.ofNat 32 (s.defLevel.toNat + 8 * ((s.bufByte s.hoffN).toNat / 8 % 4)
    + 32 * ((s.bufByte s.hoffN).toNat / 32 % 2) + 64 * ((s.bufByte s.hoffN).toNat / 64 % 2)
    + 128 * (if (s.bufByte s.hoffN).toNat / 8 % 4 = 1 then 1 else 0) + 256 * hd.ksn.toNat
    + 65536 * micBytes (levelMic s.defLevel) + 2097152 * (s.defLevel.toNat / 4)
    + 4194304 * (1 - (s.bufByte s.hoffN).toNat / 32 % 2)) := by
  obtain ⟨-, -, -, -, hctrl, -⟩ := parse_eq_ok s hd h
  rw [Header.infoWord_eq, Header.enc, Header.mic, parse_level h, parse_extn h, hctrl, State.patchedCtrl,
    ctrlKeyCode_patchLevel, ctrlVfc_patchLevel, ctrlKsnp_patchLevel, ctrlKeyCode_toNat, ctrlExtn_toNat, ctrlVfc_toNat,
    ctrlKsnp_toNat, levelEncrypts_toNat]

/-- HDR_EXT_LO and HDR_EXT_HI: the two little-endian halves of the extended source, where there is one. -/
theorem parse_ext :
    (hd.ext.extractLsb' 0 32 = if (s.bufByte s.hoffN).toNat / 32 % 2 = 1 then
      BitVec.ofNat 32 (fromLE (s.bufSlice (s.hoffN + 5) 4)) else 0)
    ∧ (hd.ext.extractLsb' 32 32 = if (s.bufByte s.hoffN).toNat / 32 % 2 = 1 then
      BitVec.ofNat 32 (fromLE (s.bufSlice (s.hoffN + 9) 4)) else 0) := by
  obtain ⟨-, -, -, -, -, -, -, hext, -⟩ := parse_eq_ok s hd h
  rw [hext, State.patchedCtrl, ctrlExtn_patchLevel, ctrlExtn_eq_decide, s.fromLE_bufSlice_eight]
  simp only [decide_eq_true_eq]
  split
  · exact extractLsb'_halves _ _ (s.fromLE_bufSlice_four_lt _)
  · exact ⟨rfl, rfl⟩

theorem parse_payoff : hd.payoff = s.hoffN + 5 + 8 * ((s.bufByte s.hoffN).toNat / 32 % 2)
    + if (s.bufByte s.hoffN).toNat / 8 % 4 = 1 then 1 else 0 := by
  obtain ⟨-, -, -, -, -, hpayoff, -⟩ := parse_eq_ok s hd h
  rw [hpayoff, s.hoffN_add_headerLength]

/-- HDR_POS: the payload offset lies in the captured frame, so in its field. -/
theorem parse_posWord :
    hd.posWord = BitVec.ofNat 32 (hd.payoff + 65536 * (s.replenN - hd.payoff - micBytes (levelMic s.defLevel))) := by
  obtain ⟨-, hcap, hlen, -⟩ := parse_eq_ok s hd h
  have hcaplen : s.caplenN < 65536 := s.caplen.isLt
  rw [Header.mic, parse_level h] at hlen
  rw [Header.posWord_eq hd (by omega), ← hlen]
  congr 3
  omega

end

/-- Settles O36: the parse succeeds, and each HDR word is the sum of its fields. -/
theorem parseHdrDecodesTheHeader : Obligations.ParseHdrDecodesTheHeader := by
  intro s h wire extn keyid ksnp level mic payoff byte ksn hbuf hcap hlen
  have hpayoff : s.hoffN + headerLength s.patchedCtrl = payoff := s.hoffN_add_headerLength
  have hmic : micBytes (levelMic s.defLevel) = mic := micBytes_levelMic _
  obtain ⟨hd, hparse⟩ : ∃ hd, parse s = .ok hd := by
    refine ⟨_, parse_ok s hbuf (hpayoff ▸ hcap) ?_⟩
    rw [hpayoff, s.ctrlLevel_patchedCtrl, hmic]
    exact hlen
  obtain ⟨hlo, hhi⟩ := parse_ext hparse
  have hpos := parse_posWord hparse
  have hinfo := parse_infoWord hparse
  obtain ⟨-, -, -, -, -, -, hfc, -⟩ := parse_eq_ok s hd hparse
  rw [s.fromLE_bufSlice_four] at hfc hlo hhi
  rw [parse_payoff hparse, hmic] at hpos
  rw [parse_ksn hparse, hmic] at hinfo
  rw [exec_parseHdr_of_ok hparse, State.setHeader, parse_ctrlWord hparse, hinfo, hfc, hlo, hhi, hpos]
  rfl

/-! ### BUILD_NONCE (rules R720, R721 and R731) -/

/-- `LE_4` of a word is its byte lanes, from the low one up. -/
theorem leBytes_word (w : Word) : leBytes 4 w.toNat = (List.range 4).map fun k => w.extractLsb' (8 * k) 8 := by
  simp [leBytes, List.range_succ, extractLsb'_lane, Nat.div_div_eq_div_mul]

/-- `LE_8` of two words is `LE_4` of the low one and then of the high one. -/
theorem leBytes_append (hi lo : Word) : leBytes 8 (hi ++ lo).toNat = leBytes 4 lo.toNat ++ leBytes 4 hi.toNat := by
  have hvalue : fromLE (leBytes 4 lo.toNat ++ leBytes 4 hi.toNat) = (hi ++ lo).toNat := by
    have hlo := lo.isLt
    have hhi := hi.isLt
    rw [fromLE_append, fromLE_leBytes, fromLE_leBytes, leBytes_length, toNat_append_eq_add]
    omega
  rw [← hvalue]
  simpa using leBytes_fromLE (leBytes 4 lo.toNat ++ leBytes 4 hi.toNat)

/-- The nonce of a source in two words, byte by byte (rule R720). -/
theorem buildNonce_append (hi lo fc : Word) (ctrl : Byte) :
    buildNonce (hi ++ lo) fc ctrl = .ofList 13 ((List.range 4).map (fun k => lo.extractLsb' (8 * k) 8)
      ++ (List.range 4).map (fun k => hi.extractLsb' (8 * k) 8) ++ (List.range 4).map (fun k => fc.extractLsb' (8 * k) 8)
      ++ [ctrl]) := by
  rw [buildNonce, leBytes_append, leBytes_word, leBytes_word, leBytes_word]

section
variable {s : State}

theorem exec_buildNonce_of_source {src : BitVec 64}
    (h : s.resolveSource (s.hdrInfo.getLsbD 5) (s.hdrExtHi ++ s.hdrExtLo) = some src) :
    exec .buildNonce s = .next (s.setNonce (buildNonce src s.hdrFc (s.hdrCtrl.extractLsb' 0 8))).complete := by
  simp only [exec, execBuildNonce, h]

theorem exec_buildNonce_of_no_source
    (h : s.resolveSource (s.hdrInfo.getLsbD 5) (s.hdrExtHi ++ s.hdrExtLo) = none) :
    exec .buildNonce s = .next (s.raise .unknownSource) := by
  simp only [exec, execBuildNonce, h]

end

/-- Settles O38: the three outcomes of resolving the source, and the nonce of its two words. -/
theorem buildNonceResult : Obligations.BuildNonceResult := by
  intro s nonceOf
  refine ⟨fun hextn => ?header, fun hextn hhint => ?hint, fun hextn hhint => ?unknown⟩
  case header =>
    rw [exec_buildNonce_of_source (src := s.hdrExtHi ++ s.hdrExtLo) (if_pos hextn), buildNonce_append]
    rfl
  case hint =>
    have hsource : s.resolveSource (s.hdrInfo.getLsbD 5) (s.hdrExtHi ++ s.hdrExtLo) = some (s.hintHi ++ s.hintLo) := by
      rw [hextn]
      exact if_pos hhint
    rw [exec_buildNonce_of_source hsource, buildNonce_append]
    rfl
  case unknown =>
    refine exec_buildNonce_of_no_source ?_
    rw [hextn]
    exact if_neg (Bool.eq_false_iff.mp hhint)

end Sys2Proof.Machine
end

section
/-! SUPPORT. The key ring (44_key_ring.md rules R810 to R845): what its commands commit in each of their cases, the
cache write slot by slot, and the candidates by their positions. -/

namespace Sys2Proof.Machine

/-! ### SESSION_RESET (rule R830) -/

/-- A flow table without a valid slot. -/
theorem FlowTable.get_replicate_none (i : Nat) : FixedList.get (.replicate Config.nFlow none : FlowTable) i = none := by
  simp only [FixedList.get, FixedList.toList_replicate, List.getD_eq_getElem?_getD, List.getElem?_replicate]
  split <;> rfl

/-- KCOUNT of an empty key store reads as zero (10_state.md rule R121). -/
theorem State.kcountWord_empty {s : State} (hg : s.globalKeys = []) (hf : s.flows = .replicate Config.nFlow none) :
    s.kcountWord = 0 := by
  rw [State.kcountWord, hg, hf]
  rfl

/-- Settles O40: both lists are replaced by empty ones, and KCOUNT counts them. -/
theorem sessionResetEmptiesTheKeyStore : Obligations.SessionResetEmptiesTheKeyStore := fun _ =>
  ⟨_, rfl, rfl, fun i _ => FlowTable.get_replicate_none i, State.kcountWord_empty rfl rfl⟩

/-! ### REG_KEY (rule R835) -/

section
variable {s : State} {f : Flow}

theorem exec_regKey_of_listed (hf : FlowTable.flowOf s.flows s.netid = some f) (hk : s.key ∈ keysOf f.keys) :
    exec .regKey s = .next s.complete := by
  simp only [exec, execRegKey, hf, if_pos ((holdsKey_iff f.keys s.key).mpr hk)]

theorem exec_regKey_of_full_list (hf : FlowTable.flowOf s.flows s.netid = some f) (hk : s.key ∉ keysOf f.keys)
    (hfull : f.keys.length = 8) : exec .regKey s = .next (s.raise .ringFull) := by
  simp only [exec, execRegKey, hf, if_neg (mt (holdsKey_iff f.keys s.key).mp hk), if_pos hfull]

theorem exec_regKey_of_room (hf : FlowTable.flowOf s.flows s.netid = some f) (hk : s.key ∉ keysOf f.keys)
    (hroom : f.keys.length < 8) :
    exec .regKey s = .next (s.setFlows (FlowTable.append s.flows s.netid (s.newRecord s.key))).complete := by
  simp only [exec, execRegKey, hf, if_neg (mt (holdsKey_iff f.keys s.key).mp hk), if_neg (Nat.ne_of_lt hroom)]

theorem exec_regKey_of_free_slot {j : Nat} (hnone : FlowTable.slot s.flows s.netid = none)
    (hfree : FlowTable.freeSlot s.flows = some j) :
    exec .regKey s = .next (s.setFlows (FlowTable.append s.flows s.netid (s.newRecord s.key))).complete := by
  simp only [exec, execRegKey, (FlowTable.flowOf_eq_none _ _).mpr hnone, hfree, if_neg (Option.some_ne_none j)]

theorem exec_regKey_of_full_table (hnone : FlowTable.slot s.flows s.netid = none)
    (hfree : FlowTable.freeSlot s.flows = none) : exec .regKey s = .next (s.raise .ringFull) := by
  simp only [exec, execRegKey, (FlowTable.flowOf_eq_none _ _).mpr hnone, if_pos hfree]

end

/-! ### The two changes of one slot (rules R812, R822 and R835) -/

section
variable {t : FlowTable} {n : Half} {j : Nat} {f : Flow}

theorem FlowTable.alloc_of_slot (hs : FlowTable.slot t n = some j) : FlowTable.alloc t n = some (j, t) := by
  simp only [FlowTable.alloc, hs]

theorem FlowTable.alloc_of_freeSlot (hs : FlowTable.slot t n = none) (hfree : FlowTable.freeSlot t = some j) :
    FlowTable.alloc t n = some (j, t.set j (some (newFlow n))) := by
  simp only [FlowTable.alloc, hs, hfree]

theorem FlowTable.alloc_of_full (hs : FlowTable.slot t n = none) (hfree : FlowTable.freeSlot t = none) :
    FlowTable.alloc t n = none := by
  simp only [FlowTable.alloc, hs, hfree]

theorem FlowTable.update_of_get (hf : t.get j = some f) (g : Flow → Flow) :
    FlowTable.update t j g = t.set j (some (g f)) := by
  simp only [FlowTable.update, hf, Option.map_some]

/-- The slot that was just allocated takes a function of the new flow. -/
theorem FlowTable.update_set (hj : j < 8) (g : Flow → Flow) :
    FlowTable.update (t.set j (some f)) j g = t.set j (some (g f)) := by
  rw [FlowTable.update_of_get ((FlowTable.get_set t j j (some f) hj).trans (if_pos rfl))]
  exact FixedList.ext (by simp)

theorem FlowTable.append_of_slot (hs : FlowTable.slot t n = some j) (hf : t.get j = some f) (r : KeyRecord) :
    FlowTable.append t n r = t.set j (some { f with keys := f.keys ++ [r] }) := by
  simp only [FlowTable.append, FlowTable.alloc_of_slot hs, FlowTable.update_of_get hf]

theorem FlowTable.append_of_freeSlot (hs : FlowTable.slot t n = none) (hfree : FlowTable.freeSlot t = some j)
    (r : KeyRecord) :
    FlowTable.append t n r = t.set j (some { netid := n, keys := [r], cache := FlowCache.empty }) := by
  have hj : j < 8 := ((FlowTable.freeSlot_eq_some t j).mp hfree).1
  simp only [FlowTable.append, FlowTable.alloc_of_freeSlot hs hfree, FlowTable.update_set hj]
  rfl

theorem FlowTable.cacheWrite_of_slot (hs : FlowTable.slot t n = some j) (hf : t.get j = some f) (k : KeyId) (r : Key) :
    FlowTable.cacheWrite t n k r = t.set j (some { f with cache := f.cache.store k r }) := by
  simp only [FlowTable.cacheWrite, FlowTable.alloc_of_slot hs, FlowTable.update_of_get hf]

theorem FlowTable.cacheWrite_of_freeSlot (hs : FlowTable.slot t n = none) (hfree : FlowTable.freeSlot t = some j)
    (k : KeyId) (r : Key) :
    FlowTable.cacheWrite t n k r
      = t.set j (some { netid := n, keys := [], cache := FlowCache.empty.store k r }) := by
  have hj : j < 8 := ((FlowTable.freeSlot_eq_some t j).mp hfree).1
  simp only [FlowTable.cacheWrite, FlowTable.alloc_of_freeSlot hs hfree, FlowTable.update_set hj]
  rfl

theorem FlowTable.cacheWrite_of_full (hs : FlowTable.slot t n = none) (hfree : FlowTable.freeSlot t = none)
    (k : KeyId) (r : Key) : FlowTable.cacheWrite t n k r = t := by
  simp only [FlowTable.cacheWrite, FlowTable.alloc_of_full hs hfree]

end

/-- Settles O41: with distinct netids the flow at `j` is the one REG_KEY looks at, and its three checks are the three cases. -/
theorem regKeyIntoAnAllocatedFlow : Obligations.RegKeyIntoAnAllocatedFlow := by
  intro s j f hinv hj hget hnetid
  have hslot : FlowTable.slot s.flows s.netid = some j :=
    hnetid ▸ FlowTable.slot_of_get s.flows j f hj hget hinv.netidsDistinct
  have hflow : FlowTable.flowOf s.flows s.netid = some f :=
    hnetid ▸ FlowTable.flowOf_of_get s.flows j f hj hget hinv.netidsDistinct
  refine ⟨exec_regKey_of_listed hflow, exec_regKey_of_full_list hflow, fun hk hroom => ?_⟩
  rw [exec_regKey_of_room hflow hk hroom, FlowTable.append_of_slot hslot hget]
  rfl

/-- Settles O42: the free slot that REG_KEY finds is the lowest invalid one. -/
theorem regKeyAllocatesTheLowestFreeSlot : Obligations.RegKeyAllocatesTheLowestFreeSlot := by
  intro s hnone
  have hslot : FlowTable.slot s.flows s.netid = none := (FlowTable.slot_eq_none _ _).mpr hnone
  refine ⟨fun j hj hget hlow => ?_, fun hall => ?_⟩
  · have hfree : FlowTable.freeSlot s.flows = some j := (FlowTable.freeSlot_eq_some _ _).mpr ⟨hj, hget, hlow⟩
    rw [exec_regKey_of_free_slot hslot hfree, FlowTable.append_of_freeSlot hslot hfree]
    rfl
  · exact exec_regKey_of_full_table hslot ((FlowTable.freeSlot_eq_none _).mpr hall)

/-- Settles O53: the slot of the netid, else the lowest invalid one, else none. -/
theorem cacheWriteStoresTheRawKey : Obligations.CacheWriteStoresTheRawKey := by
  intro t n k r
  refine ⟨fun j f hj hf hn hlow => ?present, fun j hj hnone hf hlow => ?allocated, fun hall => ?full,
    fun c k' => FlowCache.entry_store c k k' r⟩
  case present =>
    have hslot : FlowTable.slot t n = some j :=
      (FlowTable.slot_eq_some t n j).mpr ⟨hj, ⟨f, hf, hn⟩, fun i hi g => hlow i g hi⟩
    exact FlowTable.cacheWrite_of_slot hslot hf k r
  case allocated =>
    exact FlowTable.cacheWrite_of_freeSlot ((FlowTable.slot_eq_none t n).mpr hnone)
      ((FlowTable.freeSlot_eq_some t j).mpr ⟨hj, hf, hlow⟩) k r
  case full =>
    refine FlowTable.cacheWrite_of_full ((FlowTable.slot_eq_none t n).mpr fun i g hi hg => ?_)
      ((FlowTable.freeSlot_eq_none t).mpr fun i hi hnone => ?_) k r
    · obtain ⟨g', hg', hne⟩ := hall i hi
      rw [hg', Option.some.injEq] at hg
      exact hg ▸ hne
    · obtain ⟨g, hg, -⟩ := hall i hi
      rw [hnone] at hg
      cases hg

/-! ### ADD_GKEY (rule R840) -/

/-- Byte i of a key in reverse order is its byte 15 − i. -/
theorem Key.get_reverse (k : Key) (i : Nat) (hi : i < 16) :
    FixedList.get (⟨k.toList.reverse, by simp⟩ : Key) i = k.get (15 - i) := by
  rw [FixedList.get_eq_getElem _ _ hi, FixedList.get_eq_getElem _ _ (by omega)]
  simp only [List.getElem_reverse, k.length_eq]

/-- Two strings of one length with the same bytes are the same. -/
theorem Bytes.eq_of_get_eq {n : Nat} {v w : Bytes n} (h : ∀ i, i < n → v.get i = w.get i) : v = w := by
  refine FixedList.ext (List.ext_getElem (by simp) fun i hv hw => ?_)
  have hi : i < n := by simpa using hv
  rw [← v.get_eq_getElem i hi, ← w.get_eq_getElem i hi, h i hi]

/-- ADD_GKEY's operand, byte by byte. -/
theorem State.keyOperand_get (s : State) (rev : Bool) (i : Nat) (hi : i < 16) :
    (s.keyOperand rev).get i = if rev then s.key.get (15 - i) else s.key.get i := by
  cases rev with
  | false => rfl
  | true => exact Key.get_reverse s.key i hi

section
variable {s : State} {rev : Bool}

theorem exec_addGkey_of_listed (hk : s.keyOperand rev ∈ keysOf s.globalKeys) :
    exec (.addGkey rev) s = .next s.complete := by
  simp only [exec, execAddGkey, if_pos ((holdsKey_iff _ _).mpr hk)]

theorem exec_addGkey_of_full (hk : s.keyOperand rev ∉ keysOf s.globalKeys) (hfull : s.globalKeys.length = 16) :
    exec (.addGkey rev) s = .next (s.raise .ringFull) := by
  simp only [exec, execAddGkey, if_neg (mt (holdsKey_iff _ _).mp hk), if_pos hfull]

theorem exec_addGkey_of_room (hk : s.keyOperand rev ∉ keysOf s.globalKeys) (hroom : s.globalKeys.length < 16) :
    exec (.addGkey rev) s
      = .next (s.setGlobalKeys (s.globalKeys ++ [s.newRecord (s.keyOperand rev)])).complete := by
  simp only [exec, execAddGkey, if_neg (mt (holdsKey_iff _ _).mp hk), if_neg (Nat.ne_of_lt hroom)]

end

/-- Settles O43: the key with the bytes described is the operand, whose three cases are the command's branches. -/
theorem addGkeyResult : Obligations.AddGkeyResult := by
  intro rev s k hbytes
  obtain rfl : s.keyOperand rev = k :=
    Bytes.eq_of_get_eq fun i hi => (s.keyOperand_get rev i hi).trans (hbytes i hi).symm
  exact ⟨exec_addGkey_of_listed, exec_addGkey_of_full, exec_addGkey_of_room⟩

/-! ### LOOKUP_LABEL (rule R845) -/

/-- The records searched, the global list before the flow slots. -/
theorem State.labelledRecords_eq (s : State) :
    s.labelledRecords = s.globalKeys ++ s.flows.toList.flatMap fun f => f.elim [] Flow.keys := by
  have hkeys (f : Option Flow) : (f.map Flow.keys).getD [] = f.elim [] Flow.keys := by cases f <;> rfl
  simp only [State.labelledRecords, hkeys]

section
variable {s : State}

theorem exec_lookupLabel_of_found {r : KeyRecord} (hlabel : s.label ≠ 0)
    (hfind : s.labelledRecords.find? (fun q => q.label == s.label) = some r) :
    exec .lookupLabel s = .next (s.setRes r.key).complete := by
  simp only [exec, execLookupLabel, if_neg hlabel, hfind]

theorem exec_lookupLabel_of_label_zero (hlabel : s.label = 0) : exec .lookupLabel s = .next (s.raise .notFound) := by
  simp only [exec, execLookupLabel, if_pos hlabel]

theorem exec_lookupLabel_of_none (hfind : s.labelledRecords.find? (fun q => q.label == s.label) = none) :
    exec .lookupLabel s = .next (s.raise .notFound) := by
  simp only [exec, execLookupLabel, hfind, ite_self]

end

/-- Settles O44: the search finds the record that no earlier one matches, or none. -/
theorem lookupLabelResult : Obligations.LookupLabelResult := by
  intro s records
  have hrecords : s.labelledRecords = records := s.labelledRecords_eq
  refine ⟨fun before r after hlabel hsplit hbefore hr => ?found, fun h => ?notFound⟩
  case found =>
    refine exec_lookupLabel_of_found hlabel ?_
    rw [hrecords, hsplit, List.find?_eq_some_iff_append]
    exact ⟨by simpa using hr, before, after, rfl, by simpa using hbefore⟩
  case notFound =>
    obtain hlabel | hnone := h
    · exact exec_lookupLabel_of_label_zero hlabel
    · refine exec_lookupLabel_of_none ?_
      rw [hrecords, List.find?_eq_none]
      simpa using hnone

/-! ### Candidates (rules R813 and R814) -/

/-- Global candidate p is the record at p. -/
theorem globalCandidates_getElem? (g : List KeyRecord) (p : Nat) :
    (globalCandidates g)[p]? = (g[p]?).map fun r => { raw := r.key, source := .globalList, index := p } := by
  simp only [globalCandidates, List.getElem?_map, List.getElem?_zipIdx, Option.map_map, Nat.zero_add]
  rfl

/-- Flow candidate p is the p-th record from the end. -/
theorem flowCandidates_getElem? (f : Flow) {p : Nat} (hp : p < f.keys.length) :
    (flowCandidates f)[p]? = (f.keys[f.keys.length - 1 - p]?).map fun r =>
      { raw := r.key, source := .flowList, index := f.keys.length - 1 - p } := by
  rw [flowCandidates, List.getElem?_reverse (by simpa using hp)]
  simp only [List.length_map, List.length_zipIdx, List.getElem?_map, List.getElem?_zipIdx, Option.map_map, Nat.zero_add]
  rfl

/-- The cached key for the frame's key kind is the one cache candidate. -/
theorem cacheCandidates_eq (f : Flow) (k : KeyId) :
    cacheCandidates f k = (f.cache.entry k).toList.map fun r =>
      { raw := r, source := .flowCache, index := k.code.toNat } := by
  unfold cacheCandidates
  cases f.cache.entry k <;> rfl

theorem State.candidates_of_flow {s : State} {n : Half} {f : Flow} (hf : FlowTable.flowOf s.flows n = some f)
    (k : KeyId) :
    s.candidates k n = cacheCandidates f k ++ (flowCandidates f ++ globalCandidates s.globalKeys) := by
  simp only [State.candidates, hf, List.append_assoc]

theorem State.candidates_of_no_slot {s : State} {n : Half} (hs : FlowTable.slot s.flows n = none) (k : KeyId) :
    s.candidates k n = globalCandidates s.globalKeys := by
  simp only [State.candidates, (FlowTable.flowOf_eq_none _ _).mpr hs]

/-- Settles O46: the three parts of the candidate list, one after the other. -/
theorem candidatesComeInOrder : Obligations.CandidatesComeInOrder := by
  intro s k hinv
  refine ⟨fun j f hj hget => ?flow, fun n hnone => ?noSlot⟩
  case flow =>
    intro c n cs
    have hcs : cs = cacheCandidates f k ++ (flowCandidates f ++ globalCandidates s.globalKeys) :=
      State.candidates_of_flow (FlowTable.flowOf_of_get s.flows j f hj hget hinv.netidsDistinct) k
    have hc : (cacheCandidates f k).length = c := by rw [cacheCandidates_eq, List.length_map]
    have hn : (flowCandidates f).length = n := flowCandidates_length f
    refine ⟨?length, hinv.candidates_length_le k f.netid, fun r hr => ?cached, fun p hp => ?listed, fun p hp => ?global⟩
    case length =>
      rw [hcs, List.length_append, List.length_append, hc, hn, globalCandidates_length, Nat.add_assoc]
    case cached =>
      rw [hcs, cacheCandidates_eq, hr]
      rfl
    case listed =>
      rw [hcs, List.getElem?_append_right (by omega), hc, Nat.add_sub_cancel_left,
        List.getElem?_append_left (hn.symm ▸ hp), flowCandidates_getElem? f hp]
    case global =>
      rw [hcs, List.getElem?_append_right (by omega), hc, Nat.add_assoc, Nat.add_sub_cancel_left,
        List.getElem?_append_right (by omega), hn, Nat.add_sub_cancel_left, globalCandidates_getElem?]
  case noSlot =>
    rw [State.candidates_of_no_slot ((FlowTable.slot_eq_none _ _).mpr hnone)]
    exact ⟨globalCandidates_length _, fun p _ => globalCandidates_getElem? _ p⟩

/-! ### Trial keys (rules R821 and R322) -/

/-- A key kind is the one of its code. -/
theorem keyIdOfCode_code (k : KeyId) : keyIdOfCode k.code = k := by cases k <;> rfl

/-- Settles O47: the table of trial keys by kind, and by the code of each kind. -/
theorem trialKeysFollowTheKeyKind : Obligations.TrialKeysFollowTheKeyKind := by
  have hkind (r : Key) : trialKey r .link = r ∧ trialKey r .network = r ∧ trialKey r .transport = keyedHash r 0x00
      ∧ trialKey r .load = keyedHash r 0x02 := ⟨rfl, rfl, rfl, rfl⟩
  exact ⟨hkind, hkind, keyIdOfCode_code .link, keyIdOfCode_code .network, keyIdOfCode_code .transport,
    keyIdOfCode_code .load, rfl, rfl, rfl, rfl⟩

end Sys2Proof.Machine
end

section
/-! SUPPORT. The work of every command (70_reset_and_hazards.md rules R1111 and R1121): the counting run ends in the state of
the plain one, what it counts command by command, and the bounds that BUF_LEN and the key store put on it. -/

namespace Sys2Proof.Machine

/-! ### The counting run -/

/-- The counting run of a command that calls no cipher. -/
theorem withoutCalls_value (s : State) {t : State} {o : Host.Outcome State Fault Refusal} (h : o = .next t) :
    o = .next (withoutCalls s o).value := by
  rw [h]
  rfl

/-- Counting calls changes no outcome. -/
theorem exec_eq_countedCommand (i : Instr) (s : State) : exec i s = .next (countedCommand i s).value := by
  cases i with
  | nop => exact withoutCalls_value s rfl
  | aesEnc => rfl
  | mmoHash =>
    simp only [exec, execMmoHash, countedCommand]
    split
    · rfl
    · rw [Counted.value_map, countedMmoHash_value]
  | keyedHash imm8 =>
    simp only [exec, execKeyedHash, countedCommand, Counted.value_map, countedKeyedHash_value]
  | ccmDec mic =>
    simp only [exec, execCcmDec, countedCommand]
    split
    · rfl
    · rewrite [← countedCcmDecrypt_value]
      rfl
  | ccmEnc mic =>
    simp only [exec, execCcmEnc, countedCommand]
    split
    · rfl
    · rw [Counted.value_map, countedCcmEncrypt_value]
  | parseHdr => exact withoutCalls_value s rfl
  | buildNonce => exact withoutCalls_value s rfl
  | decryptFrame =>
    simp only [exec, execDecryptFrame, countedCommand]
    cases parse s with
    | error e => rfl
    | ok hd => simp only [State.countedProcessFrame_value]
  | regKey => exact withoutCalls_value s rfl
  | addGkey rev => exact withoutCalls_value s rfl
  | lookupLabel => exact withoutCalls_value s rfl
  | sessionReset => exact withoutCalls_value s rfl

/-! ### Commands other than DECRYPT_FRAME -/

theorem aesCalls_mmoHash (s : State) :
    aesCalls .mmoHash s = if s.alenN ≤ 512 then (s.alenN + 3 + 15) / 16 else 0 := by
  simp only [aesCalls, countedCommand, exceeds_bufLen_or_mmoFieldMax_iff]
  by_cases hfit : s.alenN ≤ 512
  · rw [if_neg (Nat.not_lt.mpr hfit), if_pos hfit, Counted.calls_map, countedMmoHash_calls, State.bufSlice_length]
  · rw [if_pos (Nat.lt_of_not_le hfit), if_neg hfit]
    rfl

theorem aesCalls_keyedHash (imm8 : Byte) (s : State) : aesCalls (.keyedHash imm8) s = 5 :=
  countedKeyedHash_calls s.key imm8

theorem aesCalls_ccmDec (mic : MicLen) (s : State) :
    aesCalls (.ccmDec mic) s = if s.alenN + s.mlenN + micBytes mic ≤ 512
      then transformCalls s.alenN s.mlenN (micBytes mic) else 0 := by
  simp only [aesCalls, countedCommand]
  by_cases hfit : s.alenN + s.mlenN + micBytes mic ≤ 512
  · rw [if_neg (ccmDec_checks_pass hfit), if_pos hfit, Counted.calls_map, countedCcmDecrypt_calls,
      State.bufSlice_length, State.bufSlice_length, Nat.add_sub_cancel]
  · rw [if_pos (.inl (Nat.lt_of_not_le hfit)), if_neg hfit]
    rfl

/-- When input and output fit, no length check of CCM_ENC fires. -/
theorem ccmEnc_checks_pass {mic : MicLen} {s : State} (hin : s.alenN + s.mlenN ≤ 512)
    (hout : s.mlenN + micBytes mic ≤ 512) :
    ¬ (s.alenN + s.mlenN > Config.bufLen ∨ s.mlenN + micBytes mic > Config.bufLen ∨ aadTooLong s.alenN = true) := by
  simp [aad_fits_of_le (s := s) (by omega), hin, hout]

theorem aesCalls_ccmEnc (mic : MicLen) (s : State) :
    aesCalls (.ccmEnc mic) s = if s.alenN + s.mlenN ≤ 512 ∧ s.mlenN + micBytes mic ≤ 512
      then transformCalls s.alenN s.mlenN (micBytes mic) else 0 := by
  simp only [aesCalls, countedCommand]
  by_cases hfit : s.alenN + s.mlenN ≤ 512 ∧ s.mlenN + micBytes mic ≤ 512
  · obtain ⟨hin, hout⟩ := hfit
    rw [if_neg (ccmEnc_checks_pass hin hout), if_pos ⟨hin, hout⟩, Counted.calls_map, countedCcmEncrypt_calls,
      State.bufSlice_length, State.bufSlice_length]
  · have hexceeds : s.alenN + s.mlenN > Config.bufLen ∨ s.mlenN + micBytes mic > Config.bufLen := by
      simp only [Config.bufLen]
      omega
    rw [if_pos (hexceeds.imp_right .inl), if_neg hfit]
    rfl

/-- The transform over what fits in BUF and OUT: 68 calls are reached with 15 bytes of associated data and 497 of message. -/
theorem transformCalls_le {la lm : Nat} (h : la + lm ≤ 512) (m : Nat) : transformCalls la lm m ≤ 68 := by
  unfold transformCalls
  split
  · omega
  · split <;> omega

/-- The work of every command but DECRYPT_FRAME. -/
theorem aesCalls_le (i : Instr) (s : State) (hi : i ≠ .decryptFrame) : aesCalls i s ≤ 68 := by
  cases i with
  | decryptFrame => exact absurd rfl hi
  | aesEnc => exact Nat.le_of_ble_eq_true rfl
  | mmoHash => rw [aesCalls_mmoHash]; split <;> omega
  | keyedHash imm8 => rw [aesCalls_keyedHash]; decide
  | ccmDec mic =>
    rw [aesCalls_ccmDec]
    split
    · exact transformCalls_le (by omega) _
    · exact Nat.zero_le _
  | ccmEnc mic =>
    rw [aesCalls_ccmEnc]
    split
    · next hfit =>
      obtain ⟨hin, -⟩ := hfit
      exact transformCalls_le hin _
    · exact Nat.zero_le _
  | nop => exact Nat.zero_le _
  | parseHdr => exact Nat.zero_le _
  | buildNonce => exact Nat.zero_le _
  | regKey => exact Nat.zero_le _
  | addGkey rev => exact Nat.zero_le _
  | lookupLabel => exact Nat.zero_le _
  | sessionReset => exact Nat.zero_le _

/-! ### The trials of a frame -/

theorem tryCandidates_count_le (f : Candidate → Option (List Byte)) (l : List Candidate) (n : Nat) :
    (tryCandidates f l n).2 ≤ n + l.length := by
  induction l generalizing n with
  | nil => exact Nat.le_refl n
  | cons c l ih =>
    simp only [tryCandidates, List.length_cons]
    cases f c with
    | some m => exact Nat.add_le_add_left (Nat.succ_pos _) n
    | none => exact (ih (n + 1)).trans (by omega)

/-- How many trials a frame makes once they begin. -/
def State.trialCount (s : State) (hd : Header) (src : BitVec 64) : Nat :=
  (tryCandidates (s.tryKey hd (buildNonce src hd.fc hd.ctrl)) (s.candidates hd.keyId s.netid) 0).2

theorem State.Inv.trialCount_le {s : State} (h : s.Inv) (hd : Header) (src : BitVec 64) : s.trialCount hd src ≤ 25 :=
  (tryCandidates_count_le _ _ _).trans ((Nat.zero_add _).trans_le (h.candidates_length_le hd.keyId s.netid))

/-- What the trial loop leaves: the HDR registers as they were, and RESULT.TRIALS the number of trials. -/
theorem State.tryFrame_words (s : State) (hd : Header) (n : Nonce) (haad : aadTooLong (s.transformAad hd).length = false) :
    (s.tryFrame hd n).hdrPos = s.hdrPos ∧ (s.tryFrame hd n).hdrInfo = s.hdrInfo
    ∧ (s.tryFrame hd n).result.extractLsb' 16 16
      = BitVec.ofNat 16 (tryCandidates (s.tryKey hd n) (s.candidates hd.keyId s.netid) 0).2 := by
  rw [State.tryFrame, haad, if_neg Bool.false_ne_true]
  rcases tryCandidates (s.tryKey hd n) (s.candidates hd.keyId s.netid) 0 with ⟨_ | ⟨c, m⟩, trials⟩
  · simp [resultWord_trials]
  · simp [State.commitFrame, resultWord_trials]

theorem State.countedTryFrame_calls (s : State) (hd : Header) (n : Nonce)
    (haad : aadTooLong (s.transformAad hd).length = false) :
    (s.countedTryFrame hd n).calls
      = (tryCandidates (s.tryKey hd n) (s.candidates hd.keyId s.netid) 0).2 * s.trialCalls hd := by
  have hvalue : (fun c => (s.countedTryKey hd n c).value) = s.tryKey hd n := funext (s.countedTryKey_value hd n)
  obtain ⟨-, hcalls⟩ := countedTryCandidates_calls (s.countedTryKey hd n) _ (s.countedTryKey_calls hd n)
    (s.candidates hd.keyId s.netid) 0
  rw [State.countedTryFrame, haad, if_neg Bool.false_ne_true, Counted.calls_map, hcalls, hvalue, Nat.sub_zero]

theorem State.transformInput_length_sub (s : State) (hd : Header) :
    (s.transformInput hd).length - micBytes hd.mic = if hd.enc then hd.paylen else 0 := by
  rw [State.transformInput]
  split
  · rw [List.length_append, State.framePayload_length, State.frameMic_length, Nat.add_sub_cancel]
  · rw [State.frameMic_length, Nat.sub_self]

section
variable {s : State} {hd : Header} {src : BitVec 64} (h : TrialsBegin s hd src)
include h

/-- Once the trials begin, the loop alone calls the cipher. -/
theorem TrialsBegin.aesCalls_eq : aesCalls .decryptFrame s = s.trialCount hd src * s.trialCalls hd := by
  have hchecks : ¬ ((s.setHeader hd).caplenN < (s.setHeader hd).replenN ∨ (s.setHeader hd).skipsAuth hd = true) :=
    not_or.mpr ⟨Nat.not_lt.mpr h.captured, Bool.eq_false_iff.mp h.checked⟩
  have hsource : (s.setHeader hd).resolveSource hd.extn hd.ext = some src := h.resolved
  have hcounted : countedCommand .decryptFrame s
      = (s.trialState hd src).countedTryFrame hd (buildNonce src hd.fc hd.ctrl) := by
    simp only [countedCommand, h.parsed, State.countedProcessFrame, if_neg hchecks, hsource]
    rfl
  rw [aesCalls, hcounted, State.countedTryFrame_calls _ _ _ h.aad_fits]
  rfl

theorem TrialsBegin.payload_fits : hd.payoff + hd.paylen + micBytes hd.mic ≤ 512 := by
  obtain ⟨hbuf, -, hlen, -⟩ := parse_eq_ok s hd h.parsed
  exact hlen.trans_le (h.captured.trans hbuf)

theorem TrialsBegin.transformAad_length :
    (s.transformAad hd).length = if hd.enc then hd.payoff else hd.payoff + hd.paylen := by
  have haad := s.frameAad_length hd (parse_hoff_lt s hd h.parsed)
  rw [State.transformAad]
  split
  · exact haad
  · rw [List.length_append, haad, State.framePayload_length]

/-- The calls of one trial, by the lengths in the header. -/
theorem TrialsBegin.trialCalls_eq : s.trialCalls hd =
    transformCalls (if hd.enc then hd.payoff else hd.payoff + hd.paylen) (if hd.enc then hd.paylen else 0) (micBytes hd.mic)
      + if 2 ≤ hd.keyId.code.toNat then 5 else 0 := by
  rw [State.trialCalls, h.transformAad_length, State.transformInput_length_sub, Nat.add_comm]

theorem TrialsBegin.trialCalls_le : s.trialCalls hd ≤ 73 := by
  have hfit := h.payload_fits
  have htransform : transformCalls (if hd.enc then hd.payoff else hd.payoff + hd.paylen) (if hd.enc then hd.paylen else 0)
      (micBytes hd.mic) ≤ 68 := transformCalls_le (by split <;> omega) _
  have hkey : (if 2 ≤ hd.keyId.code.toNat then 5 else 0) ≤ 5 := by split <;> decide
  rw [h.trialCalls_eq]
  exact Nat.add_le_add htransform hkey

/-- The words in which the next state shows the trials and the header. -/
theorem TrialsBegin.words {t : State} (ht : exec .decryptFrame s = .next t) :
    t.hdrPos = hd.posWord ∧ t.hdrInfo = hd.infoWord
    ∧ t.result.extractLsb' 16 16 = BitVec.ofNat 16 (s.trialCount hd src) := by
  cases h.exec_eq.symm.trans ht
  exact State.tryFrame_words _ _ _ h.aad_fits

end

/-! ### The header's lengths in the HDR words (10_state.md rules R116 and R119) -/

/-- HDR_POS[15:0] is PAYOFF. -/
theorem Header.posWord_payoff (hd : Header) : hd.posWord.extractLsb' 0 16 = BitVec.ofNat 16 hd.payoff := by
  apply BitVec.eq_of_getLsbD_eq
  intro k hk
  simp only [Header.posWord, BitVec.getLsbD_extractLsb', BitVec.getLsbD_append, hk]
  rw [if_pos (by omega)]
  simp

/-- HDR_INFO[20:16] is MICLEN. -/
theorem Header.infoWord_micLen (hd : Header) : (hd.infoWord.extractLsb' 16 5).toNat = micBytes hd.mic := by
  have hfield : hd.infoWord.extractLsb' 16 5 = BitVec.ofNat 5 (micBytes hd.mic) := by
    apply BitVec.eq_of_getLsbD_eq
    intro k hk
    simp only [Header.infoWord, BitVec.getLsbD_extractLsb', BitVec.getLsbD_append, hk]
    iterate 6 rw [if_neg (by omega)]
    rw [if_pos (by omega)]
    simp; congr 1; omega
  have hmic := micBytes_le hd.mic
  rw [hfield, BitVec.toNat_ofNat]
  omega

/-- HDR_INFO[21] is ENC. -/
theorem Header.infoWord_enc (hd : Header) : hd.infoWord.getLsbD 21 = hd.enc := by
  simp only [Header.infoWord, BitVec.getLsbD_append]
  simp

theorem keyIdOfCode_code_of_code : ∀ code : BitVec 2, (keyIdOfCode code).code = code := by decide

theorem Header.keyId_code (hd : Header) : hd.keyId.code = ctrlKeyCode hd.ctrl := keyIdOfCode_code_of_code _

/-- A frame that ends before its trials makes no call, and its RESULT counts no trial. -/
theorem decryptFrame_trials_or_no_calls (s t : State) (ht : exec .decryptFrame s = .next t) :
    (aesCalls .decryptFrame s = 0 ∧ t.result.extractLsb' 16 16 = 0) ∨ ∃ hd src, TrialsBegin s hd src := by
  have hcalls (hd : Header) (hp : parse s = .ok hd) :
      aesCalls .decryptFrame s = ((s.setHeader hd).countedProcessFrame hd).calls := by
    simp only [aesCalls, countedCommand, hp]
  obtain ⟨e, hp, h'⟩ | ⟨hd, hp, ⟨hc, h'⟩ | ⟨hc, hs, h'⟩ | ⟨hc, hs, hr, h'⟩ | ⟨src, hc, hs, hr, -⟩⟩ :=
    execDecryptFrame_cases s
  case inr.inr.inr.inr => exact .inr ⟨hd, src, hp, hc, hs, hr⟩
  all_goals
    cases h'.symm.trans ht
    refine .inl ⟨?_, resultWord_trials _ _ _ _⟩
  · simp only [aesCalls, countedCommand, hp]
    rfl
  · rw [hcalls hd hp, State.countedProcessFrame, if_pos (.inl hc)]
    rfl
  · rw [hcalls hd hp, State.countedProcessFrame, if_pos (.inr hs)]
    rfl
  · have hsource : (s.setHeader hd).resolveSource hd.extn hd.ext = none := hr
    have hchecks : ¬ ((s.setHeader hd).caplenN < (s.setHeader hd).replenN ∨ (s.setHeader hd).skipsAuth hd = true) :=
      not_or.mpr ⟨Nat.not_lt.mpr hc, Bool.eq_false_iff.mp hs⟩
    simp only [hcalls hd hp, State.countedProcessFrame, if_neg hchecks, hsource]
    rfl

/-- The lengths of a captured frame fit their fields in HDR_POS. -/
theorem TrialsBegin.posWord_toNat {s : State} {hd : Header} {src : BitVec 64} (h : TrialsBegin s hd src) :
    (hd.posWord.extractLsb' 0 16).toNat = hd.payoff ∧ (hd.posWord.extractLsb' 16 16).toNat = hd.paylen := by
  have hfit := h.payload_fits
  rw [Header.posWord_payoff, Header.posWord_paylen, BitVec.toNat_ofNat, BitVec.toNat_ofNat]
  omega

/-- The work of a frame (rules R813 and R1121), its lengths and the number of trials read from the result registers. -/
theorem aesCalls_decryptFrame {s t : State} (hinv : s.Inv) (ht : exec .decryptFrame s = .next t) :
    let payoff := (t.hdrPos.extractLsb' 0 16).toNat
    let paylen := (t.hdrPos.extractLsb' 16 16).toNat
    let m := (t.hdrInfo.extractLsb' 16 5).toNat
    let enc := t.hdrInfo.getLsbD 21
    aesCalls .decryptFrame s = (t.result.extractLsb' 16 16).toNat
        * (transformCalls (if enc then payoff else payoff + paylen) (if enc then paylen else 0) m
          + (if 2 ≤ (t.hdrInfo.extractLsb' 3 2).toNat then 5 else 0))
      ∧ aesCalls .decryptFrame s ≤ 25 * 73 := by
  intro payoff paylen m enc
  obtain ⟨hzero, hresult⟩ | ⟨hd, src, h⟩ := decryptFrame_trials_or_no_calls s t ht
  · rw [hzero, hresult]
    exact ⟨(Nat.zero_mul _).symm, Nat.zero_le _⟩
  · obtain ⟨hpos, hinfo, hresult⟩ := h.words ht
    obtain ⟨hoff, hlen⟩ := h.posWord_toNat
    have hcount := hinv.trialCount_le hd src
    have hpayoff : payoff = hd.payoff := by rw [← hoff, ← hpos]
    have hpaylen : paylen = hd.paylen := by rw [← hlen, ← hpos]
    have hm : m = micBytes hd.mic := by rw [← hd.infoWord_micLen, ← hinfo]
    have henc : enc = hd.enc := by rw [← hd.infoWord_enc, ← hinfo]
    have htrials : (t.result.extractLsb' 16 16).toNat = s.trialCount hd src := by
      rw [hresult, BitVec.toNat_ofNat]
      exact Nat.mod_eq_of_lt (by omega)
    rw [hpayoff, hpaylen, hm, henc, hinfo, hd.infoWord_keyId, ← hd.keyId_code, htrials, ← h.trialCalls_eq, h.aesCalls_eq]
    exact ⟨rfl, Nat.mul_le_mul hcount h.trialCalls_le⟩

/-- Settles O57: the value of the counting run, then the table of rule R1121 row by row. -/
theorem workOfEveryCommandFollowsTheTable : Obligations.WorkOfEveryCommandFollowsTheTable := by
  unfold Obligations.WorkOfEveryCommandFollowsTheTable
  intro blocks transform
  refine ⟨fun i s => ⟨exec_eq_countedCommand i s, rfl⟩, fun s => ⟨fun i hi => ?_, rfl, aesCalls_mmoHash s,
    fun imm8 => aesCalls_keyedHash imm8 s, fun mic => aesCalls_ccmDec mic s, fun mic => aesCalls_ccmEnc mic s,
    fun hinv t => aesCalls_decryptFrame hinv, fun i => aesCalls_le i s⟩⟩
  simp only [List.mem_cons, List.not_mem_nil, or_false] at hi
  obtain rfl | rfl | rfl | rfl | rfl | rfl | rfl | rfl := hi
  all_goals rfl

end Sys2Proof.Machine
end

section
/-! SUPPORT. The cache (44_key_ring.md rules R822 to R824, 45_frame_decrypt.md rule R912): what a frame's verdict depends on,
and a second run of the frame whose key was cached. -/

namespace Sys2Proof.Machine

/-! ### A verdict (rule R823) -/

/-- One verdict: the same outcome code and the same RESULT.KIND. -/
structure SameVerdict (t t' : State) : Prop where
  errCode : t'.errCode = t.errCode
  kind : t'.result.extractLsb' 0 2 = t.result.extractLsb' 0 2

/-- A failed frame is Failed with its code, whatever the state and the trials. -/
theorem SameVerdict.failFrame (t t' : State) (e : ErrCode) (n n' : Nat) :
    SameVerdict (t.failFrame e n) (t'.failFrame e n') where
  errCode := rfl
  kind := by simp [resultWord_kind]

/-- A verified frame is OK with the kind of its header, whichever candidate verified it. -/
theorem SameVerdict.commitFrame (t t' : State) (hd : Header) (c c' : Candidate) (m m' : List Byte) (n n' : Nat) :
    SameVerdict (t.commitFrame hd c m n) (t'.commitFrame hd c' m' n') where
  errCode := rfl
  kind := by simp [State.commitFrame, resultWord_kind]

/-- Two runs of the trials give one verdict when both find a key or neither does. -/
theorem SameVerdict.tryFrame {t t' : State} {hd : Header} {n : Nonce}
    (haad : t'.transformAad hd = t.transformAad hd)
    (hfound : (tryCandidates (t'.tryKey hd n) (t'.candidates hd.keyId t'.netid) 0).1.isSome
      = (tryCandidates (t.tryKey hd n) (t.candidates hd.keyId t.netid) 0).1.isSome) :
    SameVerdict (t.tryFrame hd n) (t'.tryFrame hd n) := by
  rw [State.tryFrame, State.tryFrame, haad]
  split
  · exact .failFrame t t' _ _ _
  · revert hfound
    rcases tryCandidates (t.tryKey hd n) (t.candidates hd.keyId t.netid) 0 with ⟨_ | ⟨c, m⟩, trials⟩ <;>
      rcases tryCandidates (t'.tryKey hd n) (t'.candidates hd.keyId t'.netid) 0 with ⟨_ | ⟨c', m'⟩, trials'⟩
    · exact fun _ => .failFrame t t' _ _ _
    · exact nofun
    · exact nofun
    · exact fun _ => .commitFrame t t' hd c c' m m' _ _

/-- Whether the loop finds a key depends on the raw keys alone. -/
theorem tryCandidates_isSome_congr {f : Candidate → Option (List Byte)}
    (hf : ∀ c d : Candidate, c.raw = d.raw → f c = f d) {l l' : List Candidate} (h : ∀ r, r ∈ l'.map Candidate.raw ↔ r ∈ l.map Candidate.raw) :
    (tryCandidates f l' 0).1.isSome = (tryCandidates f l 0).1.isSome := by
  have hmono {l l' : List Candidate} (hsub : ∀ r, r ∈ l.map Candidate.raw → r ∈ l'.map Candidate.raw) :
      (∃ d ∈ l, (f d).isSome = true) → ∃ d ∈ l', (f d).isSome = true := by
    rintro ⟨d, hd, hsome⟩
    obtain ⟨d', hd', hraw⟩ := List.mem_map.mp (hsub d.raw (List.mem_map_of_mem hd))
    exact ⟨d', hd', hf d' d hraw ▸ hsome⟩
  rw [Bool.eq_iff_iff, tryCandidates_isSome, tryCandidates_isSome]
  exact ⟨hmono fun r => (h r).mp, hmono fun r => (h r).mpr⟩

/-! ### Without the caches (rule R823) -/

/-- The caches offer no key that the lists do not: every cached key is listed. -/
theorem State.Inv.raw_mem_candidates_withoutCaches {s : State} (h : s.Inv) (k : KeyId) (n : Half) (r : Key) :
    r ∈ (s.withoutCaches.candidates k n).map Candidate.raw ↔ r ∈ (s.candidates k n).map Candidate.raw := by
  have hglobal : s.withoutCaches.globalKeys = s.globalKeys := rfl
  rw [State.raw_mem_candidates, State.raw_mem_candidates, State.flowOf_withoutCaches, hglobal]
  cases hf : FlowTable.flowOf s.flows n with
  | none => simp
  | some f =>
    obtain ⟨i, hi, -, hget, -⟩ := FlowTable.flowOf_eq_some s.flows n f hf
    have hlisted := (h.flowGood hi hget).cacheListed k r
    simp only [Option.map_some, Option.some.injEq, exists_eq_left', FlowCache.entry_empty, reduceCtorEq, false_or]
    tauto

/-- The trials reach one verdict with the caches and without. -/
theorem State.Inv.tryFrame_withoutCaches {s : State} (h : s.Inv) (hd : Header) (n : Nonce) :
    SameVerdict (s.tryFrame hd n) (s.withoutCaches.tryFrame hd n) :=
  .tryFrame rfl (tryCandidates_isSome_congr (fun c d => s.tryKey_raw hd n c d)
    (h.raw_mem_candidates_withoutCaches hd.keyId s.netid))

/-- So do the stages of a parsed frame, of which only the trials look at the key store. -/
theorem State.Inv.processFrame_withoutCaches {s : State} (h : s.Inv) (hd : Header) :
    SameVerdict (s.processFrame hd) (s.withoutCaches.processFrame hd) := by
  have hcaplen : s.withoutCaches.caplenN = s.caplenN := rfl
  have hreplen : s.withoutCaches.replenN = s.replenN := rfl
  have hskips : s.withoutCaches.skipsAuth hd = s.skipsAuth hd := rfl
  have hsource : s.withoutCaches.resolveSource hd.extn hd.ext = s.resolveSource hd.extn hd.ext := rfl
  rw [State.processFrame, State.processFrame, hcaplen, hreplen, hskips, hsource]
  split
  · exact .failFrame _ _ _ _ _
  · split
    · exact ⟨rfl, rfl⟩
    · cases s.resolveSource hd.extn hd.ext with
      | none => exact .failFrame _ _ _ _ _
      | some src => exact (h.setNonce _).tryFrame_withoutCaches hd _

/-- Settles O54: the parse reads no cache, and neither its failure nor the stages after it give another verdict. -/
theorem cacheDoesNotChangeTheVerdict : Obligations.CacheDoesNotChangeTheVerdict := by
  intro s t t' hinv ht ht'
  have hparse : parse s.withoutCaches = parse s := rfl
  have hverdict : SameVerdict t t' := by
    simp only [exec, execDecryptFrame, hparse] at ht ht'
    cases hp : parse s with
    | error e =>
      simp only [hp] at ht ht'
      cases ht
      cases ht'
      exact .failFrame _ _ _ _ _
    | ok hd =>
      simp only [hp] at ht ht'
      cases ht
      cases ht'
      exact (hinv.setHeader hd).processFrame_withoutCaches hd
  exact ⟨hverdict.errCode, hverdict.kind⟩

/-! ### A second run (rules R824 and R912) -/

/-- A frame that was decrypted with a key: its trials began, and their first success was committed. -/
theorem execDecryptFrame_of_key {s t : State} (h : exec .decryptFrame s = .next t) (hok : t.errCode = .ok)
    (hkey : t.result.extractLsb' 2 2 ≠ 0) :
    ∃ hd src before c after m, TrialsBegin s hd src ∧ s.candidates hd.keyId s.netid = before ++ c :: after
      ∧ s.tryKey hd (buildNonce src hd.fc hd.ctrl) c = some m
      ∧ t = (s.trialState hd src).commitFrame hd c m (before.length + 1) := by
  obtain ⟨e, hp, h'⟩ | ⟨hd, hp, ⟨-, h'⟩ | ⟨-, -, h'⟩ | ⟨-, -, -, h'⟩
    | ⟨src, hc, hs, hr, ⟨before, after, c, m, hcs, -, hm, h'⟩ | ⟨-, h'⟩⟩⟩ := execDecryptFrame_cases s
  all_goals cases h'.symm.trans h
  · subst hok
    obtain he | he := parse_error_code s _ hp <;> cases he
  · cases hok
  · exact absurd (resultWord_source _ _ _ _) hkey
  · cases hok
  · exact ⟨hd, src, before, c, after, m, ⟨hp, hc, hs, hr⟩, hcs, hm, (s.commitFrame_eq hd src c m _).symm⟩
  · cases hok

section
variable {s t : State} (h : SameInputs s t)
include h

/-- The checks before the trials depend on the inputs alone. -/
theorem TrialsBegin.of_sameInputs {hd : Header} {src : BitVec 64} (hbegin : TrialsBegin s hd src) :
    TrialsBegin t hd src where
  parsed := parse_congr s t hd hbegin.parsed h.caplen h.replen h.hoff h.defLevel h.buf
  captured := by
    have hcaptured := hbegin.captured
    rwa [State.replenN, State.caplenN, ← h.replen, ← h.caplen] at hcaptured
  checked := by
    have hchecked := hbegin.checked
    rwa [State.skipsAuth, ← h.ipol] at hchecked
  resolved := by
    have hresolved := hbegin.resolved
    rwa [State.resolveSource, State.hint, ← h.hintv, ← h.hintHi, ← h.hintLo] at hresolved

/-- So does the payload of a captured frame. -/
theorem SameInputs.framePayload {hd : Header} {src : BitVec 64} (hbegin : TrialsBegin s hd src) :
    t.framePayload hd = s.framePayload hd := by
  have hfit := hbegin.payload_fits
  exact State.bufSlice_congr s t _ _ _ fun k hk => h.buf _ (by simp only [Config.bufLen]; omega)

end

/-- The candidate that the cache gives. -/
def cachedCandidate (k : KeyId) (r : Key) : Candidate := { raw := r, source := .flowCache, index := k.code.toNat }

/-- After a cache write for which a slot could be had, the cached key is the first candidate. -/
theorem State.candidates_of_cacheWrite {s t : State} {n : Half} {k : KeyId} {r : Key}
    (hslot : ∃ j, j < 8 ∧ (s.flows.get j = none ∨ ∃ f, s.flows.get j = some f ∧ f.netid = n))
    (hflows : t.flows = FlowTable.cacheWrite s.flows n k r) :
    ∃ rest, t.candidates k n = cachedCandidate k r :: rest := by
  obtain ⟨f, hf, hentry, -⟩ := FlowTable.flowOf_cacheWrite s.flows n k r hslot
  rw [← hflows] at hf
  rw [State.candidates_of_flow hf, cacheCandidates_eq, hentry]
  exact ⟨_, rfl⟩

/-- A byte of OUT after the commit of a successful trial. -/
theorem State.outByte_commitFrame (s : State) (hd : Header) (c : Candidate) (m : List Byte) (n j : Nat) {bytes : List Byte}
    (hbytes : (if hd.enc then m else s.framePayload hd) = bytes) :
    (s.commitFrame hd c m n).outByte j = if j < bytes.length then bytes.getD j 0 else s.outByte j := by
  simp only [State.commitFrame, State.complete_eq, State.finish_outByte, State.setFlows_outByte, State.setResult_outByte,
    State.setRes_outByte, State.outByte_setOut, hbytes]

theorem State.commitFrame_result (s : State) (hd : Header) (c : Candidate) (m : List Byte) (n : Nat) :
    (s.commitFrame hd c m n).result = resultWord hd.verifiedKind c.source c.index n := rfl

/-- After the commit of a key for which a slot could be had, the same frame is tried with the cached key and committed at once:
the inputs, and so the trials, are the ones of the first run. -/
theorem TrialsBegin.exec_second_run {s t : State} {hd : Header} {src : BitVec 64} (hbegin : TrialsBegin s hd src)
    (hinputs : SameInputs s t) {c : Candidate} {m : List Byte}
    (hm : s.tryKey hd (buildNonce src hd.fc hd.ctrl) c = some m)
    (hslot : ∃ j, j < 8 ∧ (s.flows.get j = none ∨ ∃ f, s.flows.get j = some f ∧ f.netid = s.netid))
    (hflows : t.flows = FlowTable.cacheWrite s.flows s.netid hd.keyId c.raw) :
    exec .decryptFrame t
      = .next ((t.trialState hd src).commitFrame hd (cachedCandidate hd.keyId c.raw) m 1) := by
  obtain ⟨rest, hcandidates⟩ : ∃ rest, t.candidates hd.keyId t.netid = cachedCandidate hd.keyId c.raw :: rest := by
    rw [hinputs.netid]
    exact State.candidates_of_cacheWrite hslot hflows
  have htrial : t.tryKey hd (buildNonce src hd.fc hd.ctrl) (cachedCandidate hd.keyId c.raw) = some m := by
    rw [t.tryKey_raw hd _ (cachedCandidate hd.keyId c.raw) c rfl,
      State.tryKey_congr s t hd _ c hbegin.parsed hbegin.captured hinputs.hoff hinputs.buf, hm]
  exact (hbegin.of_sameInputs hinputs).exec_commit (before := []) hcandidates nofun htrial

/-- The key kind as an index of the cache, read from HDR_INFO. -/
theorem Header.infoWord_cacheIndex (hd : Header) :
    (hd.infoWord.extractLsb' 3 2).setWidth 8 = BitVec.ofNat 8 hd.keyId.code.toNat := by
  rw [hd.infoWord_keyId, hd.keyId_code, BitVec.ofNat_toNat]

/-- Settles O55: both runs commit the same plaintext with the same key, the second one from the cache and at the first trial. -/
theorem secondRunTriesOnlyTheCachedKey : Obligations.SecondRunTriesOnlyTheCachedKey := by
  intro s t u ht hok hkey hslot hu
  have hinputs : SameInputs s t := commandsLeaveTheirInputsUnchanged .decryptFrame s t ht
  obtain ⟨hd, src, before, c, after, m, hbegin, -, hm, hfirst⟩ := execDecryptFrame_of_key ht hok hkey
  have hflows := congrArg State.flows hfirst
  have hsecond := Host.Outcome.next.inj (hu.symm.trans (hbegin.exec_second_run hinputs hm hslot hflows))
  have hinfo : t.hdrInfo = hd.infoWord := congrArg State.hdrInfo hfirst
  have hresult : t.result = resultWord hd.verifiedKind c.source c.index (before.length + 1) := by
    rw [hfirst, State.commitFrame_result]
  have hresult' : u.result = resultWord hd.verifiedKind .flowCache hd.keyId.code.toNat 1 := by
    rw [hsecond, State.commitFrame_result]
    rfl
  rw [hresult', hresult, hinfo, hd.infoWord_cacheIndex, resultWord_kind, resultWord_kind, resultWord_source,
    resultWord_index, resultWord_trials]
  refine ⟨?ok, rfl, rfl, rfl, rfl, ?res, fun j _ => ?out⟩
  case ok => rw [hsecond]; rfl
  case res => rw [hsecond, hfirst]; rfl
  case out =>
    have hout := (s.trialState hd src).outByte_commitFrame hd c m (before.length + 1) j rfl
    have hout' := (t.trialState hd src).outByte_commitFrame hd (cachedCandidate hd.keyId c.raw) m 1 j
      (congrArg (if hd.enc then m else ·) (hinputs.framePayload hbegin))
    rw [← hfirst] at hout
    rw [← hsecond] at hout'
    by_cases hj : j < (if hd.enc then m else s.framePayload hd).length
    · exact (hout'.trans (if_pos hj)).trans (hout.trans (if_pos hj)).symm
    · exact hout'.trans (if_neg hj)

end Sys2Proof.Machine
end

section
/-! SUPPORT. NOP, and DECRYPT_FRAME when it ends before any trial (45_frame_decrypt.md rules R900, R902, R906, R909 and R920): one
equation for each way out of its stages. -/

namespace Sys2Proof.Machine

/-- Settles O48: NOP is the completion event and nothing else. -/
theorem nopChangesOnlyStatus : Obligations.NopChangesOnlyStatus := by
  intro s
  change Host.Outcome.next s.complete = _
  rw [State.complete_eq, State.finish]

/-! ### The ways out of DECRYPT_FRAME before its trials -/

/-- A failed parse ends the frame, with no HDR register written. -/
theorem exec_decryptFrame_of_parse_error {s : State} {e : ErrCode} (h : parse s = .error e) :
    exec .decryptFrame s = .next (s.failFrame e 0) := by
  simp only [exec, execDecryptFrame, h]

/-- A parsed header is committed before the stages that follow. -/
theorem exec_decryptFrame_of_parse_ok {s : State} {hd : Header} (h : parse s = .ok hd) :
    exec .decryptFrame s = .next ((s.setHeader hd).processFrame hd) := by
  simp only [exec, execDecryptFrame, h]

section
variable {s : State} {hd : Header}

theorem State.processFrame_of_truncated (h : s.caplenN < s.replenN) :
    s.processFrame hd = s.failFrame .truncatedCiphertext 0 := by
  rw [State.processFrame, if_pos h]

theorem State.processFrame_of_skipsAuth (hcaptured : s.replenN ≤ s.caplenN) (hskips : s.skipsAuth hd = true) :
    s.processFrame hd
      = ((s.setOut (s.framePayload hd)).setResult (resultWord .integrityOnly .noKey 0 0)).complete := by
  rw [State.processFrame, if_neg (Nat.not_lt.mpr hcaptured), if_pos hskips]

theorem State.processFrame_of_no_source (hcaptured : s.replenN ≤ s.caplenN) (hskips : s.skipsAuth hd = false)
    (hsource : s.resolveSource hd.extn hd.ext = none) : s.processFrame hd = s.failFrame .unknownSource 0 := by
  rw [State.processFrame, if_neg (Nat.not_lt.mpr hcaptured), hskips, if_neg Bool.false_ne_true, hsource]

end

/-- The frames that are returned unchecked, read off the control byte and IPOL: level 0 (rule R902), and a level that does not
encrypt under IPOL = 1 (rule R906). -/
theorem State.skipsAuth_iff (s : State) (hd : Header) :
    s.skipsAuth hd = true ↔ hd.ctrl.extractLsb' 0 3 = 0 ∨ (hd.ctrl.getLsbD 2 = false ∧ s.ipol = true) := by
  rw [State.skipsAuth, Header.enc_eq, Header.level, ctrlLevel, Bool.or_eq_true, beq_iff_eq, Bool.and_eq_true,
    Bool.not_eq_true']

/-- RESULT of a frame that failed before any trial (rule R911). -/
theorem resultWord_failed_without_trial : resultWord .failed .noKey 0 0 = 3 := rfl

/-- RESULT of a frame that was returned unchecked (rule R911). -/
theorem resultWord_integrityOnly_without_trial : resultWord .integrityOnly .noKey 0 0 = 1 := rfl

/-- What a failure before any trial leaves behind. -/
theorem State.failFrame_without_trial (s : State) (e : ErrCode) :
    s.failFrame e 0 = { s with result := 3, seq := .idle, done := true, errCode := e } := by
  rw [State.failFrame_eq, resultWord_failed_without_trial, State.setResult, State.finish]

/-- Settles O49: the three failures in the order of rule R900, each with KIND = 3 and no trial. -/
theorem decryptFrameEarlyErrors : Obligations.DecryptFrameEarlyErrors := by
  intro s
  refine ⟨fun e hparse => ?parse, fun hd hparse htruncated => ?truncated,
    fun hd hparse hcaptured hlevel hpolicy hextn hhint => ?source⟩
  case parse => rw [exec_decryptFrame_of_parse_error hparse, State.failFrame_without_trial]
  case truncated =>
    have hcaplen : (s.setHeader hd).caplenN < (s.setHeader hd).replenN := htruncated
    rw [exec_decryptFrame_of_parse_ok hparse, State.processFrame_of_truncated hcaplen, State.failFrame_without_trial]
  case source =>
    have hskips : (s.setHeader hd).skipsAuth hd = false := by
      rw [Bool.eq_false_iff, ne_eq, State.skipsAuth_iff, State.setHeader_ipol]
      rintro (hzero | ⟨henc, hipol⟩)
      · exact hlevel hzero
      · rw [henc, hipol] at hpolicy
        simp at hpolicy
    have hsource : (s.setHeader hd).resolveSource hd.extn hd.ext = none := by
      rw [State.resolveSource, Header.extn_eq, hextn, State.setHeader_hintv, hhint, if_neg Bool.false_ne_true,
        if_neg Bool.false_ne_true]
    have hwhole : (s.setHeader hd).replenN ≤ (s.setHeader hd).caplenN := hcaptured
    rw [exec_decryptFrame_of_parse_ok hparse, State.processFrame_of_no_source hwhole hskips hsource,
      State.failFrame_without_trial]

/-- Settles O50: the unchecked frame is the write of its payload to OUT, read back byte by byte. -/
theorem uncheckedFramesAreReturnedAsTheyStand : Obligations.UncheckedFramesAreReturnedAsTheyStand := by
  intro s hd hparse hcaptured hunchecked
  have hskips : (s.setHeader hd).skipsAuth hd = true := (State.skipsAuth_iff _ hd).mpr hunchecked
  have hwhole : (s.setHeader hd).replenN ≤ (s.setHeader hd).caplenN := hcaptured
  have hexec := exec_decryptFrame_of_parse_ok hparse
  rw [State.processFrame_of_skipsAuth hwhole hskips, resultWord_integrityOnly_without_trial] at hexec
  have hlen : ((s.setHeader hd).framePayload hd).length = hd.paylen := State.framePayload_length _ hd
  refine ⟨_, hexec, rfl, fun j hj => ?payload, fun b hb => ?frame⟩
  case payload =>
    exact ((s.setHeader hd).outByte_setOut_complete (hlen ▸ hj)).trans (s.getD_bufSlice hd.payoff hd.paylen j hj)
  case frame =>
    rw [← hlen] at hb
    exact (s.setHeader hd).memByte_setOut_complete hb

end Sys2Proof.Machine
end

section
/-! SUPPORT. Status and the life of a command (60_exceptions.md rules R1000 to R1010, 70_reset_and_hazards.md rules R1110 and
R1111): which steps keep ERRCODE, and why a schedule that has been served leaves no command running. -/

namespace Sys2Proof.Machine

/-- Settles O24: the table of the codes, and the bound code by code. -/
theorem errorCodesAreNumbered : Obligations.ErrorCodesAreNumbered := by
  refine ⟨rfl, fun e => ?_⟩
  cases e <;> decide

/-- Settles O9: the shape in which every command ends has BUSY 0, DONE 1 and the IE it started with. -/
theorem everyCommandCompletes : Obligations.EveryCommandCompletes := by
  intro i s
  obtain ⟨t, ht, hend⟩ := exec_ends i s
  have hdone : t.done = true := by rw [hend]
  have hie : t.ie = s.ie := by rw [hend]
  refine ⟨t, ht, by rw [hend], hdone, ?_⟩
  rw [State.irq, hdone, hie, Bool.and_true]

/-! ### Which writes start a command (70_reset_and_hazards.md rule R1110, Start) -/

/-- No host access reaches the reset input. -/
theorem State.serveWrite_inReset (s : State) (width : Width) (a : Nat) (data : Word) :
    (s.serveWrite width a data).inReset = s.inReset := by
  obtain ⟨-, e⟩ | ⟨-, e⟩ | ⟨-, -, -, e⟩ | ⟨-, -, -, -, -, e⟩ | ⟨-, -, -, e⟩ := s.serveWrite_cases width a data
  all_goals rw [e]
  case inr.inr.inr.inl => obtain ⟨-, e'⟩ | ⟨-, e'⟩ := s.writeRegister_cases a data <;> rw [e'] <;> rfl
  case inr.inr.inr.inr => rw [State.writeWindow_eq]; rfl
  all_goals rfl

/-- A write starts a command when it is a word written to CMD while idle; every other write keeps ERRCODE. -/
theorem State.serveWrite_starts_or_keeps_errCode (s : State) (width : Width) (offset : BitVec 12) (data : Word) :
    (width = .word ∧ offset = 0x00C ∧ s.busy = false)
    ∨ (s.serveWrite width offset.toNat data).errCode = s.errCode := by
  obtain ⟨-, e⟩ | ⟨-, e⟩ | ⟨-, -, -, e⟩ | ⟨-, -, hidle, -, hword, e⟩ | ⟨-, -, -, e⟩ :=
    s.serveWrite_cases width offset.toNat data
  case inr.inr.inr.inl =>
    obtain ⟨hcmd, -⟩ | ⟨-, e'⟩ := s.writeRegister_cases offset.toNat data
    · exact .inl ⟨hword, BitVec.eq_of_toNat_eq hcmd, hidle⟩
    · rw [e, e']; exact .inr rfl
  case inr.inr.inr.inr => rw [e, State.writeWindow_eq]; exact .inr rfl
  all_goals rw [e]; exact .inr rfl

/-! ### The end of every command (60_exceptions.md rule R1001, 70_reset_and_hazards.md rules R1110 and R1111) -/

/-- No step faults and none is refused. -/
theorem step_next (s : State) : ∃ t, step s = .next t := by
  obtain ⟨rest, -, ⟨-, -, e⟩ | ⟨-, -, e⟩ | ⟨-, _, _, -, e⟩ | ⟨-, _, _, _, -, e⟩ | ⟨-, e⟩ | ⟨-, -, e⟩ | ⟨-, -, e⟩⟩ :=
    step_cases s
  case inr.inl =>
    obtain ⟨t, ht, -⟩ := runCommand_next (s.taking rest)
    exact ⟨t, e.trans ht⟩
  all_goals exact ⟨_, e⟩

/-- No command is running while reset is asserted (70_reset_and_hazards.md rule R1100): the part of the invariant that
decides whether a running command can complete. -/
def State.IdleInReset (s : State) : Prop := s.inReset = true → s.seq = .idle

theorem State.Inv.idleInReset {s : State} (h : s.Inv) : s.IdleInReset := fun hr => (h.resetIdle hr).1

/-- A command starts only while reset is released, and asserting reset abandons it. -/
theorem step_idleInReset {s t : State} (h : s.IdleInReset) (ht : step s = .next t) : t.IdleInReset := by
  obtain ⟨rest, -, ⟨-, -, e⟩ | ⟨-, -, e⟩ | ⟨-, width, offset, -, e⟩ | ⟨hr, width, offset, data, -, e⟩ | ⟨-, e⟩
    | ⟨-, -, e⟩ | ⟨-, -, e⟩⟩ := step_cases s
  all_goals rw [e] at ht
  · cases ht; exact h
  · obtain ⟨u, hu, hidle, -⟩ := runCommand_next (s.taking rest)
    cases hu.symm.trans ht
    exact fun _ => hidle
  · cases ht; rw [State.serveRead_eq]; exact h
  · cases ht
    have hreleased := ((s.taking rest).serveWrite_inReset width offset.toNat data).trans hr
    exact fun hr' => absurd (hreleased.symm.trans hr') Bool.false_ne_true
  · cases ht; exact fun _ => rfl
  · cases ht; exact fun _ => rfl
  · cases ht; exact h

/-- With nothing left at the boundary, one step ends the running command. -/
theorem step_nil_ends {s : State} (h : s.IdleInReset) (hi : s.inputs = []) : ∃ t, step s = .next t ∧ t.seq = .idle := by
  rw [step_nil s hi]
  cases hr : s.inReset with
  | true => exact ⟨s.taking [], rfl, h hr⟩
  | false =>
    obtain ⟨t, ht, hidle, -⟩ := runCommand_next (s.taking [])
    exact ⟨t, ht, hidle⟩

/-- A run goes on from the state its first step answers. -/
theorem run_succ_of_step {s t : State} (n : Nat) (h : step s = .next t) : core.run (n + 1) s = core.run n t := by
  have hstep : core.step s = .next t := h
  simp only [Host.Core.run, hstep]

/-- By induction on the schedule: each event takes one step, and the step after the last one ends the running command. -/
theorem run_serves_schedule (l : List HostEvent) {s : State} (hi : s.inputs = l) (h : s.IdleInReset) :
    ∃ t : State, core.run (l.length + 1) s = .next t ∧ t.inputs = [] ∧ t.seq = .idle := by
  induction l generalizing s with
  | nil =>
    obtain ⟨t, ht, hidle⟩ := step_nil_ends h hi
    refine ⟨t, run_succ_of_step 0 ht, ?_, hidle⟩
    rw [step_inputs s t ht, hi, List.tail_nil]
  | cons e rest ih =>
    obtain ⟨u, hu⟩ := step_next s
    have hrest : u.inputs = rest := by rw [step_inputs s u hu, hi, List.tail_cons]
    obtain ⟨t, ht, hdone⟩ := ih hrest (step_idleInReset h hu)
    exact ⟨t, (run_succ_of_step _ hu).trans ht, hdone⟩

/-- Settles O8: a step is total, and a run serves its schedule. -/
theorem everyStartedCommandEnds : Obligations.EveryStartedCommandEnds :=
  ⟨step_next, fun s h => run_serves_schedule s.inputs rfl h⟩

/-! ### ERRCODE (60_exceptions.md rule R1002) -/

/-- ERR is a function of ERRCODE (10_state.md rule R103). -/
theorem State.err_congr {s t : State} (h : t.errCode = s.errCode) : t.err = s.err := by
  rw [State.err, State.err, h]

section
variable {s t : State} {rest : List HostEvent}

theorem step_read_errCode {width : Width} {offset : BitVec 12} (hi : s.inputs = .read width offset :: rest)
    (ht : step s = .next t) : t.errCode = s.errCode := by
  rw [step_cons s _ rest hi] at ht
  cases ht
  split
  · rfl
  · rw [State.serveRead_eq]; rfl

/-- A write that is not accepted as a command keeps ERRCODE, a write to STATUS among them. -/
theorem step_write_errCode {width : Width} {offset : BitVec 12} {data : Word}
    (hi : s.inputs = .write width offset data :: rest) (ht : step s = .next t)
    (hcmd : width = .word → offset = 0x00C → s.inReset = true ∨ s.busy = true) : t.errCode = s.errCode := by
  rw [step_cons s _ rest hi] at ht
  cases ht
  split
  case isTrue => rfl
  case isFalse hr =>
    obtain ⟨hword, hoffset, hidle⟩ | herr :=
      (s.taking rest).serveWrite_starts_or_keeps_errCode width offset data
    · obtain hreset | hbusy := hcmd hword hoffset
      · exact absurd hreset hr
      · exact absurd (hbusy.symm.trans hidle) Bool.true_eq_false.mp
    · exact herr

/-- A completion with no command running takes the event and does nothing else (log entry 19). -/
theorem step_complete_without_command (hi : s.inputs = .complete :: rest) (h : s.inReset = true ∨ s.seq = .idle) :
    step s = .next (s.taking rest) := by
  rw [step_cons s _ rest hi, serveEvent]
  split
  case isTrue => rfl
  case isFalse hr => exact runCommand_idle (s.taking rest) (h.resolve_left hr)

/-- With no event left and no command running, the block stays as it is (log entry 3). -/
theorem step_nil_without_command (hi : s.inputs = []) (h : s.inReset = true ∨ s.seq = .idle) :
    step s = .next (s.taking []) := by
  rw [step_nil s hi]
  split
  case isTrue => rfl
  case isFalse hr => exact runCommand_idle (s.taking []) (h.resolve_left hr)

end

/-- Settles O12: event by event, ERR following ERRCODE. -/
theorem errCodeKeepsTheLastOutcome : Obligations.ErrCodeKeepsTheLastOutcome := by
  refine ⟨fun s t e rest hi ht => ⟨?access, ?accepted, ?dropped, ?completion, ?assertion, ?release⟩,
    fun s t hi hquiet ht => ?nothing⟩
  case access =>
    intro hcomplete hassert hrelease hcmd
    suffices hkept : t.errCode = s.errCode from ⟨hkept, State.err_congr hkept⟩
    cases e with
    | read width offset => exact step_read_errCode hi ht
    | write width offset data =>
      refine step_write_errCode hi ht fun hword hoffset => ?_
      exact absurd (by rw [hword, hoffset]) (hcmd data)
    | complete => exact absurd rfl hcomplete
    | assertReset => exact absurd rfl hassert
    | releaseReset => exact absurd rfl hrelease
  case accepted =>
    rintro v rfl hr hidle
    rw [commandWriteStartsTheCommand s v rest hr hidle hi] at ht
    cases ht
    exact ⟨rfl, rfl⟩
  case dropped =>
    rintro v rfl hdrop
    have hkept : t.errCode = s.errCode := step_write_errCode hi ht fun _ _ => hdrop
    exact ⟨hkept, State.err_congr hkept⟩
  case completion =>
    rintro rfl hquiet
    rw [step_complete_without_command hi hquiet] at ht
    cases ht
    exact ⟨rfl, rfl⟩
  case assertion =>
    rintro rfl
    rw [step_assertReset s rest hi] at ht
    cases ht
    exact ⟨rfl, rfl⟩
  case release =>
    rintro rfl
    rw [step_releaseReset s rest hi] at ht
    refine ⟨fun hr => ?_, fun hr => ?_⟩
    · rw [hr, if_pos rfl] at ht
      cases ht
      exact ⟨rfl, rfl⟩
    · rw [hr, if_neg Bool.false_ne_true] at ht
      cases ht
      exact ⟨rfl, rfl⟩
  case nothing =>
    rw [step_nil_without_command hi hquiet] at ht
    cases ht
    exact ⟨rfl, rfl⟩

end Sys2Proof.Machine
end

section
/-! SUPPORT. Writes while BUSY and the reset input (70_reset_and_hazards.md rules R1100, R1101 and R1113). -/

namespace Sys2Proof

theorem FixedList.get_replicate {α : Type} {n : Nat} [Inhabited α] (x : α) (i : Nat) (h : i < n) :
    (FixedList.replicate n x).get i = x := by
  rw [FixedList.get_eq_getElem _ i h]
  simp only [FixedList.toList_replicate, List.getElem_replicate]

namespace Machine

/-! ### Writes while BUSY (70_reset_and_hazards.md rule R1113) -/

/-- A write while BUSY anywhere but to STATUS, at any width. -/
theorem step_write_dropped (s : State) (width : Width) (offset : BitVec 12) (data : Word) (rest : List HostEvent)
    (hr : s.inReset = false) (hb : s.busy = true) (hw : accessWellFormed width offset = true) (hstatus : offset ≠ 0x008)
    (hi : s.inputs = .write width offset data :: rest) :
    step s = .next (({ s.taking rest with werr := true } : State).respond false 0) := by
  have hbusy : (s.taking rest).busy = true := hb
  have hoffset : offset.toNat ≠ 0x008 := fun h => hstatus (BitVec.eq_of_toNat_eq h)
  rw [step_write s width offset data rest hr hi,
    State.serveWrite_busy _ _ _ _ ((busAllows_eq width offset).trans hw) hoffset hbusy]

/-- Settles O7: STATUS takes words only, so its rule is that of the one access the port allows there. -/
theorem writesWhileBusyAreDropped : Obligations.WritesWhileBusyAreDropped := by
  intro s width offset data rest hr hb hw hi
  refine ⟨fun hstatus => ?dropped, ?served⟩
  case dropped =>
    rw [step_write_dropped s width offset data rest hr hb hw hstatus hi]
    rfl
  case served =>
    rintro rfl
    obtain ⟨rfl, -⟩ := busAllows_register width 0x008 (by decide) ((busAllows_eq width 0x008).trans hw)
    rw [step_write_status s data rest hr hi]
    rfl

/-! ### The reset state as the host sees it (70_reset_and_hazards.md rule R1101) -/

/-- The reset values, with the level of the reset input and the model's own fields left free. -/
def State.resetWith (level : Bool) (rest : List HostEvent) (draws epoch : Nat) : State :=
  { State.reset with inReset := level, inputs := rest, draws := draws, epoch := epoch }

/-- Both edges of the reset input lead to such a state, whatever was going on. -/
theorem State.resetTo_eq_resetWith (s : State) (level : Bool) :
    s.resetTo level = State.resetWith level s.inputs s.draws (s.epoch + 1) := rfl

section
variable (level : Bool) (rest : List HostEvent) (draws epoch : Nat)

/-- The registers of the table: ID, CTRL, PARAM0 and PARAM1 have a nonzero value. CTRL and STATUS read as the sums of
their fields, and KCOUNT counts an empty key store. -/
theorem State.registerWord_resetWith (a : Nat) :
    (State.resetWith level rest draws epoch).registerWord a =
      if a = 0x000 then 0x5A534543 else if a = 0x004 then 0x0000000A else if a = 0x05C then 0x00000200
      else if a = 0x060 then 0x00080810 else 0 := by
  unfold State.registerWord
  split
  case h_2 => exact State.ctrlWord_eq _
  case h_3 => exact State.statusWord_idle _ rfl
  case h_25 => exact State.kcountWord_empty rfl rfl
  case h_26 => rw [if_neg ‹¬a = 0x000›, if_neg ‹¬a = 0x004›, if_neg ‹¬a = 0x05C›, if_neg ‹¬a = 0x060›]
  all_goals rfl

/-- KEY, NONCE, BLK and RES are zero, and the bytes between them are reserved. -/
theorem State.windowByte_resetWith (a : Nat) (ha : 0x100 ≤ a) (ha' : a < 0x400) :
    (State.resetWith level rest draws epoch).windowByte a = 0 := by
  rcases region_cases a with h | h | h | h | h | h | h | h
  · omega
  · simp only [State.windowByte, regionOf_key a h.1 h.2]
    exact FixedList.get_replicate 0 (a - 0x100) (by omega)
  · simp only [State.windowByte, regionOf_nonce a h.1 h.2]
    exact FixedList.get_replicate 0 (a - 0x110) (by omega)
  · simp only [State.windowByte, regionOf_blk a h.1 h.2]
    exact FixedList.get_replicate 0 (a - 0x120) (by omega)
  · simp only [State.windowByte, regionOf_res a h.1 h.2]
    exact FixedList.get_replicate 0 (a - 0x130) (by omega)
  · omega
  · omega
  · exact State.windowByte_reserved _ a h

/-- Nothing has been written to BUF and OUT: they show the draws. -/
theorem State.memByte_resetWith (a : Nat) :
    (State.resetWith level rest draws epoch).memByte a = Config.resetByte epoch a := rfl

end

/-! ### The reset input (70_reset_and_hazards.md rule R1100) -/

/-- While reset is asserted an event other than its two edges is taken and has no effect. -/
theorem step_inReset_ignores_event (s : State) (e : HostEvent) (rest : List HostEvent) (hr : s.inReset = true)
    (hassert : e ≠ .assertReset) (hrelease : e ≠ .releaseReset) (hi : s.inputs = e :: rest) :
    step s = .next (s.taking rest) := by
  have hr' : (s.taking rest).inReset = true := hr
  rw [step_cons s e rest hi]
  cases e with
  | read width offset => rw [serveEvent, if_pos hr']
  | write width offset data => rw [serveEvent, if_pos hr']
  | complete => rw [serveEvent, if_pos hr']
  | assertReset => exact absurd rfl hassert
  | releaseReset => exact absurd rfl hrelease

/-- Settles O58: the two edges and what lies between them, then the table. -/
theorem resetPutsEverythingAtItsResetValue : Obligations.ResetPutsEverythingAtItsResetValue := by
  refine ⟨fun s e rest hi => ⟨?asserted, fun hr hassert hrelease => ?between, ?released⟩, ?table⟩
  case asserted =>
    rintro rfl
    rw [step_assertReset s rest hi, State.resetTo_eq_resetWith]
    rfl
  case between => exact step_inReset_ignores_event s e rest hr hassert hrelease hi
  case released =>
    rintro hr rfl
    rw [step_releaseReset s rest hi, if_pos hr, State.resetTo_eq_resetWith]
    rfl
  case table =>
    rintro t level rest draws epoch rfl
    exact ⟨rfl, rfl, rfl, fun i _ => FlowTable.get_replicate_none i,
      fun a _ => State.registerWord_resetWith level rest draws epoch a,
      State.windowByte_resetWith level rest draws epoch, State.memByte_resetWith level rest draws epoch⟩

end Machine

end Sys2Proof
end
